-- ==== Sys2Proof/Word.lean ====
section
/-! DEFINITION. The widths of QPK (00_scope.md R5) as bit-vector names, and the small fixed sets of names that
both the commands and the state use. -/

namespace Sys2Proof

/-- A binary64 bit pattern (00_scope.md R9): bit 63 the sign, bits 62:52 the exponent, bits 51:0 the fraction. -/
abbrev Binary64 := BitVec 64

/-- The 64 data bits of one bus access (20_memory.md R55). -/
abbrev BusData := BitVec 64

/-- A register index (20_memory.md R50). -/
abbrev RegIndex := BitVec 8

/-- A command word (30_encoding.md R70). -/
abbrev CmdWord := BitVec 32

/-- A 32-bit register: STATUS, QFLAGS (10_state.md R20). -/
abbrev Word := BitVec 32

/-- A 24-bit two's-complement code with 20 fractional bits (00_scope.md R11). -/
abbrev Code := BitVec 24

/-- One packed byte (10_state.md R34). -/
abbrev Byte := BitVec 8

/-- The byte layouts of 30_encoding.md R72. -/
inductive Layout where
  | direct
  | nibble
  deriving DecidableEq, Repr

/-- The error policies of 30_encoding.md R73. -/
inductive Mode where
  | reference
  | strict
  deriving DecidableEq, Repr

/-- The five coefficient slots in wire order (10_state.md R32): 0 = b0, 1 = b1, 2 = b2, 3 = a1, 4 = a2. -/
inductive Slot where
  | b0
  | b1
  | b2
  | a1
  | a2
  deriving DecidableEq, Repr

end Sys2Proof
end

