-- ==== Sys2Proof/Config.lean ====
section
/-! DEFINITION. The parameters of QPK (00_scope.md R5, 40_derive.md R101): the fixed constants, and the three functions
the spec leaves open, which nothing in Lean can evaluate. -/

namespace Sys2Proof

/-- The transcendental functions of 40_derive.md R101, as one record, so that the derivation can also be
evaluated with functions a test supplies. -/
structure MathFns where
  pow : Binary64 → Binary64 → Binary64
  sin : Binary64 → Binary64
  cos : Binary64 → Binary64

namespace Config

/-- Pow of 40_derive.md R101: total, deterministic, nothing else known (log 6). -/
opaque pow : Binary64 → Binary64 → Binary64

/-- Sin of 40_derive.md R101 (log 6). -/
opaque sin : Binary64 → Binary64

/-- Cos of 40_derive.md R101 (log 6). -/
opaque cos : Binary64 → Binary64

/-- The functions of this machine. -/
def mathFns : MathFns := ⟨pow, sin, cos⟩

/-- PI64 (40_derive.md R101). -/
def pi64 : Binary64 := 0x400921FB54442D18#64

/-- The canonical quiet NaN every arithmetic NaN result is (00_scope.md R9, D38). -/
def canonicalNaN : Binary64 := 0x7FF8000000000000#64

end Config

end Sys2Proof
end

