-- ==== Sys2Proof/Machine/Binary64.lean ====
section
/-! DEFINITION. Binary64 arithmetic as 00_scope.md R9 fixes it: IEEE 754 operations, round to nearest with ties to
even, one rounding per operation, subnormals exact, every arithmetic NaN the canonical one. The meaning of binary64 is
the spec's general knowledge (log 7).

Every finite binary64 is a whole number of units of 2^-1074, the smallest subnormal. Each operation computes its exact
result as a whole number or a ratio of units and rounds once. -/

namespace Sys2Proof.Machine

/-! The exactly representable literals of the rules (00_scope.md R9). -/

namespace Lit

/-- +0.0 -/
def zero : Binary64 := 0x0000000000000000#64
/-- -0.0 -/
def negZero : Binary64 := 0x8000000000000000#64
/-- 1.0 -/
def one : Binary64 := 0x3FF0000000000000#64
/-- 2.0 -/
def two : Binary64 := 0x4000000000000000#64
/-- -2.0 -/
def negTwo : Binary64 := 0xC000000000000000#64
/-- 8.0 -/
def eight : Binary64 := 0x4020000000000000#64
/-- 10.0 -/
def ten : Binary64 := 0x4024000000000000#64
/-- 16.0 -/
def sixteen : Binary64 := 0x4030000000000000#64
/-- 40.0 -/
def forty : Binary64 := 0x4044000000000000#64
/-- -8.00000095367431640625, which is -(8 + 2^-20) (41_quantize.md R122) -/
def belowMinusEight : Binary64 := 0xC020000020000000#64
/-- +inf -/
def posInf : Binary64 := 0x7FF0000000000000#64
/-- -inf -/
def negInf : Binary64 := 0xFFF0000000000000#64

end Lit

/-- The sign, bit 63. -/
def fsign (x : Binary64) : Bool := x.getLsbD 63

/-- The biased exponent, bits 62:52. -/
def fexp (x : Binary64) : Nat := (x.extractLsb' 52 11).toNat

/-- The fraction, bits 51:0. -/
def ffrac (x : Binary64) : Nat := (x.extractLsb' 0 52).toNat

/-- Bits 62:0: exponent and fraction as one number, which orders the absolute values. -/
def fmag (x : Binary64) : Nat := (x.extractLsb' 0 63).toNat

def isNaN (x : Binary64) : Bool := fexp x == 2047 && ffrac x != 0

def isInf (x : Binary64) : Bool := fexp x == 2047 && ffrac x == 0

def isFinite (x : Binary64) : Bool := fexp x != 2047

/-- +0.0 or -0.0. -/
def isZero (x : Binary64) : Bool := fmag x == 0

/-- The significand as a whole number: with the hidden bit, unless the exponent field is 0. -/
def significand (x : Binary64) : Nat := if fexp x = 0 then ffrac x else 2 ^ 52 + ffrac x

/-- The exponent of the significand's last bit, counted from 2^-1074. -/
def scale (x : Binary64) : Nat := fexp x - 1

/-- The absolute value of a finite x, in units of 2^-1074. -/
def units (x : Binary64) : Nat := significand x * 2 ^ scale x

/-- The signed value of a finite x, in units of 2^-1074. -/
def signedUnits (x : Binary64) : Int := if fsign x then -(units x : Int) else (units x : Int)

/-- val(x) of 00_scope.md R9: the exact value of a finite x. -/
def val (x : Binary64) : Rat := (signedUnits x : Rat) / (2 : Rat) ^ 1074

/-- fneg (00_scope.md R9): flips bit 63, of a NaN too. -/
def fneg (x : Binary64) : Binary64 := x ^^^ (1#64 <<< 63)

/-- fabs (00_scope.md R9): clears bit 63, of a NaN too. -/
def fabs (x : Binary64) : Binary64 := x &&& ~~~(1#64 <<< 63)

/-- The pattern with the given sign and the given bits 62:0. -/
def withSign (neg : Bool) (mag : Nat) : Binary64 := BitVec.ofBool neg ++ BitVec.ofNat 63 mag

/-- Bits 62:0 of an infinity. -/
def infMag : Nat := 2047 * 2 ^ 52

/-- num / den to the nearest whole number, a tie to the even one. -/
def roundHalfEven (num den : Nat) : Nat :=
  let low := num / den
  let rest := num % den
  if 2 * rest < den then low
  else if den < 2 * rest then low + 1
  else low + low % 2

/-- How many low bits of a whole number of units lie below a 53-bit significand. -/
def excessBits (n : Nat) : Nat := n.log2 - 52

/-- Bits 62:0 of the binary64 nearest to num / den units, a tie to the even fraction, and infinity where that would need
an exponent field of 2047. One unit in the last place there is 2^excess units; the significand that rounding gives is
added to the exponent field, so that a carry out of it moves to the next binade. -/
def roundUnits (num den : Nat) : Nat :=
  let excess := excessBits (num / den)
  min (excess * 2 ^ 52 + roundHalfEven num (den * 2 ^ excess)) infMag

/-- The binary64 nearest to a decimal num / den, the `f64` of 30_encoding.md R82. -/
def f64 (neg : Bool) (num den : Nat) : Binary64 := withSign neg (roundUnits (num * 2 ^ 1074) den)

/-- fadd (00_scope.md R9). An exact zero sum is +0.0 unless both operands are negative zeros. -/
def fadd (x y : Binary64) : Binary64 :=
  if isNaN x || isNaN y then Config.canonicalNaN
  else if isInf x then
    if isInf y && (fsign x != fsign y) then Config.canonicalNaN else x
  else if isInf y then y
  else if signedUnits x + signedUnits y = 0 then withSign (fsign x && fsign y) 0
  else withSign (decide (signedUnits x + signedUnits y < 0)) (roundUnits (signedUnits x + signedUnits y).natAbs 1)

/-- fsub (00_scope.md R9). -/
def fsub (x y : Binary64) : Binary64 :=
  if isNaN y then Config.canonicalNaN else fadd x (fneg y)

/-- fmul (00_scope.md R9). -/
def fmul (x y : Binary64) : Binary64 :=
  let neg := fsign x != fsign y
  if isNaN x || isNaN y then Config.canonicalNaN
  else if isInf x || isInf y then
    if isZero x || isZero y then Config.canonicalNaN else withSign neg infMag
  else withSign neg (roundUnits (units x * units y) (2 ^ 1074))

/-- fdiv (00_scope.md R9). -/
def fdiv (x y : Binary64) : Binary64 :=
  let neg := fsign x != fsign y
  if isNaN x || isNaN y then Config.canonicalNaN
  else if isInf x then
    if isInf y then Config.canonicalNaN else withSign neg infMag
  else if isInf y then withSign neg 0
  else if isZero y then
    if isZero x then Config.canonicalNaN else withSign neg infMag
  else withSign neg (roundUnits (units x * 2 ^ 1074) (units y))

/-- The place of a non-NaN value in the IEEE order, -0.0 and +0.0 in one place (log 5). -/
def forder (x : Binary64) : Int := if fsign x then -(fmag x : Int) else (fmag x : Int)

/-- x < y (00_scope.md R9): false when either is a NaN. -/
def flt (x y : Binary64) : Bool := !isNaN x && !isNaN y && decide (forder x < forder y)

/-- x <= y. -/
def fle (x y : Binary64) : Bool := !isNaN x && !isNaN y && decide (forder x ≤ forder y)

/-- x > y. -/
def fgt (x y : Binary64) : Bool := flt y x

/-- x >= y. -/
def fge (x y : Binary64) : Bool := fle y x

end Sys2Proof.Machine
end

