-- ==== Sys2Proof/Syntax.lean ====
section
/-! DEFINITION. The five commands of QPK, one constructor for each row of spec/opcode_table.json
(30_encoding.md R70 to R74). -/

namespace Sys2Proof

/-- A QPK command with its explicit operands (30_encoding.md R80). Every other operand is implicit. -/
inductive Instr where
  /-- NOP (42_pipeline.md R153). -/
  | nop
  /-- QUANT1 (41_quantize.md R132). SLOT is the only immediate, a 3-bit unsigned field (30_encoding.md R74). -/
  | quant1 (slot : BitVec 3) (layout : Layout) (mode : Mode)
  /-- QSET (41_quantize.md R133). -/
  | qset (layout : Layout) (mode : Mode)
  /-- DERIVE (40_derive.md R108). -/
  | derive (mode : Mode)
  /-- DPACK (42_pipeline.md R152). -/
  | dpack (layout : Layout) (mode : Mode)
  deriving DecidableEq, Repr

end Sys2Proof
end

