-- ==== Sys2Proof/WellFormed.lean ====
section
/-! DEFINITION. Which terms of Instr are commands of QPK: SLOT of QUANT1 names one of the five slots
(30_encoding.md R74). The fields that must be zero (R76) are no fields of the constructors, so they need no check. -/

namespace Sys2Proof

/-- 30_encoding.md R74: SLOT values 5, 6, 7 make a QUANT1 word illegal. -/
def Instr.wellFormed : Instr → Bool
  | .nop => true
  | .quant1 slot _ _ => slot.toNat ≤ 4
  | .qset _ _ => true
  | .derive _ => true
  | .dpack _ _ => true

/-- The check as a proposition. -/
abbrev Instr.WellFormed (i : Instr) : Prop := i.wellFormed = true

end Sys2Proof
end

