-- ==== Sys2Proof/Decode.lean ====
section
/-! DEFINITION. Decoding of 32-bit command words (30_encoding.md R77, R78), total, each illegal word rejected by the
name of the rule it breaks, and after it the encoder, written from the fields of R70 and R71. -/

namespace Sys2Proof

/-- Why a word is illegal (30_encoding.md R78). All four complete with the same error (42_pipeline.md R154). -/
inductive IllegalReason where
  /-- One of bits 31:8 is set (R75). -/
  | reservedBits
  /-- OP is 101, 110 or 111 (R71). -/
  | reservedOp
  /-- QUANT1 with SLOT 5, 6 or 7 (R74). -/
  | slotOutOfRange
  /-- A field that must be zero in this command is not (R76). -/
  | mustBeZero
  deriving DecidableEq, Repr

/-- What Decode of 30_encoding.md R77 answers. -/
inductive Decoded where
  | command (i : Instr)
  | illegal (why : IllegalReason)
  deriving DecidableEq, Repr

/-- 30_encoding.md R72. -/
def layoutOfBit : Bool → Layout
  | false => .direct
  | true => .nibble

/-- 30_encoding.md R73. -/
def modeOfBit : Bool → Mode
  | false => .reference
  | true => .strict

/-- OP, bits 2:0 (30_encoding.md R70). -/
def opField (w : CmdWord) : BitVec 3 := w.extractLsb' 0 3

/-- LAYOUT, bit 3 (30_encoding.md R70). -/
def layoutField (w : CmdWord) : Bool := w.getLsbD 3

/-- STRICT, bit 4 (30_encoding.md R70). -/
def strictField (w : CmdWord) : Bool := w.getLsbD 4

/-- SLOT, bits 7:5 (30_encoding.md R70). -/
def slotField (w : CmdWord) : BitVec 3 := w.extractLsb' 5 3

/-- Bits 31:8, reserved (30_encoding.md R75). -/
def reservedField (w : CmdWord) : BitVec 24 := w.extractLsb' 8 24

/-- Decode of 30_encoding.md R77. -/
def decode (w : CmdWord) : Decoded :=
  let layout := layoutOfBit (layoutField w)
  let mode := modeOfBit (strictField w)
  let slot := slotField w
  if reservedField w ≠ 0#24 then .illegal .reservedBits
  else if opField w = 0b000#3 then
    if slot = 0#3 ∧ strictField w = false ∧ layoutField w = false then .command .nop else .illegal .mustBeZero
  else if opField w = 0b001#3 then
    if slot.toNat ≤ 4 then .command (.quant1 slot layout mode) else .illegal .slotOutOfRange
  else if opField w = 0b010#3 then
    if slot = 0#3 then .command (.qset layout mode) else .illegal .mustBeZero
  else if opField w = 0b011#3 then
    if slot = 0#3 ∧ layoutField w = false then .command (.derive mode) else .illegal .mustBeZero
  else if opField w = 0b100#3 then
    if slot = 0#3 then .command (.dpack layout mode) else .illegal .mustBeZero
  else .illegal .reservedOp

/-- The LAYOUT bit of a layout (30_encoding.md R72). -/
def layoutBit : Layout → BitVec 1
  | .direct => 0#1
  | .nibble => 1#1

/-- The STRICT bit of a mode (30_encoding.md R73). -/
def modeBit : Mode → BitVec 1
  | .reference => 0#1
  | .strict => 1#1

/-- The one format of 30_encoding.md R70, most significant field first. -/
def cmdWord (slot : BitVec 3) (strict layout : BitVec 1) (op : BitVec 3) : CmdWord :=
  0#24 ++ slot ++ strict ++ layout ++ op

/-- The word of a well-formed command (30_encoding.md R71, R76). -/
def encode : Instr → CmdWord
  | .nop => cmdWord 0#3 0#1 0#1 0b000#3
  | .quant1 slot layout mode => cmdWord slot (modeBit mode) (layoutBit layout) 0b001#3
  | .qset layout mode => cmdWord 0#3 (modeBit mode) (layoutBit layout) 0b010#3
  | .derive mode => cmdWord 0#3 (modeBit mode) 0#1 0b011#3
  | .dpack layout mode => cmdWord 0#3 (modeBit mode) (layoutBit layout) 0b100#3

/-- The instruction of a decoder's answer. -/
def Decoded.instr? : Decoded → Option Instr
  | .command i => some i
  | .illegal _ => none

/-- The instruction the decoder reads from an opcode-table word of `nbits` bits: every row of the table has 32 bits,
and a command word is one 32-bit value with no byte order (20_memory.md R57). -/
def decodeTableWord (nbits w : Nat) : Option Instr :=
  (decode (BitVec.ofNat 32 (w % 2 ^ nbits))).instr?

end Sys2Proof
end

