-- ==== Sys2Proof/Machine/State.lean ====
section
/-! DEFINITION. The state of QPK as plain data (10_state.md R20, R36, R39), with the host's remaining instructions and
the order of turns beside it (log 1, 2), the reasons a step can stop, and the state after reset. -/

namespace Sys2Proof.Machine

/-- The four parameter registers (10_state.md R31), in the source's field order. -/
structure Params where
  gain : Binary64
  freq : Binary64
  rate : Binary64
  q : Binary64
  deriving DecidableEq, Repr

/-- Five like things, one for each slot, in wire order (10_state.md R32). -/
structure PerSlot (α : Type) where
  b0 : α
  b1 : α
  b2 : α
  a1 : α
  a2 : α
  deriving DecidableEq, Repr

/-- A PackedCoefficient: byte k of slot i is register BYTE(3i + k) (10_state.md R34). -/
structure Packed where
  byte0 : Byte
  byte1 : Byte
  byte2 : Byte
  deriving DecidableEq, Repr

/-- The pending-command snapshot PEND (10_state.md R36). The word is held as written and decoded when the command
completes (log 4). -/
structure Snapshot where
  word : CmdWord
  params : Params
  coefs : PerSlot Binary64
  deriving DecidableEq, Repr

/-- The host's instructions (30_encoding.md R82). CMD and CLRWERR are writes. -/
inductive HostInstr where
  /-- WR: BusWrite(idx, value). -/
  | wr (idx : RegIndex) (value : BusData)
  /-- RD: name receives BusRead(idx). -/
  | rd (idx : RegIndex) (name : String)
  /-- WAIT: read STATUS until BUSY = 0. -/
  | wait
  deriving DecidableEq, Repr

/-- The response of the bus to an access (20_memory.md R52, R53, R54). -/
inductive BusStatus where
  | ok
  | busError
  deriving DecidableEq, Repr

/-- One access the host has made and the response it got. The data of a write's response is 0. -/
structure HostRecord where
  access : HostInstr
  response : BusStatus
  data : BusData
  deriving DecidableEq, Repr

/-- The host (00_scope.md R12, 20_memory.md R50): what it has still to execute and what its accesses returned,
oldest first (70_reset_and_hazards.md R201). -/
structure HostAgent where
  program : List HostInstr
  log : List HostRecord
  deriving DecidableEq, Repr

/-- Which agent moves next (log 2). -/
inductive Turn where
  /-- The host executes its next instruction. -/
  | host
  /-- The engine takes its completion step if STATUS.BUSY = 1 (42_pipeline.md R150). -/
  | engine
  /-- One of the LAT engine steps in which nothing of QPK changes (42_pipeline.md R150). -/
  | wait
  /-- The reset event (70_reset_and_hazards.md R190). -/
  | reset
  deriving DecidableEq, Repr

/-- Everything the spec gives the machine (10_state.md R20, R36). CMD holds no value (R22) and has no field. -/
structure State where
  /-- STATUS (10_state.md R23). -/
  status : Word
  /-- QFLAGS (10_state.md R30). -/
  qflags : Word
  /-- PARAM_GAIN, PARAM_FREQ, PARAM_RATE, PARAM_Q (10_state.md R31). -/
  params : Params
  /-- COEF0..COEF4 (10_state.md R32). -/
  coefs : PerSlot Binary64
  /-- CODE0..CODE4 (10_state.md R33). -/
  codes : PerSlot Code
  /-- BYTE0..BYTE14 (10_state.md R34). -/
  bytes : PerSlot Packed
  /-- PEND (10_state.md R36). -/
  pend : Option Snapshot
  /-- The model's own: the host. -/
  host : HostAgent
  /-- The model's own: the turns to come. When none is left the engine moves while BUSY = 1, and else the host. -/
  turns : List Turn
  deriving DecidableEq, Repr

/-- Why the machine stops. -/
inductive Fault where
  /-- Raised by a meaning, or by a completion, when there is no pending command: the completion step is not enabled
  (42_pipeline.md R150). Safe: a stop, and no state of the invariant of Safety.lean that steps there (log 9). -/
  | noPendingCommand
  deriving DecidableEq, Repr

/-- Why an instruction has no meaning. -/
inductive Refusal where
  /-- Raised by an arm of exec that has no meaning yet. Safe: a stop. No arm of this model raises it. -/
  | notModelled (mnemonic : String)
  deriving DecidableEq, Repr

/-- The same value in every slot. -/
abbrev PerSlot.all {α : Type} (a : α) : PerSlot α := ⟨a, a, a, a, a⟩

/-- The machine right after reset (10_state.md R39): every register zero, no command pending. The host has nothing to
execute and no turn is fixed (log 18). -/
def State.reset : State where
  status := 0#32
  qflags := 0#32
  params := ⟨0#64, 0#64, 0#64, 0#64⟩
  coefs := .all 0#64
  codes := .all 0#24
  bytes := .all ⟨0#8, 0#8, 0#8⟩
  pend := none
  host := ⟨[], []⟩
  turns := []

end Sys2Proof.Machine
end

