-- ==== Sys2Proof/Machine/Operands.lean ====
section
/-! DEFINITION. The operand forms of 30_encoding.md R80: the SLOT field of QUANT1, and the registers of one slot or of
all five. -/

namespace Sys2Proof.Machine

/-- The number of a slot (10_state.md R32). -/
def slotNum : Slot → Nat
  | .b0 => 0
  | .b1 => 1
  | .b2 => 2
  | .a1 => 3
  | .a2 => 4

/-- The slots in ascending order (41_quantize.md R133). -/
def allSlots : List Slot := [.b0, .b1, .b2, .a1, .a2]

/-- The slot a number names, none for 5 and above (30_encoding.md R74). -/
def slotOfNum? : Nat → Option Slot
  | 0 => some .b0
  | 1 => some .b1
  | 2 => some .b2
  | 3 => some .a1
  | 4 => some .a2
  | _ => none

/-- The slot named by the SLOT field, unsigned and not scaled (30_encoding.md R74, R80). -/
def slotOfField? (f : BitVec 3) : Option Slot := slotOfNum? f.toNat

/-- The INDEX value that names a slot (10_state.md R29). -/
def slotIndex (i : Slot) : BitVec 3 := BitVec.ofNat 3 (slotNum i)

/-- What stands in a slot. -/
def PerSlot.get {α : Type} (v : PerSlot α) : Slot → α
  | .b0 => v.b0
  | .b1 => v.b1
  | .b2 => v.b2
  | .a1 => v.a1
  | .a2 => v.a2

/-- A value put in one slot, the others as they were. -/
def PerSlot.set {α : Type} (v : PerSlot α) (i : Slot) (a : α) : PerSlot α :=
  match i with
  | .b0 => { v with b0 := a }
  | .b1 => { v with b1 := a }
  | .b2 => { v with b2 := a }
  | .a1 => { v with a1 := a }
  | .a2 => { v with a2 := a }

/-- A function applied in every slot on its own (41_quantize.md R134). -/
def PerSlot.map {α β : Type} (f : α → β) (v : PerSlot α) : PerSlot β :=
  ⟨f v.b0, f v.b1, f v.b2, f v.a1, f v.a2⟩

/-- The values in wire order. -/
def PerSlot.toList {α : Type} (v : PerSlot α) : List α := [v.b0, v.b1, v.b2, v.a1, v.a2]

/-- Which of the three bytes of a packed coefficient. -/
inductive ByteNo where
  | first
  | second
  | third
  deriving DecidableEq, Repr

/-- The k of BYTE(3i + k) (10_state.md R34). -/
def byteNum : ByteNo → Nat
  | .first => 0
  | .second => 1
  | .third => 2

def Packed.get (p : Packed) : ByteNo → Byte
  | .first => p.byte0
  | .second => p.byte1
  | .third => p.byte2

/-- The four parameters in the order of STATUS.INDEX (10_state.md R29). -/
inductive ParamName where
  | gain
  | freq
  | rate
  | q
  deriving DecidableEq, Repr

/-- 10_state.md R29: 0 = gain, 1 = frequency, 2 = rate, 3 = Q. -/
def paramNum : ParamName → Nat
  | .gain => 0
  | .freq => 1
  | .rate => 2
  | .q => 3

/-- The INDEX value that names a parameter (10_state.md R29). -/
def paramIndex (p : ParamName) : BitVec 3 := BitVec.ofNat 3 (paramNum p)

def Params.get (v : Params) : ParamName → Binary64
  | .gain => v.gain
  | .freq => v.freq
  | .rate => v.rate
  | .q => v.q

def Params.set (v : Params) (p : ParamName) (x : Binary64) : Params :=
  match p with
  | .gain => { v with gain := x }
  | .freq => { v with freq := x }
  | .rate => { v with rate := x }
  | .q => { v with q := x }

end Sys2Proof.Machine
end

