-- ==== Sys2Proof/Machine/Flags.lean ====
section
/-! DEFINITION. The fields of STATUS (10_state.md R23) and of QFLAGS (10_state.md R30), and the cause codes
(60_exceptions.md R171). -/

namespace Sys2Proof.Machine

/-- The field of `len` bits of a register from bit `lo` up (00_scope.md R6). -/
def getField (lo len : Nat) (w : Word) : BitVec len := w.extractLsb' lo len

/-- The register with that field replaced, every other bit as it was. -/
def setField (lo : Nat) {len : Nat} (v : BitVec len) (w : Word) : Word :=
  (w &&& ~~~((BitVec.allOnes len).setWidth 32 <<< lo)) ||| (v.setWidth 32 <<< lo)

/-- STATUS.BUSY, bit 0. -/
def statusBusy (w : Word) : Bool := w.getLsbD 0

/-- STATUS.DONE, bit 1. -/
def statusDone (w : Word) : Bool := w.getLsbD 1

/-- STATUS.ERR, bit 2. -/
def statusErr (w : Word) : Bool := w.getLsbD 2

/-- STATUS.WERR, bit 3. -/
def statusWerr (w : Word) : Bool := w.getLsbD 3

/-- STATUS.CAUSE, bits 6:4. -/
def statusCause (w : Word) : BitVec 3 := getField 4 3 w

/-- STATUS.INDEX, bits 10:8. -/
def statusIndex (w : Word) : BitVec 3 := getField 8 3 w

/-- STATUS bits 31:11 and 7, reserved (10_state.md R23). -/
def statusReserved (w : Word) : BitVec 22 := getField 11 21 w ++ getField 7 1 w

/-- BUSY, DONE, ERR, CAUSE and INDEX written, as acceptance and completion write them (42_pipeline.md R150, R151,
60_exceptions.md R172). WERR and the reserved bits are left as they are. -/
def setReport (busy done err : Bool) (cause index : BitVec 3) (w : Word) : Word :=
  setField 8 index (setField 4 cause (setField 2 (BitVec.ofBool err)
    (setField 1 (BitVec.ofBool done) (setField 0 (BitVec.ofBool busy) w))))

/-- WERR written (10_state.md R27). -/
def setWerr (b : Bool) (w : Word) : Word := setField 3 (BitVec.ofBool b) w

/-- The error causes of 60_exceptions.md R171. NONE is the code 0, of no cause. -/
inductive Cause where
  | illegalCmd
  | invalidParam
  | quantOverflow
  | signedRange
  | nonfiniteCoef
  deriving DecidableEq, Repr

/-- The code STATUS.CAUSE holds (60_exceptions.md R171). -/
def causeCode : Cause → BitVec 3
  | .illegalCmd => 1#3
  | .invalidParam => 2#3
  | .quantOverflow => 3#3
  | .signedRange => 4#3
  | .nonfiniteCoef => 5#3

/-- The four diagnostic flags of one slot (10_state.md R30). -/
structure SlotFlags where
  neg : Bool
  rng : Bool
  ovf : Bool
  nf : Bool
  deriving DecidableEq, Repr

/-- nf ++ ovf ++ rng ++ neg (41_quantize.md R132). -/
def slotFlagBits (f : SlotFlags) : BitVec 4 :=
  BitVec.ofBool f.nf ++ BitVec.ofBool f.ovf ++ BitVec.ofBool f.rng ++ BitVec.ofBool f.neg

/-- R[QFLAGS][4i+3:4i] (10_state.md R30). -/
def getSlotFlags (i : Slot) (w : Word) : BitVec 4 := getField (4 * slotNum i) 4 w

/-- R[QFLAGS][4i+3:4i] <- flags (41_quantize.md R132). -/
def setSlotFlags (i : Slot) (f : SlotFlags) (w : Word) : Word := setField (4 * slotNum i) (slotFlagBits f) w

/-- The flags of all five slots written (41_quantize.md R133). -/
def setAllFlags (f : PerSlot SlotFlags) (w : Word) : Word :=
  setSlotFlags .a2 f.a2 (setSlotFlags .a1 f.a1 (setSlotFlags .b2 f.b2 (setSlotFlags .b1 f.b1 (setSlotFlags .b0 f.b0 w))))

/-- QFLAGS bits 31:20, reserved (10_state.md R30). -/
def qflagsReserved (w : Word) : BitVec 12 := getField 20 12 w

/-- STATUS.BUSY of a state. -/
def State.busy (s : State) : Bool := statusBusy s.status

end Sys2Proof.Machine
end

