-- ==== Sys2Proof/Machine/Ops.lean ====
section
/-! DEFINITION. The operations every command shares: the named updates of the state, acceptance (42_pipeline.md R151),
the two ways a command completes (R150, 60_exceptions.md R172) and the reset event (70_reset_and_hazards.md R190).

QPK takes no trap: raising CmdError is its whole error entry, and there is nothing to return from (60_exceptions.md
R170, R180). -/

namespace Sys2Proof.Machine

/-! Named updates, one for each field. -/

def State.withStatus (s : State) (w : Word) : State := { s with status := w }
def State.withQflags (s : State) (w : Word) : State := { s with qflags := w }
def State.withParams (s : State) (p : Params) : State := { s with params := p }
def State.withCoefs (s : State) (c : PerSlot Binary64) : State := { s with coefs := c }
def State.withCodes (s : State) (c : PerSlot Code) : State := { s with codes := c }
def State.withBytes (s : State) (b : PerSlot Packed) : State := { s with bytes := b }
def State.withPend (s : State) (p : Option Snapshot) : State := { s with pend := p }
def State.withHost (s : State) (h : HostAgent) : State := { s with host := h }
def State.withTurns (s : State) (t : List Turn) : State := { s with turns := t }

/-- Accept(w) of 42_pipeline.md R151: the snapshot of 10_state.md R36 is taken, the last report is cleared. -/
def accept (w : CmdWord) (s : State) : State :=
  (s.withPend (some ⟨w, s.params, s.coefs⟩)).withStatus (setReport true false false 0#3 0#3 s.status)

/-- "complete OK" of 42_pipeline.md R150. -/
def completeOk (s : State) : State :=
  (s.withPend none).withStatus (setReport false true false 0#3 0#3 s.status)

/-- raise CmdError(cause, index) of 60_exceptions.md R172. What the command wrote before stands. -/
def raiseCmdError (cause : Cause) (index : BitVec 3) (s : State) : State :=
  (s.withPend none).withStatus (setReport false true true (causeCode cause) index s.status)

/-- A completion step's work, from PEND alone (10_state.md R36). It is enabled only while a command is pending
(42_pipeline.md R150, log 9). -/
def withPending (s : State) (f : Snapshot → State) : Host.Outcome State Fault Refusal :=
  match s.pend with
  | none => .fault .noPendingCommand
  | some p => .next (f p)

/-- ILLEGAL of 42_pipeline.md R154. -/
def completeIllegal (s : State) : Host.Outcome State Fault Refusal :=
  withPending s fun _ => raiseCmdError .illegalCmd 0#3 s

/-- The reset event of 70_reset_and_hazards.md R190 and R191: every register to its reset value and PEND discarded.
The host and the turns are not QPK's and stay (log 17). -/
def resetEvent (s : State) : State := (State.reset.withHost s.host).withTurns s.turns

end Sys2Proof.Machine
end

