-- ==== Sys2Proof/Machine/Derive.lean ====
section
/-! DEFINITION. Coefficient derivation (40_derive.md) and the command DERIVE. -/

namespace Sys2Proof.Machine

/-- Pow(10.0, g / 40.0), the A of 40_derive.md R100. -/
def deriveA (m : MathFns) (p : Params) : Binary64 := m.pow Lit.ten (fdiv p.gain Lit.forty)

/-- ((2.0 * PI64) * f) / r, the omega of 40_derive.md R100. -/
def deriveOmega (p : Params) : Binary64 := fdiv (fmul (fmul Lit.two Config.pi64) p.freq) p.rate

/-- Sin(omega) / ((2.0 * A) * q), the alpha of 40_derive.md R100. -/
def deriveAlpha (m : MathFns) (p : Params) : Binary64 :=
  fdiv (m.sin (deriveOmega p)) (fmul (fmul Lit.two (deriveA m p)) p.q)

/-- Derive(g, f, r, q) of 40_derive.md R100, each operation in the order R102 gives it. -/
def derive (m : MathFns) (p : Params) : PerSlot Binary64 :=
  let a := deriveA m p
  let omega := deriveOmega p
  let alpha := deriveAlpha m p
  let a0 := fadd Lit.one (fdiv alpha a)
  let a1Raw := fmul Lit.negTwo (m.cos omega)
  let a2Raw := fsub Lit.one (fdiv alpha a)
  let b0Raw := fadd Lit.one (fmul alpha a)
  let b1Raw := fmul Lit.negTwo (m.cos omega)
  let b2Raw := fsub Lit.one (fmul alpha a)
  { b0 := fdiv b0Raw a0
    b1 := fdiv b1Raw a0
    b2 := fdiv b2Raw a0
    a1 := fdiv a1Raw a0
    a2 := fdiv a2Raw a0 }

/-- A frequency, rate or Q is valid when it is finite and > 0.0 (40_derive.md R107). -/
def finitePositive (x : Binary64) : Bool := isFinite x && fgt x Lit.zero

/-- FirstInvalidParam of 40_derive.md R107. -/
def firstInvalidParam (p : Params) : Option ParamName :=
  if !isFinite p.gain then some .gain
  else if !finitePositive p.freq then some .freq
  else if !finitePositive p.rate then some .rate
  else if !finitePositive p.q then some .q
  else none

/-- What DERIVE and DPACK do first: in strict mode the first invalid parameter ends the command before anything is
computed (40_derive.md R107, 60_exceptions.md R174). -/
def ifParamsValid (mode : Mode) (p : Params) (s : State) (work : State) : State :=
  match mode, firstInvalidParam p with
  | .strict, some bad => raiseCmdError .invalidParam (paramIndex bad) s
  | _, _ => work

/-- DERIVE (40_derive.md R108). -/
def execDerive (mode : Mode) (s : State) : Host.Outcome State Fault Refusal :=
  withPending s fun p =>
    ifParamsValid mode p.params s (completeOk (s.withCoefs (derive Config.mathFns p.params)))

end Sys2Proof.Machine
end

