-- ==== Sys2Proof/Machine/Quantize.lean ====
section
/-! DEFINITION. Quantization and the byte layouts (41_quantize.md), and the commands QUANT1 and QSET. -/

namespace Sys2Proof.Machine

/-- floor(|val(c)| * 2^20) of a finite c, exactly (41_quantize.md R120). The significand's last bit is worth
2^(scale - 1074), which is 2^(scale - 1054) steps of 2^-20. -/
def scaledMagnitude (c : Binary64) : Nat :=
  if 1054 ≤ scale c then significand c <<< (scale c - 1054) else significand c >>> (1054 - scale c)

/-- The s of 41_quantize.md R120 and R123: 0 for a NaN or an infinity. -/
def quantMagnitude (c : Binary64) : Nat := if isFinite c then scaledMagnitude c else 0

/-- raw of 41_quantize.md R121. -/
def quantRaw (c : Binary64) : Int :=
  if fgt c Lit.zero then (quantMagnitude c : Int) else 2 ^ 24 - (quantMagnitude c : Int)

/-- The code: raw mod 2^24 (41_quantize.md R122). -/
def quantCode (c : Binary64) : Code := BitVec.ofInt 24 (quantRaw c)

/-- rng of 41_quantize.md R127: outside the signed Q4.20 range. -/
def outOfSignedRange (c : Binary64) : Bool := fge c Lit.eight || fle c Lit.belowMinusEight

/-- The four flags of Quant (41_quantize.md R122, R127). -/
def quantFlags (c : Binary64) : SlotFlags where
  neg := !fgt c Lit.zero
  rng := outOfSignedRange c
  ovf := fge (fabs c) Lit.sixteen
  nf := !isFinite c

/-- QCause of 41_quantize.md R131: the first cause that applies. -/
def quantCause (c : Binary64) : Option Cause :=
  if !isFinite c then some .nonfiniteCoef
  else if fge (fabs c) Lit.sixteen then some .quantOverflow
  else if outOfSignedRange c then some .signedRange
  else none

/-- LayoutDirect of 41_quantize.md R124. -/
def layoutDirect (k : Code) : Packed where
  byte0 := k.extractLsb' 16 8
  byte1 := k.extractLsb' 8 8
  byte2 := k.extractLsb' 0 8

/-- LayoutNibble of 41_quantize.md R125, in which bits 19:16 appear nowhere (R126). -/
def layoutNibble (k : Code) : Packed where
  byte0 := 0#4 ++ k.extractLsb' 4 4
  byte1 := k.extractLsb' 0 4 ++ k.extractLsb' 12 4
  byte2 := k.extractLsb' 8 4 ++ k.extractLsb' 20 4

/-- The bytes of a code in the layout of the command (30_encoding.md R72). -/
def packCode : Layout → Code → Packed
  | .direct, k => layoutDirect k
  | .nibble, k => layoutNibble k

/-- The lowest slot whose coefficient fails the strict check, with its cause (41_quantize.md R133, 60_exceptions.md
R173). -/
def firstFailing (c : PerSlot Binary64) : Option (Slot × Cause) :=
  allSlots.findSome? fun i => (quantCause (c.get i)).map fun e => (i, e)

/-- QFLAGS of one slot written (10_state.md R30). -/
def writeFlags (i : Slot) (c : Binary64) (s : State) : State :=
  s.withQflags (setSlotFlags i (quantFlags c) s.qflags)

/-- QFLAGS of all five slots written. -/
def writeAllFlags (c : PerSlot Binary64) (s : State) : State :=
  s.withQflags (setAllFlags (c.map quantFlags) s.qflags)

/-- CODE(i) and the three BYTEs of slot i written (41_quantize.md R132). -/
def writePacked (layout : Layout) (i : Slot) (c : Binary64) (s : State) : State :=
  (s.withCodes (s.codes.set i (quantCode c))).withBytes (s.bytes.set i (packCode layout (quantCode c)))

/-- CODE and BYTE of all five slots written (41_quantize.md R133). -/
def writeAllPacked (layout : Layout) (c : PerSlot Binary64) (s : State) : State :=
  (s.withCodes (c.map quantCode)).withBytes (c.map fun x => packCode layout (quantCode x))

/-- The work of QUANT1 on a slot (41_quantize.md R132). -/
def quantizeSlot (i : Slot) (layout : Layout) (mode : Mode) (c : Binary64) (s : State) : State :=
  match mode, quantCause c with
  | .strict, some e => raiseCmdError e (slotIndex i) (writeFlags i c s)
  | _, _ => completeOk (writePacked layout i c (writeFlags i c s))

/-- The work of QSET on a coefficient set, which DPACK shares (41_quantize.md R133, 42_pipeline.md R152). `store` is
what the command writes besides, on success only. -/
def quantizeSet (layout : Layout) (mode : Mode) (c : PerSlot Binary64) (store : State → State) (s : State) : State :=
  match mode, firstFailing c with
  | .strict, some (i, e) => raiseCmdError e (slotIndex i) (writeAllFlags c s)
  | _, _ => completeOk (writeAllPacked layout c (store (writeAllFlags c s)))

/-- QUANT1 (41_quantize.md R132). A term whose SLOT names no slot is an illegal command (30_encoding.md R74, log 10). -/
def execQuant1 (slot : BitVec 3) (layout : Layout) (mode : Mode) (s : State) : Host.Outcome State Fault Refusal :=
  match slotOfField? slot with
  | none => completeIllegal s
  | some i => withPending s fun p => quantizeSlot i layout mode (p.coefs.get i) s

/-- QSET (41_quantize.md R133). -/
def execQset (layout : Layout) (mode : Mode) (s : State) : Host.Outcome State Fault Refusal :=
  withPending s fun p => quantizeSet layout mode p.coefs id s

end Sys2Proof.Machine
end

