-- ==== Sys2Proof/Machine/Pipeline.lean ====
section
/-! DEFINITION. The commands NOP and DPACK (42_pipeline.md). -/

namespace Sys2Proof.Machine

/-- NOP (42_pipeline.md R153). -/
def execNop (s : State) : Host.Outcome State Fault Refusal :=
  withPending s fun _ => completeOk s

/-- DPACK (42_pipeline.md R152). COEF is written only when the set is (60_exceptions.md R172). -/
def execDpack (layout : Layout) (mode : Mode) (s : State) : Host.Outcome State Fault Refusal :=
  withPending s fun p =>
    let c := derive Config.mathFns p.params
    ifParamsValid mode p.params s (quantizeSet layout mode c (State.withCoefs · c) s)

end Sys2Proof.Machine
end

