-- ==== Sys2Proof/Machine/Dispatch.lean ====
section
/-! DEFINITION. exec: one arm for each command, each a direct call of its meaning: the completion step of that
command (42_pipeline.md R150). -/

namespace Sys2Proof.Machine

def exec (i : Instr) (s : State) : Host.Outcome State Fault Refusal :=
  match i with
  | .nop => Sys2Proof.Machine.execNop s
  | .quant1 slot layout mode => Sys2Proof.Machine.execQuant1 slot layout mode s
  | .qset layout mode => Sys2Proof.Machine.execQset layout mode s
  | .derive mode => Sys2Proof.Machine.execDerive mode s
  | .dpack layout mode => Sys2Proof.Machine.execDpack layout mode s

end Sys2Proof.Machine
end

