-- ==== Sys2Proof/Machine/Bus.lean ====
section
/-! DEFINITION. The register index space and the host's accesses to it (20_memory.md R50 to R54). -/

namespace Sys2Proof.Machine

/-- The registers a host can name (20_memory.md R51). -/
inductive Reg where
  | cmd
  | status
  | qflags
  | param (p : ParamName)
  | coef (i : Slot)
  | code (i : Slot)
  | byte (i : Slot) (k : ByteNo)
  deriving DecidableEq, Repr

/-- The index of a register (20_memory.md R51, 10_state.md R34). -/
def Reg.index : Reg → RegIndex
  | .cmd => 0x00#8
  | .status => 0x01#8
  | .qflags => 0x02#8
  | .param p => BitVec.ofNat 8 (0x08 + paramNum p)
  | .coef i => BitVec.ofNat 8 (0x10 + slotNum i)
  | .code i => BitVec.ofNat 8 (0x18 + slotNum i)
  | .byte i k => BitVec.ofNat 8 (0x20 + 3 * slotNum i + byteNum k)

/-- The register map read the other way; none is an unmapped index (20_memory.md R51). -/
def regOfIndex? (idx : RegIndex) : Option Reg :=
  match idx.toNat with
  | 0x00 => some .cmd
  | 0x01 => some .status
  | 0x02 => some .qflags
  | 0x08 => some (.param .gain)
  | 0x09 => some (.param .freq)
  | 0x0A => some (.param .rate)
  | 0x0B => some (.param .q)
  | 0x10 => some (.coef .b0)
  | 0x11 => some (.coef .b1)
  | 0x12 => some (.coef .b2)
  | 0x13 => some (.coef .a1)
  | 0x14 => some (.coef .a2)
  | 0x18 => some (.code .b0)
  | 0x19 => some (.code .b1)
  | 0x1A => some (.code .b2)
  | 0x1B => some (.code .a1)
  | 0x1C => some (.code .a2)
  | 0x20 => some (.byte .b0 .first)
  | 0x21 => some (.byte .b0 .second)
  | 0x22 => some (.byte .b0 .third)
  | 0x23 => some (.byte .b1 .first)
  | 0x24 => some (.byte .b1 .second)
  | 0x25 => some (.byte .b1 .third)
  | 0x26 => some (.byte .b2 .first)
  | 0x27 => some (.byte .b2 .second)
  | 0x28 => some (.byte .b2 .third)
  | 0x29 => some (.byte .a1 .first)
  | 0x2A => some (.byte .a1 .second)
  | 0x2B => some (.byte .a1 .third)
  | 0x2C => some (.byte .a2 .first)
  | 0x2D => some (.byte .a2 .second)
  | 0x2E => some (.byte .a2 .third)
  | _ => none

/-- The current value of a register, zero-extended (20_memory.md R53). CMD reads as 0 (10_state.md R22). -/
def readReg (r : Reg) (s : State) : BusData :=
  match r with
  | .cmd => 0#64
  | .status => s.status.setWidth 64
  | .qflags => s.qflags.setWidth 64
  | .param p => s.params.get p
  | .coef i => s.coefs.get i
  | .code i => (s.codes.get i).setWidth 64
  | .byte i k => ((s.bytes.get i).get k).setWidth 64

/-- BusRead(idx) (20_memory.md R52, R53). -/
def busRead (idx : RegIndex) (s : State) : BusStatus × BusData :=
  match regOfIndex? idx with
  | none => (.busError, 0#64)
  | some r => (.ok, readReg r s)

/-- A write that is dropped while BUSY = 1, setting WERR (70_reset_and_hazards.md R195, R196). -/
def unlessBusy (s : State) (t : State) : State :=
  if s.busy then s.withStatus (setWerr true s.status) else t

/-- What a write of `d` to a register does (20_memory.md R54). -/
def writeReg (r : Reg) (d : BusData) (s : State) : State :=
  match r with
  | .cmd => unlessBusy s (accept (d.extractLsb' 0 32) s)
  | .status => if d.getLsbD 3 then s.withStatus (setWerr false s.status) else s
  | .param p => unlessBusy s (s.withParams (s.params.set p d))
  | .coef i => unlessBusy s (s.withCoefs (s.coefs.set i d))
  | .qflags => s
  | .code _ => s
  | .byte _ _ => s

/-- BusWrite(idx, d) (20_memory.md R52, R54). A bus error is a response, not a stop (log 8). -/
def busWrite (idx : RegIndex) (d : BusData) (s : State) : BusStatus × State :=
  match regOfIndex? idx with
  | none => (.busError, s)
  | some r => (.ok, writeReg r d s)

end Sys2Proof.Machine
end

