-- ==== Sys2Proof/Machine/HostSide.lean ====
section
/-! DEFINITION. The host: its instructions (30_encoding.md R82), executed one access at a time in program order
(20_memory.md R60). -/

namespace Sys2Proof.Machine

/-- The pseudo-instruction CMD (30_encoding.md R82). -/
def cmdInstr (i : Instr) : HostInstr := .wr Reg.cmd.index ((encode i).setWidth 64)

/-- The pseudo-instruction CLRWERR (30_encoding.md R82). -/
def clrWerrInstr : HostInstr := .wr Reg.status.index 0x8#64

/-- WR and RD on a register given by its name (30_encoding.md R82). -/
def wrReg (r : Reg) (d : BusData) : HostInstr := .wr r.index d
def rdReg (r : Reg) (name : String) : HostInstr := .rd r.index name

/-- `.word`: any word submitted as a command (30_encoding.md R81, R82). -/
def wordInstr (w : CmdWord) : HostInstr := .wr Reg.cmd.index (w.setWidth 64)

/-- The host with its first instruction executed and its response recorded. -/
def hostDone (rest : List HostInstr) (r : HostRecord) (s : State) : State :=
  s.withHost ⟨rest, s.host.log ++ [r]⟩

/-- The host executes an instruction, `rest` being what follows it. WAIT reads STATUS once and stays while it finds
BUSY = 1 (30_encoding.md R82); its reads are not recorded (log 11). -/
def hostExec (i : HostInstr) (rest : List HostInstr) (s : State) : State :=
  match i with
  | .wr idx d => hostDone rest ⟨i, (busWrite idx d s).1, 0#64⟩ (busWrite idx d s).2
  | .rd idx _ => hostDone rest ⟨i, (busRead idx s).1, (busRead idx s).2⟩ s
  | .wait => if (busRead Reg.status.index s).2.getLsbD 0 then s else s.withHost ⟨rest, s.host.log⟩

/-- A turn of the host. With nothing left to execute it makes no access (70_reset_and_hazards.md R201). -/
def hostTurn (s : State) : State :=
  match s.host.program with
  | [] => s
  | i :: rest => hostExec i rest s

end Sys2Proof.Machine
end

