-- ==== Sys2Proof/Machine/Step.lean ====
section
/-! DEFINITION. One step of the machine: one turn of one agent, in the total order of 20_memory.md R60 and R61. -/

namespace Sys2Proof.Machine

/-- The completion of the pending word: what it decodes to, executed (42_pipeline.md R150, R154). -/
def runPending (p : Snapshot) (s : State) : Host.Outcome State Fault Refusal :=
  match decode p.word with
  | .command i => exec i s
  | .illegal _ => completeIllegal s

/-- A turn of the engine: the completion step while BUSY = 1, no step else (42_pipeline.md R150). -/
def engineTurn (s : State) : Host.Outcome State Fault Refusal :=
  if s.busy then
    match s.pend with
    | none => .fault .noPendingCommand
    | some p => runPending p s
  else .next s

/-- One step. The first of the turns to come is used up; when none is left, the engine completes what is pending (weak
fairness, 42_pipeline.md R150), and otherwise the host moves (log 2). -/
def step (s : State) : Host.Outcome State Fault Refusal :=
  match s.turns with
  | [] => if s.busy then engineTurn s else .next (hostTurn s)
  | .host :: rest => .next (hostTurn (s.withTurns rest))
  | .engine :: rest => engineTurn (s.withTurns rest)
  | .wait :: rest => .next (s.withTurns rest)
  | .reset :: rest => .next (resetEvent (s.withTurns rest))

/-- The state in which the very next step runs the word `w`: it has been accepted, and the turn is the engine's. Where
no turns are fixed, the engine moves already (log 3). -/
def State.withFetchWord (s : State) (nbits w : Nat) : State :=
  (accept (BitVec.ofNat 32 (w % 2 ^ nbits)) s).withTurns (if s.turns = [] then [] else .engine :: s.turns)

end Sys2Proof.Machine
end

