-- ==== Sys2Proof/Machine/Serialize.lean ====
section
/-! DEFINITION. The host-side functions over the fifteen bytes (43_serialize.md): text renderings, the joining of bands,
the inverse layouts, and the value a code denotes. Text is a list of ASCII characters (R162, log 19). -/

namespace Sys2Proof.Machine

/-- The bytes in wire order (20_memory.md R58). -/
def wireBytes (y : PerSlot Packed) : List Byte :=
  y.toList.flatMap fun p => [p.byte0, p.byte1, p.byte2]

/-- DIGIT = "0123456789ABCDEF" (43_serialize.md R160), of a digit 0 to 15. -/
def hexDigit (n : Nat) : Char := if n < 10 then Char.ofNat (0x30 + n) else Char.ofNat (0x37 + n)

/-- hex2 of 43_serialize.md R160. -/
def hex2 (b : Byte) : List Char :=
  [hexDigit (b.extractLsb' 4 4).toNat, hexDigit (b.extractLsb' 0 4).toNat]

/-- The shortest decimal numeral of a byte (43_serialize.md R161). -/
def decByte (b : Byte) : List Char :=
  let n := b.toNat
  if n < 10 then [hexDigit n]
  else if n < 100 then [hexDigit (n / 10), hexDigit (n % 10)]
  else [hexDigit (n / 100), hexDigit (n / 10 % 10), hexDigit (n % 10)]

/-- Tokens with one space between each two. -/
def joinSpace : List (List Char) → List Char
  | [] => []
  | [t] => t
  | t :: u :: ts => t ++ ' ' :: joinSpace (u :: ts)

/-- ToHex of 43_serialize.md R160. -/
def toHex (y : PerSlot Packed) : List Char := joinSpace ((wireBytes y).map hex2)

/-- ToDecimal of 43_serialize.md R161. -/
def toDecimal (y : PerSlot Packed) : List Char := joinSpace ((wireBytes y).map decByte)

/-- The text of several bands, each rendered on its own (43_serialize.md R164). -/
def bandsText (render : PerSlot Packed → List Char) (bands : List (PerSlot Packed)) : List Char :=
  joinSpace (bands.map render)

/-- UnpackDirect of 43_serialize.md R165. -/
def unpackDirect (p : Packed) : Code := p.byte0 ++ p.byte1 ++ p.byte2

/-- UnpackNibble of 43_serialize.md R166. -/
def unpackNibble (p : Packed) : Code :=
  p.byte2.extractLsb' 0 4 ++ 0#4 ++ p.byte1.extractLsb' 0 4 ++ p.byte2.extractLsb' 4 4 ++ p.byte0.extractLsb' 0 4
    ++ p.byte1.extractLsb' 4 4

/-- fixval(k) = sext_24(k) / 2^20 (00_scope.md R11). -/
def fixval (k : Code) : Rat := (k.toInt : Rat) / 2 ^ 20

end Sys2Proof.Machine
end

