-- ==== Sys2Proof/Machine/Asm.lean ====
section
/-! DEFINITION. The assembler syntax of commands (30_encoding.md R81), in both directions. -/

namespace Sys2Proof.Machine

/-- The suffix of a layout, written out. -/
def layoutSuffix : Layout → List Char
  | .direct => ".direct".toList
  | .nibble => ".nibble".toList

/-- The suffix of a mode, written out. -/
def modeSuffix : Mode → List Char
  | .reference => ".ref".toList
  | .strict => ".strict".toList

/-- The name of a slot (30_encoding.md R81). -/
def slotName : Slot → List Char
  | .b0 => "b0".toList
  | .b1 => "b1".toList
  | .b2 => "b2".toList
  | .a1 => "a1".toList
  | .a2 => "a2".toList

/-- `.word 0x<8 hex digits>` (30_encoding.md R81). -/
def wordText (w : CmdWord) : List Char :=
  ".word 0x".toList ++ hex2 (w.extractLsb' 24 8) ++ hex2 (w.extractLsb' 16 8) ++ hex2 (w.extractLsb' 8 8)
    ++ hex2 (w.extractLsb' 0 8)

/-- The text of a command with every suffix written. An ill-formed QUANT1 has no mnemonic and is written as its word. -/
def asmText : Instr → List Char
  | .nop => "NOP".toList
  | .quant1 slot layout mode =>
    match slotOfField? slot with
    | none => wordText (encode (.quant1 slot layout mode))
    | some i => "QUANT1".toList ++ layoutSuffix layout ++ modeSuffix mode ++ ' ' :: slotName i
  | .qset layout mode => "QSET".toList ++ layoutSuffix layout ++ modeSuffix mode
  | .derive mode => "DERIVE".toList ++ modeSuffix mode
  | .dpack layout mode => "DPACK".toList ++ layoutSuffix layout ++ modeSuffix mode

/-- What follows a given beginning. -/
def dropPrefix? : List Char → List Char → Option (List Char)
  | [], rest => some rest
  | _ :: _, [] => none
  | c :: cs, d :: ds => if c = d then dropPrefix? cs ds else none

/-- An optional layout suffix; an absent one is `.direct` (30_encoding.md R81). -/
def parseLayout (t : List Char) : Layout × List Char :=
  match dropPrefix? (layoutSuffix .direct) t with
  | some rest => (.direct, rest)
  | none =>
    match dropPrefix? (layoutSuffix .nibble) t with
    | some rest => (.nibble, rest)
    | none => (.direct, t)

/-- An optional mode suffix; an absent one is `.ref` (30_encoding.md R81). -/
def parseMode (t : List Char) : Mode × List Char :=
  match dropPrefix? (modeSuffix .reference) t with
  | some rest => (.reference, rest)
  | none =>
    match dropPrefix? (modeSuffix .strict) t with
    | some rest => (.strict, rest)
    | none => (.reference, t)

/-- A slot as one decimal digit or by its name (30_encoding.md R81, log 15). -/
def parseSlot (t : List Char) : Option Slot :=
  allSlots.find? fun i => t == slotName i || t == [hexDigit (slotNum i)]

/-- The command a mnemonic's operands give, none where the text is no command of R81. -/
def parseOperands (mnemonic : List Char) (t : List Char) : Option Instr :=
  if mnemonic = "NOP".toList then
    if t = [] then some .nop else none
  else if mnemonic = "QUANT1".toList then
    match (parseMode (parseLayout t).2).2 with
    | ' ' :: rest =>
      (parseSlot rest).map fun i =>
        .quant1 (slotIndex i) (parseLayout t).1 (parseMode (parseLayout t).2).1
    | _ => none
  else if mnemonic = "QSET".toList then
    if (parseMode (parseLayout t).2).2 = [] then some (.qset (parseLayout t).1 (parseMode (parseLayout t).2).1) else none
  else if mnemonic = "DERIVE".toList then
    if (parseMode t).2 = [] then some (.derive (parseMode t).1) else none
  else if mnemonic = "DPACK".toList then
    if (parseMode (parseLayout t).2).2 = [] then some (.dpack (parseLayout t).1 (parseMode (parseLayout t).2).1) else none
  else none

/-- The command a line of 30_encoding.md R81 writes. -/
def assemble (t : List Char) : Option Instr :=
  ["NOP".toList, "QUANT1".toList, "QSET".toList, "DERIVE".toList, "DPACK".toList].findSome? fun m =>
    (dropPrefix? m t).bind (parseOperands m)

/-- The value of a hexadecimal digit. -/
def hexValue? (c : Char) : Option Nat :=
  if '0' ≤ c ∧ c ≤ '9' then some (c.toNat - 0x30)
  else if 'A' ≤ c ∧ c ≤ 'F' then some (c.toNat - 0x37)
  else if 'a' ≤ c ∧ c ≤ 'f' then some (c.toNat - 0x57)
  else none

/-- The number written by exactly `n` hexadecimal digits, after `acc`. -/
def parseHex : Nat → Nat → List Char → Option Nat
  | 0, acc, [] => some acc
  | n + 1, acc, c :: cs => (hexValue? c).bind fun d => parseHex n (16 * acc + d) cs
  | _, _, _ => none

/-- The word a line of 30_encoding.md R81 writes: a command's, or the one after `.word`. -/
def assembleWord (t : List Char) : Option CmdWord :=
  match assemble t with
  | some i => some (encode i)
  | none => ((dropPrefix? ".word 0x".toList t).bind (parseHex 8 0)).map (BitVec.ofNat 32)

/-- The line of a word: the command it decodes to, or `.word` for an illegal one (30_encoding.md R81). -/
def wordLine (w : CmdWord) : List Char :=
  match decode w with
  | .command i => asmText i
  | .illegal _ => wordText w

end Sys2Proof.Machine
end

