-- ==== Sys2Proof/Safety.lean ====
section
/-! DEFINITION. What a state of QPK always satisfies, in the terms the statements use, and what a safe run is. -/

namespace Sys2Proof.Safety

open Sys2Proof.Machine

/-- 10_state.md R35: the reserved bits of STATUS and QFLAGS read as 0. -/
abbrev ReservedZero (s : State) : Prop := statusReserved s.status = 0#22 ∧ qflagsReserved s.qflags = 0#12

/-- 10_state.md R36: PEND exists only while BUSY = 1, and then it equals the live registers. -/
abbrev PendAgrees (s : State) : Prop :=
  s.pend.isSome = s.busy ∧ ∀ p ∈ s.pend, p.params = s.params ∧ p.coefs = s.coefs

/-- 10_state.md R24 to R29, 60_exceptions.md R171: while BUSY = 1 the report is clear; without an error, or before a
completion, CAUSE and INDEX are 0; with one, CAUSE is a code of R171 and INDEX is in its range. -/
abbrev ReportAgrees (s : State) : Prop :=
  (statusBusy s.status = true → statusDone s.status = false) ∧
  (statusDone s.status = false → statusErr s.status = false) ∧
  (statusErr s.status = false → statusCause s.status = 0#3 ∧ statusIndex s.status = 0#3) ∧
  (statusErr s.status = true →
    (statusCause s.status = 1#3 ∧ statusIndex s.status = 0#3) ∨
    (statusCause s.status = 2#3 ∧ (statusIndex s.status).toNat ≤ 3) ∨
    ((statusCause s.status = 3#3 ∨ statusCause s.status = 4#3 ∨ statusCause s.status = 5#3) ∧
      (statusIndex s.status).toNat ≤ 4))

/-- The nine combinations of flags Quant can give (41_quantize.md R127): with or without NEG nothing, RNG, RNG and OVF, or
all of them (an infinity); and NEG and NF (a NaN). -/
def flagsPossible (f : BitVec 4) : Bool :=
  f == 0b0000#4 || f == 0b0001#4 || f == 0b0010#4 || f == 0b0011#4 || f == 0b0110#4 || f == 0b0111#4 ||
  f == 0b1110#4 || f == 0b1111#4 || f == 0b1001#4

/-- 10_state.md R30: the flags of every slot are a combination Quant gives. -/
abbrev FlagsAgree (s : State) : Prop :=
  flagsPossible (getSlotFlags .b0 s.qflags) = true ∧ flagsPossible (getSlotFlags .b1 s.qflags) = true ∧
  flagsPossible (getSlotFlags .b2 s.qflags) = true ∧ flagsPossible (getSlotFlags .a1 s.qflags) = true ∧
  flagsPossible (getSlotFlags .a2 s.qflags) = true

/-- 10_state.md R34: the bytes of a slot are its code in one of the two layouts. -/
abbrev slotPacked (k : Code) (p : Packed) : Prop := p = layoutDirect k ∨ p = layoutNibble k

abbrev BytesAgree (s : State) : Prop :=
  slotPacked s.codes.b0 s.bytes.b0 ∧ slotPacked s.codes.b1 s.bytes.b1 ∧ slotPacked s.codes.b2 s.bytes.b2 ∧
  slotPacked s.codes.a1 s.bytes.a1 ∧ slotPacked s.codes.a2 s.bytes.a2

/-- The invariant of QPK. -/
structure Inv (s : State) : Prop where
  reserved : ReservedZero s
  pend : PendAgrees s
  report : ReportAgrees s
  flags : FlagsAgree s
  bytes : BytesAgree s

/-! What a command leaves behind. -/

/-- "complete OK" (42_pipeline.md R150): the report, WERR and the reserved bits as they were, PEND discarded. -/
structure FinishedOk (s t : State) : Prop where
  busy : statusBusy t.status = false
  done : statusDone t.status = true
  err : statusErr t.status = false
  cause : statusCause t.status = 0#3
  index : statusIndex t.status = 0#3
  werr : statusWerr t.status = statusWerr s.status
  reserved : statusReserved t.status = statusReserved s.status
  pend : t.pend = none

/-- "raise CmdError(cause, index)" (60_exceptions.md R172). -/
structure FinishedErr (c x : BitVec 3) (s t : State) : Prop where
  busy : statusBusy t.status = false
  done : statusDone t.status = true
  err : statusErr t.status = true
  cause : statusCause t.status = c
  index : statusIndex t.status = x
  werr : statusWerr t.status = statusWerr s.status
  reserved : statusReserved t.status = statusReserved s.status
  pend : t.pend = none

/-- No parameter, and nothing outside QPK, has changed. -/
structure SameSurroundings (s t : State) : Prop where
  params : t.params = s.params
  host : t.host = s.host
  turns : t.turns = s.turns

/-- No coefficient, code or byte has changed. -/
structure SameData (s t : State) : Prop where
  coefs : t.coefs = s.coefs
  codes : t.codes = s.codes
  bytes : t.bytes = s.bytes

/-- Of everything, only WERR may have changed, and it is `b` now (10_state.md R27). -/
structure OnlyWerr (b : Bool) (s t : State) : Prop where
  rest : t = s.withStatus t.status
  werr : statusWerr t.status = b
  busy : statusBusy t.status = statusBusy s.status
  done : statusDone t.status = statusDone s.status
  err : statusErr t.status = statusErr s.status
  cause : statusCause t.status = statusCause s.status
  index : statusIndex t.status = statusIndex s.status
  reserved : statusReserved t.status = statusReserved s.status

/-- The index names no register (20_memory.md R51, the last sentence). -/
abbrev Unmapped (idx : RegIndex) : Prop :=
  (0x03 ≤ idx.toNat ∧ idx.toNat ≤ 0x07) ∨ (0x0C ≤ idx.toNat ∧ idx.toNat ≤ 0x0F) ∨
  (0x15 ≤ idx.toNat ∧ idx.toNat ≤ 0x17) ∨ (0x1D ≤ idx.toNat ∧ idx.toNat ≤ 0x1F) ∨ 0x2F ≤ idx.toNat

/-! Who moves in the next step (Machine/Step.lean, log 2). -/

abbrev HostMoves (s : State) : Prop := s.turns.head? = some .host ∨ (s.turns = [] ∧ s.busy = false)

abbrev EngineMoves (s : State) : Prop := s.turns.head? = some .engine ∨ (s.turns = [] ∧ s.busy = true)

abbrev ResetMoves (s : State) : Prop := s.turns.head? = some .reset

/-- The state with the turn that is being taken used up. -/
abbrev turnTaken (s : State) : State := s.withTurns s.turns.tail

/-- A step is safe when it answers a next state. -/
abbrev StepSafe (s : State) : Prop := ∃ t, step s = .next t

end Sys2Proof.Safety
end

