-- ==== Sys2Proof/Certificates/Slice0/Obligations.lean ====
section
/-! DEFINITION. The statements about QPK, one for each entry of OBLIGATIONS.json. Where a statement rests on a choice of
the model, its text says so and names the log entry. -/

open Sys2Proof Sys2Proof.Machine Sys2Proof.Safety

/-! Reset and the host's accesses. -/

/-- 10_state.md R39. -/
def Obligations.ResetStateHoldsTheResetValues : Prop :=
  State.reset.status = 0x00000000#32 ∧ State.reset.qflags = 0x00000000#32 ∧
  (∀ p, State.reset.params.get p = 0x0000000000000000#64) ∧
  (∀ i, State.reset.coefs.get i = 0x0000000000000000#64) ∧
  (∀ i, State.reset.codes.get i = 0x000000#24) ∧
  (∀ i k, (State.reset.bytes.get i).get k = 0x00#8) ∧
  State.reset.pend = none ∧ busRead 0x00#8 State.reset = (.ok, 0#64)

/-- 70_reset_and_hazards.md R190, R191: in any state, with a command pending or not, when the next event is a reset.
No access of the host is recorded in that step, and its next one sees the reset state. -/
def Obligations.ResetEventClearsEveryRegisterAndAbandonsTheCommand : Prop :=
  ∀ s : State, ResetMoves s → ∃ t, step s = .next t ∧ t.status = State.reset.status ∧
    t.qflags = State.reset.qflags ∧ t.params = State.reset.params ∧ t.coefs = State.reset.coefs ∧
    t.codes = State.reset.codes ∧ t.bytes = State.reset.bytes ∧ t.pend = none ∧ statusBusy t.status = false ∧
    statusDone t.status = false ∧ statusErr t.status = false ∧ t.host.log = s.host.log ∧
    ∀ idx, busRead idx t = busRead idx State.reset

/-- The index column of the register map (20_memory.md R51), both ways, with the numbers of the slots (10_state.md R32),
of the bytes of a slot (R34) and of the parameters (R29). -/
def Obligations.RegisterMapIsOneToOne : Prop :=
  (∀ idx r, regOfIndex? idx = some r ↔ r.index = idx) ∧
  (∀ idx, regOfIndex? idx = none ↔ Unmapped idx) ∧
  (slotNum .b0 = 0 ∧ slotNum .b1 = 1 ∧ slotNum .b2 = 2 ∧ slotNum .a1 = 3 ∧ slotNum .a2 = 4) ∧
  (byteNum .first = 0 ∧ byteNum .second = 1 ∧ byteNum .third = 2) ∧
  (paramNum .gain = 0 ∧ paramNum .freq = 1 ∧ paramNum .rate = 2 ∧ paramNum .q = 3) ∧
  Reg.cmd.index = 0x00#8 ∧ Reg.status.index = 0x01#8 ∧ Reg.qflags.index = 0x02#8 ∧
  (∀ p, (Reg.param p).index.toNat = 0x08 + paramNum p) ∧
  (∀ i, (Reg.coef i).index.toNat = 0x10 + slotNum i) ∧
  (∀ i, (Reg.code i).index.toNat = 0x18 + slotNum i) ∧
  (∀ i k, (Reg.byte i k).index.toNat = 0x20 + (3 * slotNum i + byteNum k))

/-- 20_memory.md R52: the response is an error result of the host's access, and nothing in QPK changes. What the host
does with the response is in HostInstructionsAccessTheBusOnce. -/
def Obligations.UnmappedAccessIsABusErrorAndChangesNothing : Prop :=
  ∀ (idx : RegIndex) (d : BusData) (s : State) (rest : List HostInstr) (name : String), Unmapped idx →
    busRead idx s = (.busError, 0#64) ∧ busWrite idx d s = (.busError, s) ∧
    (∃ h, hostExec (.rd idx name) rest s = s.withHost h) ∧ ∃ h, hostExec (.wr idx d) rest s = s.withHost h

/-- 20_memory.md R53, with 10_state.md R35 for the reserved bits, R23 for the fields of the STATUS word read and R30 for
those of the QFLAGS word read. A host read changes nothing of QPK. From acceptance on, and in every step that leaves the
command in progress, the results read as before it. -/
def Obligations.BusReadReturnsTheRegisterZeroExtended : Prop :=
  ∀ (s : State),
    (∀ idx, Unmapped idx → busRead idx s = (.busError, 0#64)) ∧
    busRead 0x00#8 s = (.ok, 0#64) ∧
    busRead 0x01#8 s = (.ok, s.status.setWidth 64) ∧
    busRead 0x02#8 s = (.ok, s.qflags.setWidth 64) ∧
    (∀ p, busRead (BitVec.ofNat 8 (0x08 + paramNum p)) s = (.ok, s.params.get p)) ∧
    (∀ i, busRead (BitVec.ofNat 8 (0x10 + slotNum i)) s = (.ok, s.coefs.get i)) ∧
    (∀ i, busRead (BitVec.ofNat 8 (0x18 + slotNum i)) s = (.ok, (s.codes.get i).setWidth 64)) ∧
    (∀ i k, busRead (BitVec.ofNat 8 (0x20 + (3 * slotNum i + byteNum k))) s =
      (.ok, ((s.bytes.get i).get k).setWidth 64)) ∧
    (ReservedZero s → ∀ b, b = 7 ∨ 11 ≤ b → (busRead 0x01#8 s).2.getLsbD b = false) ∧
    (ReservedZero s → ∀ b, 20 ≤ b → (busRead 0x02#8 s).2.getLsbD b = false) ∧
    ((busRead 0x01#8 s).2.getLsbD 0 = statusBusy s.status ∧ (busRead 0x01#8 s).2.getLsbD 1 = statusDone s.status ∧
      (busRead 0x01#8 s).2.getLsbD 2 = statusErr s.status ∧ (busRead 0x01#8 s).2.getLsbD 3 = statusWerr s.status ∧
      (busRead 0x01#8 s).2.extractLsb' 4 3 = statusCause s.status ∧
      (busRead 0x01#8 s).2.extractLsb' 8 3 = statusIndex s.status) ∧
    (∀ i, (busRead 0x02#8 s).2.extractLsb' (4 * slotNum i) 4 = getSlotFlags i s.qflags) ∧
    (∀ f : SlotFlags, (slotFlagBits f).getLsbD 0 = f.neg ∧ (slotFlagBits f).getLsbD 1 = f.rng ∧
      (slotFlagBits f).getLsbD 2 = f.ovf ∧ (slotFlagBits f).getLsbD 3 = f.nf) ∧
    (∀ idx name rest, ∃ h, hostExec (.rd idx name) rest s = s.withHost h) ∧
    (∀ (w : CmdWord) (t : State) (r : Reg), r = .qflags ∨ (∃ i, r = .code i) ∨ (∃ i k, r = .byte i k) →
      busRead r.index (accept w s) = busRead r.index s ∧
      (s.busy = true → step s = .next t → t.busy = true → busRead r.index t = busRead r.index s))

/-- 20_memory.md R54, 70_reset_and_hazards.md R195 and R196. Acceptance itself is the next statement. -/
def Obligations.BusWriteStoresDropsOrIgnores : Prop :=
  ∀ (s : State) (d : BusData),
    (∀ idx, Unmapped idx → busWrite idx d s = (.busError, s)) ∧
    (s.busy = false → busWrite 0x00#8 d s = (.ok, accept (d.extractLsb' 0 32) s)) ∧
    (∀ r : Reg, r = .cmd ∨ (∃ p, r = .param p) ∨ (∃ i, r = .coef i) → s.busy = true →
      ∃ t, busWrite r.index d s = (.ok, t) ∧ OnlyWerr true s t) ∧
    (d.getLsbD 3 = true → ∃ t, busWrite 0x01#8 d s = (.ok, t) ∧ OnlyWerr false s t) ∧
    (d.getLsbD 3 = false → busWrite 0x01#8 d s = (.ok, s)) ∧
    (∀ p, s.busy = false → ∃ t, busWrite (Reg.param p).index d s = (.ok, t) ∧
      t = s.withParams t.params ∧ t.params.get p = d ∧ ∀ n, n ≠ p → t.params.get n = s.params.get n) ∧
    (∀ i, s.busy = false → ∃ t, busWrite (Reg.coef i).index d s = (.ok, t) ∧
      t = s.withCoefs t.coefs ∧ t.coefs.get i = d ∧ ∀ j, j ≠ i → t.coefs.get j = s.coefs.get j) ∧
    (∀ r : Reg, r = .qflags ∨ (∃ i, r = .code i) ∨ (∃ i k, r = .byte i k) → busWrite r.index d s = (.ok, s))

/-- 42_pipeline.md R151: every word is accepted while idle, none while busy. PEND keeps the word, whose decoding is
what the completion runs (log 4). -/
def Obligations.AcceptanceTakesTheSnapshotAndClearsTheReport : Prop :=
  ∀ (s : State) (d : BusData),
    (s.busy = false → ∃ t p, busWrite 0x00#8 d s = (.ok, t) ∧ t.pend = some p ∧
      decode p.word = decode (d.extractLsb' 0 32) ∧ p.params = s.params ∧ p.coefs = s.coefs ∧
      statusBusy t.status = true ∧ statusDone t.status = false ∧ statusErr t.status = false ∧
      statusCause t.status = 0#3 ∧ statusIndex t.status = 0#3 ∧ statusWerr t.status = statusWerr s.status ∧
      statusReserved t.status = statusReserved s.status ∧ t.qflags = s.qflags ∧ SameData s t ∧
      SameSurroundings s t) ∧
    (s.busy = true → (busWrite 0x00#8 d s).2.pend = s.pend)

/-! Encoding. -/

/-- A word decodes to a command exactly when it is the encoding of that well-formed command: no bit of an operand is
dropped, and each legal word has one meaning. -/
def Obligations.DecodingInvertsEncoding : Prop :=
  ∀ (w : CmdWord) (i : Instr), decode w = .command i ↔ i.WellFormed ∧ encode i = w

/-- 30_encoding.md R77: the match and mask of each row, and the fields of the command selected. Acceptance keeps a word
that decodes as the written one does (log 4). -/
def Obligations.DecodingSelectsTheMatchAndMaskRow : Prop :=
  ∀ (w : CmdWord),
    (∀ s, s.busy = false → ∃ p, (busWrite 0x00#8 (w.setWidth 64) s).2.pend = some p ∧ decode p.word = decode w) ∧
    (decode w = .command .nop ↔ w &&& 0xFFFFFFFF#32 = 0x00000000#32) ∧
    (∀ slot l m, decode w = .command (.quant1 slot l m) ↔ w &&& 0xFFFFFF07#32 = 0x00000001#32 ∧
      w.extractLsb' 5 3 = slot ∧ slot.toNat ≤ 4 ∧ (w.getLsbD 3 = true ↔ l = .nibble) ∧
      (w.getLsbD 4 = true ↔ m = .strict)) ∧
    (∀ l m, decode w = .command (.qset l m) ↔ w &&& 0xFFFFFFE7#32 = 0x00000002#32 ∧
      (w.getLsbD 3 = true ↔ l = .nibble) ∧ (w.getLsbD 4 = true ↔ m = .strict)) ∧
    (∀ m, decode w = .command (.derive m) ↔ w &&& 0xFFFFFFEF#32 = 0x00000003#32 ∧
      (w.getLsbD 4 = true ↔ m = .strict)) ∧
    (∀ l m, decode w = .command (.dpack l m) ↔ w &&& 0xFFFFFFE7#32 = 0x00000004#32 ∧
      (w.getLsbD 3 = true ↔ l = .nibble) ∧ (w.getLsbD 4 = true ↔ m = .strict))

/-- 30_encoding.md R78, 42_pipeline.md R154: exactly the listed words are illegal; each is accepted, and completes with
ILLEGAL_CMD, changing no register other than STATUS. -/
def Obligations.IllegalWordsCompleteWithIllegalCmdOnly : Prop :=
  ∀ (w : CmdWord),
    ((∃ why, decode w = .illegal why) ↔
      w.extractLsb' 8 24 ≠ 0#24 ∨ 5 ≤ (w.extractLsb' 0 3).toNat ∨
      ((w.extractLsb' 0 3).toNat = 1 ∧ 5 ≤ (w.extractLsb' 5 3).toNat) ∨
      ((w.extractLsb' 0 3).toNat = 0 ∧ w.extractLsb' 3 5 ≠ 0#5) ∨
      (((w.extractLsb' 0 3).toNat = 2 ∨ (w.extractLsb' 0 3).toNat = 4) ∧ w.extractLsb' 5 3 ≠ 0#3) ∨
      ((w.extractLsb' 0 3).toNat = 3 ∧ (w.extractLsb' 5 3 ≠ 0#3 ∨ w.getLsbD 3 = true))) ∧
    (∀ why, decode w = .illegal why →
      (∀ s, s.busy = false → (busWrite 0x00#8 (w.setWidth 64) s).2.busy = true) ∧
      (∀ s p, s.pend = some p → p.word = w → ∃ t, runPending p s = .next t ∧ FinishedErr 1#3 0#3 s t ∧
        t.qflags = s.qflags ∧ SameData s t ∧ SameSurroundings s t))

/-- 30_encoding.md R75. -/
def Obligations.ReservedWordBitsAreIllegalAndHighBusBitsIgnored : Prop :=
  (∀ w : CmdWord, (∃ b, 8 ≤ b ∧ w.getLsbD b = true) → ∃ why, decode w = .illegal why) ∧
  (∀ (s : State) (d d' : BusData), (∀ b, b < 32 → d.getLsbD b = d'.getLsbD b) →
    busWrite 0x00#8 d s = busWrite 0x00#8 d' s)

/-- Words written out from 30_encoding.md R70 and R71. -/
def Obligations.SampleWordsDecode : Prop :=
  decode 0x00000000#32 = .command .nop ∧
  decode 0x00000069#32 = .command (.quant1 3#3 .nibble .reference) ∧
  decode 0x00000081#32 = .command (.quant1 4#3 .direct .reference) ∧
  decode 0x0000001A#32 = .command (.qset .nibble .strict) ∧
  decode 0x00000013#32 = .command (.derive .strict) ∧
  decode 0x0000001C#32 = .command (.dpack .nibble .strict) ∧
  decode 0x000000A1#32 = .illegal .slotOutOfRange ∧
  decode 0x00000102#32 = .illegal .reservedBits

/-- The assembler line of any word assembles to that word (30_encoding.md R81; the accepted spellings are log 15). -/
def Obligations.AssemblingAWordsLineGivesTheWord : Prop :=
  ∀ w : CmdWord, assembleWord (wordLine w) = some w

/-! The step. -/

/-- When the engine moves while a command is pending, the step is exec of the command its word decodes to, with the turn
used up, or the error of an illegal word; and so is the step after a word is placed (log 2, 3). -/
def Obligations.StepRunsTheDecodedCommand : Prop :=
  (∀ (s : State) (p : Snapshot) (i : Instr), EngineMoves s → s.busy = true → s.pend = some p →
    decode p.word = .command i → step s = exec i (turnTaken s)) ∧
  (∀ (s : State) (p : Snapshot) (why : IllegalReason), EngineMoves s → s.busy = true → s.pend = some p →
    decode p.word = .illegal why → step s = .next (raiseCmdError .illegalCmd 0#3 (turnTaken s))) ∧
  (∀ (s : State) (w : Nat) (i : Instr), decode (BitVec.ofNat 32 w) = .command i →
    step (s.withFetchWord 32 w) = exec i ((accept (BitVec.ofNat 32 w) s).withTurns s.turns))

/-- A turn is used up by the agent it belongs to (log 2): a waiting engine step changes nothing, nor does the engine
while idle (42_pipeline.md R150); the host executes one instruction; a reset is the reset event, which leaves the host
and the turns (log 17). With no turn left and nothing pending, the host moves. -/
def Obligations.EachTurnIsItsAgentsMove : Prop :=
  ∀ (s : State),
    (s.turns.head? = some .wait → step s = .next (turnTaken s)) ∧
    (s.turns.head? = some .engine → s.busy = false → step s = .next (turnTaken s)) ∧
    (ResetMoves s → step s = .next (resetEvent (turnTaken s))) ∧
    (resetEvent s).host = s.host ∧ (resetEvent s).turns = s.turns ∧
    (HostMoves s → s.host.program = [] → step s = .next (turnTaken s)) ∧
    (∀ i rest, HostMoves s → s.host.program = i :: rest → step s = .next (hostExec i rest (turnTaken s)))

/-- The host's instructions (30_encoding.md R82): RD and WR record the bus's response and go on, after a bus error too
(log 8, 11); WAIT stays while it reads BUSY = 1 and records nothing (log 11). -/
def Obligations.HostInstructionsAccessTheBusOnce : Prop :=
  ∀ (s : State) (rest : List HostInstr),
    (∀ idx name, ∃ t, hostExec (.rd idx name) rest s = t ∧ t = s.withHost t.host ∧ t.host.program = rest ∧
      t.host.log = s.host.log ++ [⟨.rd idx name, (busRead idx s).1, (busRead idx s).2⟩]) ∧
    (∀ idx d, ∃ t, hostExec (.wr idx d) rest s = t ∧ t = (busWrite idx d s).2.withHost t.host ∧
      t.host.program = rest ∧ t.host.log = s.host.log ++ [⟨.wr idx d, (busWrite idx d s).1, 0#64⟩]) ∧
    (∀ idx d name, Unmapped idx →
      hostExec (.rd idx name) rest s = s.withHost ⟨rest, s.host.log ++ [⟨.rd idx name, .busError, 0#64⟩]⟩ ∧
      hostExec (.wr idx d) rest s = s.withHost ⟨rest, s.host.log ++ [⟨.wr idx d, .busError, 0#64⟩]⟩) ∧
    (s.busy = true → hostExec .wait rest s = s) ∧
    (s.busy = false → hostExec .wait rest s = s.withHost ⟨rest, s.host.log⟩)

/-- Weak fairness of the completion step (70_reset_and_hazards.md R200): whatever turns come, unless one is a reset, the
pending command completes, at the latest one step after the last turn. The bound is the model's (log 2). -/
def Obligations.AnAcceptedCommandCompletesUnlessReset : Prop :=
  ∀ s : State, Inv s → s.busy = true → (∀ x ∈ s.turns, x ≠ .reset) →
    ∃ k t, k ≤ s.turns.length + 1 ∧ Sys2Proof.core.run k s = .next t ∧ statusBusy t.status = false ∧
      statusDone t.status = true

/-- No state of the invariant stops. -/
def Obligations.AStepOfTheInvariantNeverStops : Prop :=
  ∀ s : State, Inv s → ∃ t, step s = .next t

/-- Every step keeps the invariant of Safety.lean: reserved bits 0, PEND present exactly while BUSY = 1 and equal to the
live registers, the report in its ranges, flags a combination Quant gives, bytes a layout of the code. -/
def Obligations.EveryStepKeepsTheInvariant : Prop :=
  ∀ s t : State, Inv s → step s = .next t → Inv t

def Obligations.ResetStateMeetsTheInvariant : Prop := Inv State.reset

/-- 10_state.md R24, R27: who changes BUSY and WERR. -/
def Obligations.OnlyTheNamedEventsChangeBusyAndWerr : Prop :=
  ∀ s t : State, step s = .next t →
    (statusBusy s.status = false → statusBusy t.status = true →
      HostMoves s ∧ ∃ d rest, s.host.program = .wr 0x00#8 d :: rest) ∧
    (statusBusy s.status = true → statusBusy t.status = false → EngineMoves s ∨ ResetMoves s) ∧
    (statusWerr s.status = false → statusWerr t.status = true →
      HostMoves s ∧ statusBusy s.status = true ∧ ∃ r d rest, s.host.program = .wr r d :: rest ∧
        (r = 0x00#8 ∨ (0x08 ≤ r.toNat ∧ r.toNat ≤ 0x0B) ∨ (0x10 ≤ r.toNat ∧ r.toNat ≤ 0x14))) ∧
    (statusWerr s.status = true → statusWerr t.status = false →
      ResetMoves s ∨ (HostMoves s ∧ ∃ d rest, s.host.program = .wr 0x01#8 d :: rest ∧ d.getLsbD 3 = true))

/-- The last column of 10_state.md R20: the engine never writes PARAM, the host never writes QFLAGS, CODE or BYTE. -/
def Obligations.OnlyTheNamedAgentsWriteEachRegister : Prop :=
  ∀ s t : State, step s = .next t →
    (t.params ≠ s.params → ResetMoves s ∨
      (HostMoves s ∧ statusBusy s.status = false ∧ ∃ p d rest, s.host.program = .wr (Reg.param p).index d :: rest)) ∧
    (t.coefs ≠ s.coefs → ResetMoves s ∨ (EngineMoves s ∧ statusBusy s.status = true) ∨
      (HostMoves s ∧ statusBusy s.status = false ∧ ∃ i d rest, s.host.program = .wr (Reg.coef i).index d :: rest)) ∧
    (t.qflags ≠ s.qflags ∨ t.codes ≠ s.codes ∨ t.bytes ≠ s.bytes →
      ResetMoves s ∨ (EngineMoves s ∧ statusBusy s.status = true))

/-! The commands. -/

/-- 42_pipeline.md R153. -/
def Obligations.NopCompletesWithNoEffectOnData : Prop :=
  (∀ w : CmdWord, decode w = .command .nop ↔ w = 0x00000000#32) ∧
  ∀ (s : State) (p : Snapshot), s.pend = some p → ∃ t, exec .nop s = .next t ∧ FinishedOk s t ∧
    t.qflags = s.qflags ∧ SameData s t ∧ SameSurroundings s t

/-- 41_quantize.md R132, for the slots 0 to 4: the flags of the slot are always written; a strict failure writes nothing
else; otherwise the code and the three bytes of the slot are written. Nothing of another slot changes. -/
def Obligations.Quant1QuantizesItsSlot : Prop :=
  ∀ (s : State) (p : Snapshot) (slot : BitVec 3) (i : Slot) (l : Layout) (m : Mode),
    s.pend = some p → slot.toNat = slotNum i →
    encode (.quant1 slot l m) &&& 0xFFFFFF07#32 = 0x00000001#32 ∧
    ∃ t, exec (.quant1 slot l m) s = .next t ∧ SameSurroundings s t ∧ t.coefs = s.coefs ∧
      getSlotFlags i t.qflags = slotFlagBits (quantFlags (p.coefs.get i)) ∧
      (∀ j, j ≠ i → getSlotFlags j t.qflags = getSlotFlags j s.qflags) ∧
      qflagsReserved t.qflags = qflagsReserved s.qflags ∧
      (∀ e, m = .strict → quantCause (p.coefs.get i) = some e →
        FinishedErr (causeCode e) slot s t ∧ SameData s t) ∧
      (m = .reference ∨ quantCause (p.coefs.get i) = none →
        FinishedOk s t ∧ t.codes.get i = quantCode (p.coefs.get i) ∧
        t.bytes.get i = (match l with
          | .direct => layoutDirect (quantCode (p.coefs.get i))
          | .nibble => layoutNibble (quantCode (p.coefs.get i))) ∧
        ∀ j, j ≠ i → t.codes.get j = s.codes.get j ∧ t.bytes.get j = s.bytes.get j)

/-- The terms of QUANT1 that are no command (SLOT 5 to 7) complete as an illegal word does. The choice is log 10. -/
def Obligations.Quant1OfNoSlotCompletesAsIllegal : Prop :=
  ∀ (s : State) (p : Snapshot) (slot : BitVec 3) (l : Layout) (m : Mode), s.pend = some p → 5 ≤ slot.toNat →
    ∃ t, exec (.quant1 slot l m) s = .next t ∧ FinishedErr 1#3 0#3 s t ∧ t.qflags = s.qflags ∧ SameData s t ∧
      SameSurroundings s t

/-- 41_quantize.md R133: the flags of all slots are always written; a strict failure reports the lowest failing slot and
writes nothing else; otherwise every code and byte is written, in one layout. -/
def Obligations.QsetQuantizesTheWholeSet : Prop :=
  ∀ (s : State) (p : Snapshot) (l : Layout) (m : Mode), s.pend = some p →
    encode (.qset l m) &&& 0xFFFFFFE7#32 = 0x00000002#32 ∧
    ∃ t, exec (.qset l m) s = .next t ∧ SameSurroundings s t ∧ t.coefs = s.coefs ∧
      (∀ i, getSlotFlags i t.qflags = slotFlagBits (quantFlags (p.coefs.get i))) ∧
      qflagsReserved t.qflags = qflagsReserved s.qflags ∧
      (∀ i e, m = .strict → quantCause (p.coefs.get i) = some e →
        (∀ j, slotNum j < slotNum i → quantCause (p.coefs.get j) = none) →
        FinishedErr (causeCode e) (BitVec.ofNat 3 (slotNum i)) s t ∧ SameData s t) ∧
      (m = .reference ∨ (∀ i, quantCause (p.coefs.get i) = none) →
        FinishedOk s t ∧ ∀ i, t.codes.get i = quantCode (p.coefs.get i) ∧
        t.bytes.get i = (match l with
          | .direct => layoutDirect (quantCode (p.coefs.get i))
          | .nibble => layoutNibble (quantCode (p.coefs.get i))))

/-- 40_derive.md R108, 60_exceptions.md R174 for DERIVE: in strict mode an invalid parameter ends the command before a
coefficient is written; otherwise the five coefficients are the derivation of the snapshot's parameters. -/
def Obligations.DeriveWritesTheCoefficients : Prop :=
  ∀ (s : State) (p : Snapshot) (m : Mode), s.pend = some p →
    encode (.derive m) &&& 0xFFFFFFEF#32 = 0x00000003#32 ∧
    ∃ t, exec (.derive m) s = .next t ∧ SameSurroundings s t ∧ t.qflags = s.qflags ∧ t.codes = s.codes ∧
      t.bytes = s.bytes ∧
      (∀ bad, m = .strict → firstInvalidParam p.params = some bad →
        FinishedErr 2#3 (BitVec.ofNat 3 (paramNum bad)) s t ∧ t.coefs = s.coefs) ∧
      (m = .reference ∨ firstInvalidParam p.params = none →
        FinishedOk s t ∧ t.coefs = derive Config.mathFns p.params)

/-- 42_pipeline.md R152: an invalid parameter in strict mode writes nothing; a strict quantization failure of the derived
set writes the flags only; otherwise coefficients, codes, bytes and flags are all written. -/
def Obligations.DpackDerivesAndQuantizesTheSet : Prop :=
  ∀ (s : State) (p : Snapshot) (l : Layout) (m : Mode) (c : PerSlot Binary64), s.pend = some p →
    c = derive Config.mathFns p.params →
    encode (.dpack l m) &&& 0xFFFFFFE7#32 = 0x00000004#32 ∧
    ∃ t, exec (.dpack l m) s = .next t ∧ SameSurroundings s t ∧
      (∀ bad, m = .strict → firstInvalidParam p.params = some bad →
        FinishedErr 2#3 (BitVec.ofNat 3 (paramNum bad)) s t ∧ t.qflags = s.qflags ∧ SameData s t) ∧
      (m = .reference ∨ firstInvalidParam p.params = none →
        (∀ i, getSlotFlags i t.qflags = slotFlagBits (quantFlags (c.get i))) ∧
        qflagsReserved t.qflags = qflagsReserved s.qflags ∧
        (∀ i e, m = .strict → quantCause (c.get i) = some e →
          (∀ j, slotNum j < slotNum i → quantCause (c.get j) = none) →
          FinishedErr (causeCode e) (BitVec.ofNat 3 (slotNum i)) s t ∧ SameData s t) ∧
        (m = .reference ∨ (∀ i, quantCause (c.get i) = none) →
          FinishedOk s t ∧ t.coefs = c ∧ ∀ i, t.codes.get i = quantCode (c.get i) ∧
          t.bytes.get i = (match l with
            | .direct => layoutDirect (quantCode (c.get i))
            | .nibble => layoutNibble (quantCode (c.get i)))))

/-- 60_exceptions.md R172: the report, and nothing else but PEND; and of the writes a raising command made before,
none is of COEF, CODE, BYTE or PARAM. -/
def Obligations.RaisingAnErrorWritesTheReportOnly : Prop :=
  (∀ (e : Cause) (x : BitVec 3) (s : State), ∃ t, raiseCmdError e x s = t ∧ FinishedErr (causeCode e) x s t ∧
    t.qflags = s.qflags ∧ SameData s t ∧ SameSurroundings s t) ∧
  ∀ (i : Instr) (s t : State), exec i s = .next t → statusErr t.status = true → SameData s t ∧ SameSurroundings s t

/-- 42_pipeline.md R155, 60_exceptions.md R182: a command that ends in an error leaves everything but STATUS, PEND and,
for the quantization causes, QFLAGS; one that ends without an error has written its full result, every COEF, CODE and
BYTE register of it; and in reference mode no legal command ends in an error, so that both modes write the same result. -/
def Obligations.CommandsAreAllOrNothing : Prop :=
  ∀ (i : Instr) (s t : State) (p : Snapshot), i.WellFormed → s.pend = some p → exec i s = .next t →
    (statusErr t.status = true →
      t = ((s.withStatus t.status).withPend none).withQflags t.qflags ∧
      (t.qflags ≠ s.qflags → statusCause t.status = 3#3 ∨ statusCause t.status = 4#3 ∨ statusCause t.status = 5#3)) ∧
    (statusErr t.status = false →
      match i with
      | .nop => t.qflags = s.qflags ∧ SameData s t
      | .quant1 slot l _ => ∃ j, slotNum j = slot.toNat ∧ t.codes.get j = quantCode (p.coefs.get j) ∧
          t.bytes.get j = (match l with
            | .direct => layoutDirect (quantCode (p.coefs.get j))
            | .nibble => layoutNibble (quantCode (p.coefs.get j)))
      | .qset l _ => ∀ j, t.codes.get j = quantCode (p.coefs.get j) ∧
          t.bytes.get j = (match l with
            | .direct => layoutDirect (quantCode (p.coefs.get j))
            | .nibble => layoutNibble (quantCode (p.coefs.get j)))
      | .derive _ => t.coefs = derive Config.mathFns p.params
      | .dpack l _ => t.coefs = derive Config.mathFns p.params ∧ ∀ j, t.codes.get j = quantCode (t.coefs.get j) ∧
          t.bytes.get j = (match l with
            | .direct => layoutDirect (quantCode (t.coefs.get j))
            | .nibble => layoutNibble (quantCode (t.coefs.get j)))) ∧
    ∃ u, exec (match i with
        | .nop => .nop
        | .quant1 slot l _ => .quant1 slot l .reference
        | .qset l _ => .qset l .reference
        | .derive _ => .derive .reference
        | .dpack l _ => .dpack l .reference) s = .next u ∧
      statusErr u.status = false ∧ (statusErr t.status = false → t = u)

/-- What no form of a command changes (30_encoding.md R80): the parameters always, WERR and the reserved bits always;
NOP all data; QUANT1 the other slots; QUANT1 and QSET the coefficients; DERIVE flags, codes and bytes. -/
def Obligations.CommandsChangeOnlyTheirRegisters : Prop :=
  ∀ (i : Instr) (s t : State), exec i s = .next t →
    SameSurroundings s t ∧ statusWerr t.status = statusWerr s.status ∧
    statusReserved t.status = statusReserved s.status ∧ qflagsReserved t.qflags = qflagsReserved s.qflags ∧
    (match i with
      | .nop => t.qflags = s.qflags ∧ SameData s t
      | .quant1 slot _ _ => t.coefs = s.coefs ∧ ∀ j, slotNum j ≠ slot.toNat →
          t.codes.get j = s.codes.get j ∧ t.bytes.get j = s.bytes.get j ∧
          getSlotFlags j t.qflags = getSlotFlags j s.qflags
      | .qset _ _ => t.coefs = s.coefs
      | .derive _ => t.qflags = s.qflags ∧ t.codes = s.codes ∧ t.bytes = s.bytes
      | .dpack _ _ => True)

/-- The completion step computes from PEND alone (10_state.md R36) and depends on no flag (R38): with other live
parameters and coefficients, other STATUS and QFLAGS, the same data and the same report are written. -/
def Obligations.CompletionDependsOnPendAlone : Prop :=
  ∀ (i : Instr) (s s' t : State), s'.pend = s.pend → s'.codes = s.codes → s'.bytes = s.bytes → exec i s = .next t →
    ∃ t', exec i s' = .next t' ∧ t'.codes = t.codes ∧ t'.bytes = t.bytes ∧
      (t.coefs ≠ s.coefs → t'.coefs = t.coefs) ∧
      (∀ j, getSlotFlags j t.qflags ≠ getSlotFlags j s.qflags →
        getSlotFlags j t'.qflags = getSlotFlags j t.qflags) ∧
      statusErr t'.status = statusErr t.status ∧ statusCause t'.status = statusCause t.status ∧
      statusIndex t'.status = statusIndex t.status

/-- The first corner case of 42_pipeline.md R152: in reference mode DPACK leaves what DERIVE followed by QSET with the
same layout leaves, the QSET being accepted after the DERIVE completed. -/
def Obligations.ReferenceDpackIsDeriveThenQset : Prop :=
  ∀ (s : State) (p : Snapshot) (l : Layout), s.pend = some p →
    ∃ t u v, exec (.dpack l .reference) s = .next t ∧ exec (.derive .reference) s = .next u ∧
      exec (.qset l .reference) (accept (encode (.qset l .reference)) u) = .next v ∧ v = t

/-- 41_quantize.md R134. -/
def Obligations.SlotsAreQuantizedIndependently : Prop :=
  (∀ (s s' t t' : State) (p p' : Snapshot) (i : Slot) (l : Layout) (m m' : Mode), s.pend = some p →
    s'.pend = some p' → p'.coefs.get i = p.coefs.get i → exec (.qset l m) s = .next t →
    exec (.qset l m') s' = .next t' → statusErr t.status = false → statusErr t'.status = false →
    t'.codes.get i = t.codes.get i ∧ t'.bytes.get i = t.bytes.get i) ∧
  (∀ (s : State) (p : Snapshot) (slot : BitVec 3) (i : Slot) (l : Layout) (m : Mode), s.pend = some p →
    slot.toNat = slotNum i → ∃ t u, exec (.qset l m) s = .next t ∧ exec (.quant1 slot l m) s = .next u ∧
      (m = .reference → statusErr t.status = false ∧ statusErr u.status = false) ∧
      (statusErr t.status = true → m = .strict ∧ t.codes = s.codes ∧ t.bytes = s.bytes) ∧
      (statusErr t.status = false → statusErr u.status = false →
        t.codes.get i = u.codes.get i ∧ t.bytes.get i = u.bytes.get i) ∧
      (statusErr t.status = false → statusErr u.status = false))

/-! Quantization. -/

/-- 41_quantize.md R120, R121, R122 in exact arithmetic: s is the floor of the scaled magnitude, the branch is the sign
of the value, the code is the raw value modulo 2^24, and the flags are the comparisons of the value. -/
def Obligations.QuantizationIsExactFloorAndWrap : Prop :=
  ∀ c : Binary64,
    (isFinite c = true → (quantMagnitude c : Int) = ⌊|val c| * 2 ^ 20⌋ ∧ (fgt c Lit.zero = true ↔ 0 < val c) ∧
      ((quantFlags c).neg = true ↔ ¬ 0 < val c) ∧ ((quantFlags c).ovf = true ↔ 16 ≤ |val c|) ∧
      ((quantFlags c).rng = true ↔ 8 ≤ val c ∨ val c ≤ -(8 + 1 / 2 ^ 20)) ∧ (quantFlags c).nf = false ∧
      (2 ^ 24 ≤ quantMagnitude c → quantCause c = some .quantOverflow)) ∧
    quantRaw c = (if fgt c Lit.zero = true then (quantMagnitude c : Int) else 2 ^ 24 - (quantMagnitude c : Int)) ∧
    ((quantCode c).toNat : Int) = quantRaw c % 2 ^ 24 ∧
    (isFinite c = false → quantMagnitude c = 0 ∧ quantCode c = 0#24 ∧ (quantFlags c).nf = true ∧
      ((quantFlags c).neg = false ↔ c = 0x7FF0000000000000#64))

/-- 41_quantize.md R128: below 2^1004 the binary64 product is exact, so its floor is s; from there on it is infinite and
the coefficient overflows; and s truncates. The literal is 2^20. What the product is is the IEEE 754 meaning of log 7. -/
def Obligations.TheScaledMagnitudeIsTheFloorOfTheExactProduct : Prop :=
  ∀ c : Binary64, isFinite c = true →
    (|val c| < 2 ^ 1004 → isFinite (fmul (fabs c) 0x4130000000000000#64) = true ∧
      val (fmul (fabs c) 0x4130000000000000#64) = |val c| * 2 ^ 20 ∧
      (quantMagnitude c : Int) = ⌊val (fmul (fabs c) 0x4130000000000000#64)⌋) ∧
    (2 ^ 1004 ≤ |val c| → fmul (fabs c) 0x4130000000000000#64 = Lit.posInf ∧ (quantFlags c).ovf = true) ∧
    (quantMagnitude c : Rat) / 2 ^ 20 ≤ |val c| ∧ |val c| < ((quantMagnitude c : Rat) + 1) / 2 ^ 20

/-- 41_quantize.md R127: the definitions of the flags, and their equivalences for finite c and for the others. -/
def Obligations.FlagsAreTheirConditionsOnTheScaledMagnitude : Prop :=
  ∀ c : Binary64,
    ((quantFlags c).neg = !fgt c Lit.zero) ∧ ((quantFlags c).ovf = fge (fabs c) Lit.sixteen) ∧
    ((quantFlags c).rng = (fge c Lit.eight || fle c Lit.belowMinusEight)) ∧
    ((quantFlags c).nf = !isFinite c) ∧
    (isFinite c = true → ((quantFlags c).ovf = true ↔ 2 ^ 24 ≤ quantMagnitude c)) ∧
    (isFinite c = true → ((quantFlags c).rng = true ↔
      (fgt c Lit.zero = true ∧ 2 ^ 23 ≤ quantMagnitude c) ∨ (fle c Lit.zero = true ∧ 2 ^ 23 < quantMagnitude c))) ∧
    ((quantFlags c).ovf = true → (quantFlags c).rng = true) ∧
    (isInf c = true → (quantFlags c).ovf = true ∧ (quantFlags c).rng = true) ∧
    (isNaN c = true → (quantFlags c).ovf = false ∧ (quantFlags c).rng = false)

/-- 41_quantize.md R129. -/
def Obligations.CodesDenoteTheTruncatedValueExactlyInRange : Prop :=
  ∀ c : Binary64, isFinite c = true →
    ((quantFlags c).rng = false →
      fixval (quantCode c) = (if 0 < val c then (⌊|val c| * 2 ^ 20⌋ : Rat) / 2 ^ 20
        else -((⌊|val c| * 2 ^ 20⌋ : Rat) / 2 ^ 20)) ∧
      |val c - fixval (quantCode c)| < 1 / 2 ^ 20 ∧ |fixval (quantCode c)| ≤ |val c|) ∧
    ((quantFlags c).rng = true → (quantFlags c).ovf = false →
      fixval (quantCode c) = (if 0 < val c then (⌊|val c| * 2 ^ 20⌋ : Rat) / 2 ^ 20 - 16
        else 16 - (⌊|val c| * 2 ^ 20⌋ : Rat) / 2 ^ 20)) ∧
    (|val c| < 16 → (|val c - fixval (unpackDirect (layoutDirect (quantCode c)))| < 1 / 2 ^ 20 ↔
      (quantFlags c).rng = false))

/-- 43_serialize.md R167: the value truncated toward zero comes back exactly when it is in range and, for the nibble
layout, when also bits 19:16 of the code are 0. -/
def Obligations.RoundTripsHoldExactlyInRange : Prop :=
  ∀ (c : Binary64) (v : Rat), isFinite c = true →
    v = (if 0 < val c then (⌊|val c| * 2 ^ 20⌋ : Rat) / 2 ^ 20 else -((⌊|val c| * 2 ^ 20⌋ : Rat) / 2 ^ 20)) →
    |val c - v| < 1 / 2 ^ 20 ∧
    (fixval (unpackDirect (layoutDirect (quantCode c))) = v ↔ (quantFlags c).rng = false) ∧
    (fixval (unpackNibble (layoutNibble (quantCode c))) = v ↔
      (quantFlags c).rng = false ∧ (quantCode c).extractLsb' 16 4 = 0#4)

/-- 41_quantize.md R130. -/
def Obligations.ZeroAndTinyCoefficientsDifferInNegOnly : Prop :=
  (∀ c : Binary64, isFinite c = true → (c = Lit.zero ∨ c = Lit.negZero ∨ (-1 / 2 ^ 20 < val c ∧ val c < 0)) →
    quantFlags c = ⟨true, false, false, false⟩ ∧ quantMagnitude c = 0 ∧ quantRaw c = 2 ^ 24 ∧ quantCode c = 0#24 ∧
    ∀ l, packCode l (quantCode c) = ⟨0#8, 0#8, 0#8⟩) ∧
  (∀ c : Binary64, isFinite c = true → 0 < val c → val c < 1 / 2 ^ 20 →
    quantFlags c = ⟨false, false, false, false⟩ ∧ quantCode c = 0#24)

/-- 41_quantize.md R131, with the comparisons read as comparisons of the value; the code of each cause in the table of
60_exceptions.md R171; and the code STATUS.CAUSE holds after QUANT1 in strict mode. -/
def Obligations.StrictCauseIsTheFirstThatApplies : Prop :=
  (∀ c : Binary64,
    (isFinite c = false → quantCause c = some .nonfiniteCoef) ∧
    (isFinite c = true → 16 ≤ |val c| → quantCause c = some .quantOverflow) ∧
    (isFinite c = true → |val c| < 16 → 8 ≤ val c ∨ val c ≤ -(8 + 1 / 2 ^ 20) →
      quantCause c = some .signedRange) ∧
    (isFinite c = true → -(8 + 1 / 2 ^ 20) < val c → val c < 8 → quantCause c = none)) ∧
  (causeCode .illegalCmd = 1#3 ∧ causeCode .invalidParam = 2#3 ∧ causeCode .quantOverflow = 3#3 ∧
    causeCode .signedRange = 4#3 ∧ causeCode .nonfiniteCoef = 5#3) ∧
  ∀ (s : State) (p : Snapshot) (slot : BitVec 3) (i : Slot) (l : Layout) (c : Binary64), s.pend = some p →
    slot.toNat = slotNum i → c = p.coefs.get i → ∃ t, exec (.quant1 slot l .strict) s = .next t ∧
      (isFinite c = false → statusCause t.status = 5#3) ∧
      (isFinite c = true → 16 ≤ |val c| → statusCause t.status = 3#3) ∧
      (isFinite c = true → |val c| < 16 → 8 ≤ val c ∨ val c ≤ -(8 + 1 / 2 ^ 20) → statusCause t.status = 4#3) ∧
      (isFinite c = true → -(8 + 1 / 2 ^ 20) < val c → val c < 8 → statusCause t.status = 0#3)

/-- 41_quantize.md R124, R125, bit by bit. -/
def Obligations.LayoutsPlaceTheBitsOfTheCode : Prop :=
  ∀ (k : Code) (b : Nat), b < 8 →
    (layoutDirect k).byte0.getLsbD b = k.getLsbD (16 + b) ∧ (layoutDirect k).byte1.getLsbD b = k.getLsbD (8 + b) ∧
    (layoutDirect k).byte2.getLsbD b = k.getLsbD b ∧
    (layoutNibble k).byte0.getLsbD b = (if b < 4 then k.getLsbD (4 + b) else false) ∧
    (layoutNibble k).byte1.getLsbD b = (if b < 4 then k.getLsbD (12 + b) else k.getLsbD (b - 4)) ∧
    (layoutNibble k).byte2.getLsbD b = (if b < 4 then k.getLsbD (20 + b) else k.getLsbD (8 + (b - 4)))

/-- 43_serialize.md R165, R166. -/
def Obligations.UnpackingInvertsTheLayouts : Prop :=
  (∀ k, unpackDirect (layoutDirect k) = k) ∧ (∀ y, layoutDirect (unpackDirect y) = y) ∧
  (∀ k, unpackNibble (layoutNibble k) = k &&& 0xF0FFFF#24) ∧ (∃ k k', k ≠ k' ∧ layoutNibble k = layoutNibble k') ∧
  (∀ y : Packed, y.byte0.extractLsb' 4 4 = 0#4 → layoutNibble (unpackNibble y) = y) ∧
  (∀ y : Packed, y.byte0.extractLsb' 4 4 ≠ 0#4 → ∀ k, layoutNibble k ≠ y) ∧
  (∀ y : Packed, unpackNibble y = y.byte2.extractLsb' 0 4 ++ 0#4 ++ y.byte1.extractLsb' 0 4 ++
    y.byte2.extractLsb' 4 4 ++ y.byte0.extractLsb' 0 4 ++ y.byte1.extractLsb' 4 4)

/-- 41_quantize.md R126: bits 19:16 of the code are the ones the nibble layout does not carry. -/
def Obligations.NibbleBytesCarryAllBitsButNineteenToSixteen : Prop :=
  (∀ k k' : Code, layoutNibble k = layoutNibble k' ↔ k &&& 0xF0FFFF#24 = k' &&& 0xF0FFFF#24) ∧
  (∀ k : Code, (layoutNibble k).byte0.extractLsb' 4 4 = 0#4) ∧
  quantCode 0x3FE0000000000000#64 = 0x080000#24 ∧
  layoutNibble (quantCode 0x3FE0000000000000#64) = layoutNibble (quantCode 0x0000000000000000#64) ∧
  (∀ k k' : Code, layoutDirect k = layoutDirect k' ↔ k = k') ∧
  ∀ k : Code, unpackDirect (layoutDirect k) = k ∧ unpackNibble (layoutNibble k) = k &&& 0xF0FFFF#24

/-! Derivation and binary64 arithmetic. -/

/-- 40_derive.md R107: the first parameter, in the order gain, frequency, rate, Q, that is not finite or, the gain
apart, not greater than 0. The Nyquist precondition plays no part. DERIVE and DPACK test it in strict mode only, and
report that index. -/
def Obligations.FirstInvalidParameterIsTheLowestIndexFailing : Prop :=
  ∀ (p : Params) (ok : ParamName → Prop),
    (∀ n, ok n ↔ isFinite (p.get n) = true ∧ (n = .gain ∨ 0 < val (p.get n))) →
    ((∀ n, ok n) → firstInvalidParam p = none) ∧
    (∀ n, ¬ ok n → (∀ k, paramNum k < paramNum n → ok k) → firstInvalidParam p = some n) ∧
    (∀ (s : State) (x : Snapshot) (i : Instr) (m : Mode), s.pend = some x → x.params = p →
      i = .derive m ∨ (∃ l, i = .dpack l m) → ∃ t, exec i s = .next t ∧
        (statusCause t.status = 2#3 ↔ m = .strict ∧ firstInvalidParam p ≠ none) ∧
        (∀ n, m = .strict → firstInvalidParam p = some n → (statusIndex t.status).toNat = paramNum n))

/-- 40_derive.md R103, for the derivation under any functions and for what a command leaves in the registers. -/
def Obligations.DerivedB1AndA1AreBitIdentical : Prop :=
  (∀ (f : MathFns) (p : Params), (derive f p).b1 = (derive f p).a1) ∧
  (∀ (s : State) (p : Snapshot), s.pend = some p → ∃ t, exec (.derive .reference) s = .next t ∧
    t.coefs.get .b1 = t.coefs.get .a1)

/-- 40_derive.md R104, for any functions that have P_POW0. -/
def Obligations.NoGainGivesUnitB0AndEqualB2A2 : Prop :=
  ∀ (f : MathFns) (p : Params), (p.gain = Lit.zero ∨ p.gain = Lit.negZero) → f.pow Lit.ten Lit.zero = Lit.one →
    f.pow Lit.ten Lit.negZero = Lit.one →
    deriveA f p = Lit.one ∧
    fdiv (deriveAlpha f p) (deriveA f p) = deriveAlpha f p ∧ fmul (deriveAlpha f p) (deriveA f p) = deriveAlpha f p ∧
    fadd Lit.one (fdiv (deriveAlpha f p) (deriveA f p)) = fadd Lit.one (fmul (deriveAlpha f p) (deriveA f p)) ∧
    fsub Lit.one (fdiv (deriveAlpha f p) (deriveA f p)) = fsub Lit.one (fmul (deriveAlpha f p) (deriveA f p)) ∧
    (derive f p).b2 = (derive f p).a2 ∧
    (isFinite (fadd Lit.one (fdiv (deriveAlpha f p) (deriveA f p))) = true →
      isZero (fadd Lit.one (fdiv (deriveAlpha f p) (deriveA f p))) = false → (derive f p).b0 = Lit.one)

/-- 40_derive.md R105 with the premise it needs besides its own: (2A)q must not round to a zero (log 14). -/
def Obligations.ZeroFrequencyGivesThePassThroughSet : Prop :=
  ∀ (f : MathFns) (p : Params), p.freq = Lit.zero → isFinite p.rate = true → fgt p.rate Lit.zero = true →
    isFinite p.q = true → isFinite (deriveA f p) = true → isZero (deriveA f p) = false →
    isZero (fmul (fmul Lit.two (deriveA f p)) p.q) = false → isZero p.q = false →
    f.sin Lit.zero = Lit.zero → f.cos Lit.zero = Lit.one →
    derive f p = ⟨Lit.one, Lit.negTwo, Lit.one, Lit.negTwo, Lit.one⟩

/-- 40_derive.md R105 as it is worded, for every A and Q that are finite and not zero. The model's arithmetic refutes it:
where the product (2A)q underflows to zero, alpha is 0/0 (log 14). -/
def Obligations.ZeroFrequencyRuleAsWordedForEveryAAndQ : Prop :=
  ∀ (f : MathFns) (p : Params), p.freq = Lit.zero → isFinite p.rate = true → fgt p.rate Lit.zero = true →
    isFinite p.q = true → isZero p.q = false → isFinite (deriveA f p) = true → isZero (deriveA f p) = false →
    f.sin Lit.zero = Lit.zero → f.cos Lit.zero = Lit.one →
    derive f p = ⟨Lit.one, Lit.negTwo, Lit.one, Lit.negTwo, Lit.one⟩

/-- Two remarks of 40_derive.md R101 and R102: 2.0 * PI64 is exact, and multiplying by -2.0 is negating the double, for
every operand but a NaN (log 13). -/
def Obligations.DoublingIsExactAndSymmetricInSign : Prop :=
  fmul Lit.two Config.pi64 = 0x401921FB54442D18#64 ∧
  val (fmul Lit.two Config.pi64) = 2 * val Config.pi64 ∧
  ∀ x : Binary64, isNaN x = false → fmul Lit.negTwo x = fneg (fmul Lit.two x)

/-- Items 3, 4 and 5 of 40_derive.md R109, for any functions with the properties each item needs: a zero rate, an infinite
A, a zero A, a zero Q. -/
def Obligations.DegenerateParametersGiveTheListedCoefficients : Prop :=
  ∀ (f : MathFns) (p : Params),
    (p.rate = Lit.zero → fgt p.freq Lit.zero = true → isNaN (f.sin Lit.posInf) = true →
      isNaN (f.cos Lit.posInf) = true → derive f p = PerSlot.all Config.canonicalNaN) ∧
    (deriveA f p = Lit.posInf → fgt p.q Lit.zero = true → isFinite (f.sin (deriveOmega p)) = true →
      fgt (f.sin (deriveOmega p)) Lit.zero = true →
      derive f p = ⟨Config.canonicalNaN, fmul Lit.negTwo (f.cos (deriveOmega p)), Config.canonicalNaN,
        fmul Lit.negTwo (f.cos (deriveOmega p)), Lit.one⟩) ∧
    (deriveA f p = Lit.zero → isFinite p.q = true → fgt p.q Lit.zero = true →
      fgt (f.sin (deriveOmega p)) Lit.zero = true → isFinite (f.cos (deriveOmega p)) = true →
      fgt (f.cos (deriveOmega p)) Lit.zero = true → isFinite (fmul Lit.two (f.cos (deriveOmega p))) = true →
      derive f p = ⟨Config.canonicalNaN, Lit.negZero, Config.canonicalNaN, Lit.negZero, Config.canonicalNaN⟩) ∧
    (p.q = Lit.zero → isFinite (deriveA f p) = true → fgt (deriveA f p) Lit.zero = true →
      isFinite (fmul Lit.two (deriveA f p)) = true → fgt (f.sin (deriveOmega p)) Lit.zero = true →
      isFinite (f.cos (deriveOmega p)) = true → fgt (f.cos (deriveOmega p)) Lit.zero = true →
      isFinite (fmul Lit.two (f.cos (deriveOmega p))) = true →
      derive f p = ⟨Config.canonicalNaN, Lit.negZero, Config.canonicalNaN, Lit.negZero, Config.canonicalNaN⟩)

/-- The rounding of 00_scope.md R9: a finite result is a nearest binary64 to the exact result, on a tie the one with an
even fraction; the result is infinite exactly from half a step above the largest finite value on. That binary64 is
IEEE 754's is log 7. -/
def Obligations.ArithmeticRoundsToNearestTiesToEven : Prop :=
  ∀ (x y r : Binary64) (e : Rat), isFinite x = true → isFinite y = true →
    ((r = fadd x y ∧ e = val x + val y) ∨ (r = fsub x y ∧ e = val x - val y) ∨ (r = fmul x y ∧ e = val x * val y) ∨
      (r = fdiv x y ∧ isZero y = false ∧ e = val x / val y)) →
    (isFinite r = true → ∀ z : Binary64, isFinite z = true →
      |val r - e| ≤ |val z - e| ∧ (|val r - e| = |val z - e| → val z ≠ val r → ffrac r % 2 = 0)) ∧
    (isFinite r = false ↔ 2 ^ 1024 - 2 ^ 970 ≤ |e|) ∧
    (isFinite r = false → r = (if 0 < e then Lit.posInf else Lit.negInf))

/-- 00_scope.md R9: an arithmetic NaN is the canonical one; the comparisons are those of the values, with the infinities
outside all of them, +0.0 and -0.0 equal, and false for a NaN. -/
def Obligations.NaNResultsAreCanonicalAndComparisonsOrdered : Prop :=
  ∀ x y : Binary64,
    (isNaN (fadd x y) = true → fadd x y = Config.canonicalNaN) ∧
    (isNaN (fsub x y) = true → fsub x y = Config.canonicalNaN) ∧
    (isNaN (fmul x y) = true → fmul x y = Config.canonicalNaN) ∧
    (isNaN (fdiv x y) = true → fdiv x y = Config.canonicalNaN) ∧
    (isNaN x = true ∨ isNaN y = true → isNaN (fadd x y) = true ∧ isNaN (fsub x y) = true ∧
      isNaN (fmul x y) = true ∧ isNaN (fdiv x y) = true ∧
      flt x y = false ∧ fle x y = false ∧ fgt x y = false ∧ fge x y = false) ∧
    (isFinite x = true → isFinite y = true → (flt x y = true ↔ val x < val y) ∧ (fle x y = true ↔ val x ≤ val y) ∧
      (fgt x y = true ↔ val y < val x) ∧ (fge x y = true ↔ val y ≤ val x)) ∧
    (isFinite x = true → flt x Lit.posInf = true ∧ flt Lit.negInf x = true)

/-! Text. -/

/-- 43_serialize.md R160, R162, R163: fifteen tokens of two uppercase digits and a space between each two; the bytes can
be read back. Token n is register BYTE(n), as the bus reads it, its more significant digit first (20_memory.md R58).
Text is a list of characters (log 19). -/
def Obligations.HexTextHasFortyFourCharactersAndLosesNothing : Prop :=
  (∀ y y' : PerSlot Packed, (toHex y).length = 44 ∧ (toHex y = toHex y' → y = y') ∧
    ∀ n : Nat, n < 44 → ∃ ch, (toHex y)[n]? = some ch ∧
      (if n % 3 = 2 then ch = ' ' else ch ∈ "0123456789ABCDEF".toList)) ∧
  ∀ s : State, toHex s.bytes = List.intercalate [' '] ((List.range 15).map fun n =>
    ["0123456789ABCDEF".toList.getD ((busRead (BitVec.ofNat 8 (0x20 + n)) s).2.toNat / 16) ' ',
      "0123456789ABCDEF".toList.getD ((busRead (BitVec.ofNat 8 (0x20 + n)) s).2.toNat % 16) ' '])

/-- 43_serialize.md R161, R162, R163: the length bounds, and the bytes can be read back. Token n is register BYTE(n), as
the bus reads it, in decimal digits without a leading zero (20_memory.md R58). Text is a list of characters (log 19). -/
def Obligations.DecimalTextIsBoundedAndLosesNothing : Prop :=
  (∀ y y' : PerSlot Packed, 29 ≤ (toDecimal y).length ∧ (toDecimal y).length ≤ 59 ∧
    (toDecimal y = toDecimal y' → y = y') ∧ (toDecimal y = toDecimal y' ↔ toHex y = toHex y')) ∧
  ∀ s : State, toDecimal s.bytes = List.intercalate [' '] ((List.range 15).map fun n =>
    Nat.toDigits 10 (busRead (BitVec.ofNat 8 (0x20 + n)) s).2.toNat)

/-- 43_serialize.md R164: the texts of the bands, in the order given, with one space between each two. Text is a list of
characters (log 19). -/
def Obligations.BandTextsAreJoinedBySingleSpaces : Prop :=
  (∀ (render : PerSlot Packed → List Char) (bands : List (PerSlot Packed)), render = toHex ∨ render = toDecimal →
    bandsText render bands = List.intercalate [' '] (bands.map render)) ∧
  ∀ (y : PerSlot Packed) (rest : List (PerSlot Packed)), (bandsText toHex (y :: rest)).length = 44 + 45 * rest.length

/-! The derivation, and the operations it is made of, written out. -/

/-- 40_derive.md R100, in the order of its parentheses: for the derivation under any functions, and for what DERIVE and
DPACK leave on the bus of the parameters on the bus when the word was accepted. The literals are 10.0, 40.0, 2.0, PI64,
1.0 and -2.0. -/
def Obligations.DeriveComputesTheFormulaAsParenthesized : Prop :=
  (∀ (f : MathFns) (p : Params) (a omega alpha a0 : Binary64),
    a = f.pow 0x4024000000000000#64 (fdiv p.gain 0x4044000000000000#64) →
    omega = fdiv (fmul (fmul 0x4000000000000000#64 0x400921FB54442D18#64) p.freq) p.rate →
    alpha = fdiv (f.sin omega) (fmul (fmul 0x4000000000000000#64 a) p.q) →
    a0 = fadd 0x3FF0000000000000#64 (fdiv alpha a) →
    (derive f p).b0 = fdiv (fadd 0x3FF0000000000000#64 (fmul alpha a)) a0 ∧
    (derive f p).b1 = fdiv (fmul 0xC000000000000000#64 (f.cos omega)) a0 ∧
    (derive f p).b2 = fdiv (fsub 0x3FF0000000000000#64 (fmul alpha a)) a0 ∧
    (derive f p).a1 = fdiv (fmul 0xC000000000000000#64 (f.cos omega)) a0 ∧
    (derive f p).a2 = fdiv (fsub 0x3FF0000000000000#64 (fdiv alpha a)) a0) ∧
  ∀ (s : State) (w : CmdWord) (i : Instr) (c : PerSlot Binary64),
    i = .derive .reference ∨ (∃ l, i = .dpack l .reference) →
    c = derive ⟨Config.pow, Config.sin, Config.cos⟩
      ⟨(busRead 0x08#8 s).2, (busRead 0x09#8 s).2, (busRead 0x0A#8 s).2, (busRead 0x0B#8 s).2⟩ →
    ∃ t, exec i (accept w s) = .next t ∧ busRead 0x10#8 t = (.ok, c.b0) ∧ busRead 0x11#8 t = (.ok, c.b1) ∧
      busRead 0x12#8 t = (.ok, c.b2) ∧ busRead 0x13#8 t = (.ok, c.a1) ∧ busRead 0x14#8 t = (.ok, c.a2)

/-- The operations of 00_scope.md R9 on zeros and infinities, and the signs of their results. That binary64 is IEEE 754's
is log 7. -/
def Obligations.SignsZerosAndInfinitiesFollowIeee : Prop :=
  ∀ x y : Binary64, isNaN x = false → isNaN y = false →
    fsub x y = fadd x (fneg y) ∧
    (isNaN (fmul x y) = false → fsign (fmul x y) = (fsign x != fsign y)) ∧
    (isNaN (fdiv x y) = false → fsign (fdiv x y) = (fsign x != fsign y)) ∧
    (isFinite x = true → isFinite y = true → val x + val y = 0 →
      fadd x y = if fsign x = true ∧ fsign y = true then 0x8000000000000000#64 else 0x0000000000000000#64) ∧
    (isInf x = true → isFinite y = true → fadd x y = x ∧ fadd y x = x ∧ isInf (fdiv x y) = true ∧
      isZero (fdiv y x) = true) ∧
    (isInf x = true → isInf y = true → isNaN (fdiv x y) = true ∧ isInf (fmul x y) = true ∧
      (if fsign x = fsign y then fadd x y = x else isNaN (fadd x y) = true)) ∧
    (isInf x = true → isZero y = true → isNaN (fmul x y) = true ∧ isNaN (fmul y x) = true) ∧
    (isInf x = true → isFinite y = true → isZero y = false → isInf (fmul x y) = true ∧ isInf (fmul y x) = true) ∧
    (isZero y = true → isZero x = true → isNaN (fdiv x y) = true) ∧
    (isZero y = true → isZero x = false → isInf (fdiv x y) = true)
end

