-- ==== Sys2Proof/Laws/Binary64.lean ====
section
/-! SUPPORT. A finite binary64 as a whole number of units, and the order of the patterns as the order of the values
(Machine/Binary64.lean). -/

namespace Sys2Proof.Laws

open Sys2Proof.Machine

/-- The units of the finite pattern whose bits 62:0 are `m`. -/
def unitsOfMag (m : Nat) : Nat :=
  if m / 2 ^ 52 = 0 then m % 2 ^ 52 else (2 ^ 52 + m % 2 ^ 52) * 2 ^ (m / 2 ^ 52 - 1)

theorem fexp_lt (x : Binary64) : fexp x < 2048 := (x.extractLsb' 52 11).isLt

theorem ffrac_lt (x : Binary64) : ffrac x < 2 ^ 52 := (x.extractLsb' 0 52).isLt

theorem fmag_lt (x : Binary64) : fmag x < 2 ^ 63 := (x.extractLsb' 0 63).isLt

theorem fexp_eq (x : Binary64) : fexp x = fmag x / 2 ^ 52 := by
  simp only [fexp, fmag, BitVec.extractLsb'_toNat, Nat.shiftRight_eq_div_pow]
  omega

theorem ffrac_eq (x : Binary64) : ffrac x = fmag x % 2 ^ 52 := by
  simp only [ffrac, fmag, BitVec.extractLsb'_toNat, Nat.shiftRight_eq_div_pow]
  omega

theorem units_eq (x : Binary64) : units x = unitsOfMag (fmag x) := by
  unfold units significand scale unitsOfMag
  rw [fexp_eq, ffrac_eq]
  by_cases h : fmag x / 2 ^ 52 = 0
  · rw [if_pos h, if_pos h, h, Nat.zero_sub, pow_zero, Nat.mul_one]
  · rw [if_neg h, if_neg h]

theorem isFinite_iff (x : Binary64) : isFinite x = true ↔ fmag x < infMag := by
  have h := fexp_lt x
  have he := fexp_eq x
  simp only [isFinite, infMag, bne_iff_ne, ne_eq]
  omega

theorem isNaN_iff (x : Binary64) : isNaN x = true ↔ infMag < fmag x := by
  have h := fexp_lt x
  have he := fexp_eq x
  have hf := ffrac_eq x
  simp only [isNaN, infMag, Bool.and_eq_true, beq_iff_eq, bne_iff_ne, ne_eq]
  omega

theorem isInf_iff (x : Binary64) : isInf x = true ↔ fmag x = infMag := by
  have h := fexp_lt x
  have he := fexp_eq x
  have hf := ffrac_eq x
  simp only [isInf, infMag, Bool.and_eq_true, beq_iff_eq]
  omega

theorem isZero_iff (x : Binary64) : isZero x = true ↔ fmag x = 0 := by
  simp [isZero]

/-- A finite number is no NaN. -/
theorem isNaN_of_isFinite {x : Binary64} (h : isFinite x = true) : isNaN x = false := by
  have h1 := (isFinite_iff x).mp h
  cases hn : isNaN x with
  | false => rfl
  | true => have := (isNaN_iff x).mp hn; omega

theorem isInf_of_isFinite {x : Binary64} (h : isFinite x = true) : isInf x = false := by
  have h1 := (isFinite_iff x).mp h
  cases hn : isInf x with
  | false => rfl
  | true => have := (isInf_iff x).mp hn; omega

/-! A pattern from its sign and its bits 62:0. -/

@[simp] theorem fsign_withSign (neg : Bool) (m : Nat) : fsign (withSign neg m) = neg := by
  simp only [fsign, withSign, BitVec.getLsbD_append]
  cases neg <;> rfl

theorem fmag_withSign {neg : Bool} {m : Nat} (h : m < 2 ^ 63) : fmag (withSign neg m) = m := by
  have hs : (withSign neg m).extractLsb' 0 63 = BitVec.ofNat 63 m := by
    apply BitVec.eq_of_getLsbD_eq
    intro j hj
    simp only [withSign, BitVec.getLsbD_extractLsb', BitVec.getLsbD_append, Nat.zero_add, hj, decide_true,
      Bool.true_and, if_true]
  rw [fmag, hs, BitVec.toNat_ofNat, Nat.mod_eq_of_lt h]

/-- A pattern is its sign and its bits 62:0. -/
theorem binary64_ext {x y : Binary64} (hs : fsign x = fsign y) (hm : fmag x = fmag y) : x = y := by
  have hv : x.extractLsb' 0 63 = y.extractLsb' 0 63 := BitVec.eq_of_toNat_eq hm
  apply BitVec.eq_of_getLsbD_eq
  intro i hi
  rcases Nat.lt_or_ge i 63 with h | h
  · have := congrArg (fun v : BitVec 63 => v.getLsbD i) hv
    simpa [h] using this
  · obtain rfl : i = 63 := by omega
    exact hs

theorem topBit_below {j : Nat} (h : j < 63) : (1#64 <<< 63).getLsbD j = false := by
  revert j
  decide

@[simp] theorem fsign_fneg (x : Binary64) : fsign (fneg x) = !fsign x := by
  simp [fsign, fneg]

@[simp] theorem fmag_fneg (x : Binary64) : fmag (fneg x) = fmag x := by
  have : (fneg x).extractLsb' 0 63 = x.extractLsb' 0 63 := by
    apply BitVec.eq_of_getLsbD_eq
    intro j hj
    have h1 : (1#64 <<< 63).getLsbD j = false := topBit_below hj
    simp only [fneg, BitVec.getLsbD_extractLsb', Nat.zero_add, BitVec.getLsbD_xor, h1, hj]
    simp
  rw [fmag, this, fmag]

@[simp] theorem fsign_fabs (x : Binary64) : fsign (fabs x) = false := by
  simp [fsign, fabs]

@[simp] theorem fmag_fabs (x : Binary64) : fmag (fabs x) = fmag x := by
  have : (fabs x).extractLsb' 0 63 = x.extractLsb' 0 63 := by
    apply BitVec.eq_of_getLsbD_eq
    intro j hj
    have h1 : (1#64 <<< 63).getLsbD j = false := topBit_below hj
    have h2 : j < 64 := by omega
    simp only [fabs, BitVec.getLsbD_extractLsb', Nat.zero_add, BitVec.getLsbD_and, BitVec.getLsbD_not, h1, hj, h2]
    simp
  rw [fmag, this, fmag]

/-! The order. -/

theorem unitsOfMag_lt_succ (m : Nat) : unitsOfMag m < unitsOfMag (m + 1) := by
  have hdm := Nat.div_add_mod m (2 ^ 52)
  have hmod := Nat.mod_lt m (show 0 < 2 ^ 52 by norm_num)
  by_cases hc : m % 2 ^ 52 + 1 = 2 ^ 52
  · have h1 : (m + 1) / 2 ^ 52 = m / 2 ^ 52 + 1 := by omega
    have h2 : (m + 1) % 2 ^ 52 = 0 := by omega
    unfold unitsOfMag
    rw [h1, h2]
    by_cases h0 : m / 2 ^ 52 = 0
    · rw [if_pos h0, if_neg (by omega), h0]
      omega
    · obtain ⟨e, he⟩ : ∃ e, m / 2 ^ 52 = e + 1 := ⟨m / 2 ^ 52 - 1, by omega⟩
      have hp : 0 < 2 ^ e := Nat.two_pow_pos e
      simp only [he, Nat.add_sub_cancel, Nat.succ_ne_zero, if_false, Nat.add_zero, pow_succ 2 e]
      nlinarith
  · have h1 : (m + 1) / 2 ^ 52 = m / 2 ^ 52 := by omega
    have h2 : (m + 1) % 2 ^ 52 = m % 2 ^ 52 + 1 := by omega
    unfold unitsOfMag
    rw [h1, h2]
    have hp : 0 < 2 ^ (m / 2 ^ 52 - 1) := Nat.two_pow_pos _
    split
    · omega
    · nlinarith

theorem unitsOfMag_strictMono : StrictMono unitsOfMag := strictMono_nat_of_lt_succ unitsOfMag_lt_succ

@[simp] theorem unitsOfMag_zero : unitsOfMag 0 = 0 := rfl

/-- The units of a signed place in the order. -/
theorem signedUnits_eq (x : Binary64) : signedUnits x = if fsign x then -(unitsOfMag (fmag x) : Int) else (unitsOfMag (fmag x) : Int) := by
  rw [signedUnits, units_eq]

theorem signedUnits_lt_iff (x y : Binary64) : signedUnits x < signedUnits y ↔ forder x < forder y := by
  have lt : ∀ a b, unitsOfMag a < unitsOfMag b ↔ a < b := fun a b => unitsOfMag_strictMono.lt_iff_lt
  have pos : ∀ a, 0 < unitsOfMag a ↔ 0 < a := fun a => by simpa using lt 0 a
  have h1 := lt (fmag x) (fmag y)
  have h2 := lt (fmag y) (fmag x)
  have h3 := pos (fmag x)
  have h4 := pos (fmag y)
  rw [signedUnits_eq, signedUnits_eq]
  unfold forder
  split <;> split <;> omega

theorem val_lt_iff (x y : Binary64) : val x < val y ↔ forder x < forder y := by
  rw [← signedUnits_lt_iff, val, val, div_lt_div_iff_of_pos_right (by positivity)]
  exact Int.cast_lt

theorem val_le_iff (x y : Binary64) : val x ≤ val y ↔ forder x ≤ forder y := by
  rw [← not_lt, val_lt_iff, not_lt]

theorem flt_iff {x y : Binary64} (hx : isFinite x = true) (hy : isFinite y = true) :
    flt x y = true ↔ val x < val y := by
  simp [flt, isNaN_of_isFinite hx, isNaN_of_isFinite hy, val_lt_iff]

theorem fle_iff {x y : Binary64} (hx : isFinite x = true) (hy : isFinite y = true) :
    fle x y = true ↔ val x ≤ val y := by
  simp [fle, isNaN_of_isFinite hx, isNaN_of_isFinite hy, val_le_iff]

theorem fgt_iff {x y : Binary64} (hx : isFinite x = true) (hy : isFinite y = true) :
    fgt x y = true ↔ val y < val x := flt_iff hy hx

theorem fge_iff {x y : Binary64} (hx : isFinite x = true) (hy : isFinite y = true) :
    fge x y = true ↔ val y ≤ val x := fle_iff hy hx

/-! Values. -/

theorem val_fneg (x : Binary64) : val (fneg x) = -val x := by
  unfold val
  rw [signedUnits_eq, signedUnits_eq, fsign_fneg, fmag_fneg]
  cases fsign x <;> simp [neg_div]

theorem abs_val (x : Binary64) : |val x| = (units x : Rat) / 2 ^ 1074 := by
  have hp : (0 : Rat) < 2 ^ 1074 := by positivity
  unfold val signedUnits
  rw [abs_div, abs_of_pos hp]
  split <;> simp

theorem val_fabs (x : Binary64) : val (fabs x) = |val x| := by
  rw [abs_val, val, signedUnits, fsign_fabs, units_eq, fmag_fabs, ← units_eq]
  simp

/-- The value is positive exactly when the pattern is no zero and has no sign. -/
theorem val_pos_iff (x : Binary64) : 0 < val x ↔ fsign x = false ∧ fmag x ≠ 0 := by
  have hz : val Lit.zero = 0 := by
    rw [val, signedUnits_eq, show fmag Lit.zero = 0 by decide, unitsOfMag_zero]; simp
  rw [← hz, val_lt_iff]
  have h0 : forder Lit.zero = 0 := by decide
  rw [h0, forder]
  cases fsign x <;> simp
  omega

/-- The scaled magnitude, exactly: whole steps of 2^-20 in the absolute value (41_quantize.md R120). -/
theorem scaledMagnitude_eq (c : Binary64) : scaledMagnitude c = units c / 2 ^ 1054 := by
  unfold scaledMagnitude units
  split
  · rename_i h
    obtain ⟨k, hk⟩ : ∃ k, scale c = 1054 + k := ⟨scale c - 1054, by omega⟩
    rw [hk, Nat.add_sub_cancel_left, Nat.shiftLeft_eq, pow_add, mul_left_comm,
      Nat.mul_div_cancel_left _ (Nat.two_pow_pos 1054)]
  · rename_i h
    obtain ⟨k, hk⟩ : ∃ k, 1054 = scale c + k := ⟨1054 - scale c, by omega⟩
    rw [hk, Nat.add_sub_cancel_left, Nat.shiftRight_eq_div_pow, pow_add, Nat.mul_comm (2 ^ scale c),
      Nat.mul_div_mul_right _ _ (Nat.two_pow_pos _)]

theorem floor_scaled (c : Binary64) : ⌊|val c| * 2 ^ 20⌋ = (scaledMagnitude c : Int) := by
  have h : |val c| * 2 ^ 20 = (units c : Rat) / ((2 ^ 1054 : Nat) : Rat) := by
    rw [abs_val, Nat.cast_pow, Nat.cast_ofNat, show (1074 : Nat) = 1054 + 20 from rfl, pow_add]
    field_simp
  rw [h, scaledMagnitude_eq, Rat.floor_natCast_div_natCast, Int.natCast_ediv]

end Sys2Proof.Laws
end

