-- ==== Sys2Proof/Laws/Quantize.lean ====
section
/-! SUPPORT. The values of the literals, the comparisons of quantization as comparisons of values, and the flags Quant can
give (Machine/Quantize.lean). -/

namespace Sys2Proof.Laws

open Sys2Proof.Machine Sys2Proof.Safety

/-! Literals. -/

theorem val_of_units {x : Binary64} {k : Nat} (hs : fsign x = false) (h : units x = k * 2 ^ 1074) : val x = k := by
  have hp : (2 : Rat) ^ 1074 ≠ 0 := pow_ne_zero _ (by norm_num)
  have hc : ((2 ^ 1074 : Nat) : Rat) = 2 ^ 1074 := by rw [Nat.cast_pow, Nat.cast_ofNat]
  rw [val, signedUnits, hs, h, if_neg (by decide), Int.cast_natCast, Nat.cast_mul, hc, mul_div_cancel_right₀ _ hp]

theorem val_zero : val Lit.zero = 0 := by
  have h := val_of_units (x := Lit.zero) (k := 0) (by decide) (by decide +kernel)
  simpa using h

theorem val_one : val Lit.one = 1 := by
  have h := val_of_units (x := Lit.one) (k := 1) (by decide) (by decide +kernel)
  simpa using h

theorem val_two : val Lit.two = 2 := val_of_units (k := 2) (by decide) (by decide +kernel)

theorem val_eight : val Lit.eight = 8 := val_of_units (k := 8) (by decide) (by decide +kernel)

theorem val_sixteen : val Lit.sixteen = 16 := val_of_units (k := 16) (by decide) (by decide +kernel)

theorem val_belowMinusEight : val Lit.belowMinusEight = -(8 + 1 / 2 ^ 20) := by
  have hp : (2 : Rat) ^ 1074 ≠ 0 := pow_ne_zero _ (by norm_num)
  have hc : ((2 ^ 1074 : Nat) : Rat) = 2 ^ 1074 := by rw [Nat.cast_pow, Nat.cast_ofNat]
  have hu : units Lit.belowMinusEight * 2 ^ 20 = (8 * 2 ^ 20 + 1) * 2 ^ 1074 := by decide +kernel
  rw [val, signedUnits, if_pos (by decide), ← hc, Int.cast_neg, Int.cast_natCast]
  rw [← hc] at hp
  have cast : ∀ u n : Nat, u * 2 ^ 20 = (8 * 2 ^ 20 + 1) * n → (u : Rat) * 2 ^ 20 = (8 * 2 ^ 20 + 1) * n :=
    fun u n h => by exact_mod_cast h
  have hv := cast _ _ hu
  rw [neg_div, neg_inj, div_eq_iff hp]
  linarith

/-! The comparisons of 41_quantize.md R121, R127 and R131 on finite coefficients. -/

section

variable {c : Binary64} (h : isFinite c = true)
include h

theorem isFinite_fabs : isFinite (fabs c) = true := by
  rw [isFinite_iff] at *
  simpa using h

theorem fgt_zero_iff : fgt c Lit.zero = true ↔ 0 < val c := by
  rw [fgt_iff h (by decide), val_zero]

theorem fge_eight_iff : fge c Lit.eight = true ↔ 8 ≤ val c := by
  rw [fge_iff h (by decide), val_eight]

theorem fle_belowMinusEight_iff : fle c Lit.belowMinusEight = true ↔ val c ≤ -(8 + 1 / 2 ^ 20) := by
  rw [fle_iff h (by decide), val_belowMinusEight]

theorem fge_fabs_sixteen_iff : fge (fabs c) Lit.sixteen = true ↔ 16 ≤ |val c| := by
  rw [fge_iff (isFinite_fabs h) (by decide), val_sixteen, val_fabs]

theorem outOfSignedRange_iff : outOfSignedRange c = true ↔ 8 ≤ val c ∨ val c ≤ -(8 + 1 / 2 ^ 20) := by
  rw [outOfSignedRange, Bool.or_eq_true, fge_eight_iff h, fle_belowMinusEight_iff h]

theorem quantMagnitude_eq_floor : (quantMagnitude c : Int) = ⌊|val c| * 2 ^ 20⌋ := by
  rw [quantMagnitude, if_pos h, floor_scaled]

theorem le_quantMagnitude_iff (k : Nat) : k ≤ quantMagnitude c ↔ (k : Rat) ≤ |val c| * 2 ^ 20 := by
  have h2 : (k : Int) ≤ quantMagnitude c ↔ (k : Rat) ≤ |val c| * 2 ^ 20 := by
    rw [quantMagnitude_eq_floor h, Int.le_floor]
    simp
  rw [← h2]
  simp

end

/-! Coefficients that are not finite. -/

theorem not_isFinite {c : Binary64} (h : isFinite c = false) : isNaN c = true ∨ (isInf c = true ∧ isNaN c = false) := by
  have h1 : ¬ fmag c < infMag := fun hh => by simp [(isFinite_iff c).mpr hh] at h
  rcases Nat.lt_or_ge infMag (fmag c) with h2 | h2
  · exact .inl ((isNaN_iff c).mpr h2)
  · have h3 : fmag c = infMag := by omega
    refine .inr ⟨(isInf_iff c).mpr h3, ?_⟩
    cases hn : isNaN c with
    | false => rfl
    | true => have := (isNaN_iff c).mp hn; omega

/-- There are two infinities. -/
theorem eq_of_isInf {c : Binary64} (h : isInf c = true) : c = Lit.posInf ∨ c = Lit.negInf := by
  have hm := (isInf_iff c).mp h
  cases hs : fsign c with
  | false => exact .inl (binary64_ext (by rw [hs]; decide) (by rw [hm]; decide))
  | true => exact .inr (binary64_ext (by rw [hs]; decide) (by rw [hm]; decide))

theorem isNaN_fabs {c : Binary64} (h : isNaN c = true) : isNaN (fabs c) = true := by
  rw [isNaN_iff] at *
  simpa using h

/-- Overflow implies out of range (41_quantize.md R127). -/
theorem rng_of_ovf {c : Binary64} (ho : (quantFlags c).ovf = true) : (quantFlags c).rng = true := by
  cases h : isFinite c with
  | true =>
    simp only [quantFlags, fge_fabs_sixteen_iff h, outOfSignedRange_iff h] at *
    rcases abs_cases (val c) with ⟨e, _⟩ | ⟨e, _⟩ <;> rw [e] at ho
    · left; linarith
    · right; norm_num; linarith
  | false =>
    rcases not_isFinite h with hn | ⟨hi, _⟩
    · simp [quantFlags, fge, fle, isNaN_fabs hn] at ho
    · rcases eq_of_isInf hi with rfl | rfl <;> decide

/-- Quant gives nine combinations of flags. -/
theorem quantFlags_possible (c : Binary64) : flagsPossible (slotFlagBits (quantFlags c)) = true := by
  cases h : isFinite c with
  | true =>
    have hnf : (quantFlags c).nf = false := by simp [quantFlags, h]
    have hro := @rng_of_ovf c
    rcases hq : quantFlags c with ⟨n, r, o, f⟩
    rw [hq] at hro hnf
    cases n <;> cases r <;> cases o <;> simp_all <;> decide
  | false =>
    rcases not_isFinite h with hn | ⟨hi, _⟩
    · have hovf : (quantFlags c).ovf = false := by simp [quantFlags, fge, fle, isNaN_fabs hn]
      have hrng : (quantFlags c).rng = false := by simp [quantFlags, outOfSignedRange, fge, fle, hn]
      have hnf : (quantFlags c).nf = true := by simp [quantFlags, h]
      have hneg : (quantFlags c).neg = true := by simp [quantFlags, fgt, flt, hn]
      rcases hq : quantFlags c with ⟨n, r, o, f⟩
      rw [hq] at hovf hrng hnf hneg
      simp_all
      decide
    · rcases eq_of_isInf hi with rfl | rfl <;> decide

end Sys2Proof.Laws
end

