-- ==== Sys2Proof/Laws/Rounding.lean ====
section
/-! SUPPORT. What the one rounding of Machine/Binary64.lean does, in whole units: it answers a representable number
nearest to the exact ratio, the even one of two, or infinity from the half step above the largest on. -/

namespace Sys2Proof.Laws

open Sys2Proof.Machine

/-- The rounded whole number lies within half a step of the ratio, and on the half step it is even. -/
theorem roundHalfEven_spec (num : Nat) {den : Nat} (hd : 0 < den) :
    2 * num ≤ (2 * roundHalfEven num den + 1) * den ∧ 2 * (roundHalfEven num den * den) ≤ 2 * num + den ∧
    (2 * num = (2 * roundHalfEven num den + 1) * den ∨ 2 * (roundHalfEven num den * den) = 2 * num + den →
      roundHalfEven num den % 2 = 0) := by
  have hdm := Nat.div_add_mod num den
  have hlt := Nat.mod_lt num hd
  have hexp : (2 * (num / den) + 1) * den = 2 * (den * (num / den)) + den := by ring
  have hexp' : (2 * (num / den + 1) + 1) * den = 2 * (den * (num / den)) + 3 * den := by ring
  have hexp'' : 2 * ((num / den + 1) * den) = 2 * (den * (num / den)) + 2 * den := by ring
  have hexp3 : 2 * (num / den * den) = 2 * (den * (num / den)) := by ring
  unfold roundHalfEven
  dsimp only
  split
  · rw [hexp, hexp3]; omega
  · split
    · rw [hexp', hexp'']; omega
    · rcases Nat.mod_two_eq_zero_or_one (num / den) with he | he
      · rw [show num / den + num / den % 2 = num / den by omega, hexp, hexp3]
        omega
      · rw [he, hexp', hexp'']; omega

/-- The rounded whole number is the ratio's floor or one more. -/
theorem roundHalfEven_bounds (num den : Nat) :
    num / den ≤ roundHalfEven num den ∧ roundHalfEven num den ≤ num / den + 1 := by
  unfold roundHalfEven
  dsimp only
  split
  · omega
  · split
    · omega
    · omega

/-- A significand of 53 bits (or fewer, with no excess) added to the exponent field denotes itself times the excess. -/
theorem unitsOfMag_excess {e r : Nat} (h : r ≤ 2 ^ 53) (h' : e = 0 ∨ 2 ^ 52 ≤ r) :
    unitsOfMag (e * 2 ^ 52 + r) = r * 2 ^ e := by
  unfold unitsOfMag
  rcases Nat.lt_or_ge r (2 ^ 52) with hr | hr
  · obtain rfl : e = 0 := by omega
    rw [if_pos (by omega), pow_zero]
    omega
  · rcases Nat.lt_or_ge r (2 ^ 53) with hr' | hr'
    · have h1 : (e * 2 ^ 52 + r) / 2 ^ 52 = e + 1 := by omega
      have h2 : 2 ^ 52 + (e * 2 ^ 52 + r) % 2 ^ 52 = r := by omega
      rw [h1, if_neg (by omega), h2, Nat.add_sub_cancel]
    · obtain rfl : r = 2 ^ 53 := by omega
      have h1 : (e * 2 ^ 52 + 2 ^ 53) / 2 ^ 52 = e + 1 + 1 := by omega
      have h2 : 2 ^ 52 + (e * 2 ^ 52 + 2 ^ 53) % 2 ^ 52 = 2 ^ 52 := by omega
      rw [h1, if_neg (by omega), h2, Nat.add_sub_cancel, pow_succ]
      ring

/-- Everything roundUnits does: the excess is the least that leaves 53 bits, and the rounded significand has at most one
bit more. -/
theorem roundUnits_spec (num den : Nat) : ∃ e r,
    roundUnits num den = min (e * 2 ^ 52 + r) infMag ∧ r ≤ 2 ^ 53 ∧ (e = 0 ∨ 2 ^ 52 ≤ r) ∧
    r = roundHalfEven num (den * 2 ^ e) ∧ (e = 0 ∨ den * 2 ^ (52 + e) ≤ num) := by
  refine ⟨excessBits (num / den), roundHalfEven num (den * 2 ^ excessBits (num / den)), rfl, ?_, ?_, rfl, ?_⟩
  all_goals
    have hq : num / (den * 2 ^ excessBits (num / den)) = num / den / 2 ^ excessBits (num / den) :=
      (Nat.div_div_eq_div_mul ..).symm
    have hb := roundHalfEven_bounds num (den * 2 ^ excessBits (num / den))
    have hup : num / den < 2 ^ ((num / den).log2 + 1) := Nat.lt_log2_self
  · have : num / den / 2 ^ excessBits (num / den) < 2 ^ 53 := by
      rw [Nat.div_lt_iff_lt_mul (Nat.two_pow_pos _), ← pow_add]
      exact lt_of_lt_of_le hup (Nat.pow_le_pow_right (by norm_num) (by unfold excessBits; omega))
    omega
  · rcases Nat.eq_zero_or_pos (excessBits (num / den)) with h0 | h0
    · exact .inl h0
    · right
      have hne : num / den ≠ 0 := fun hz => by simp [excessBits, hz] at h0
      have : 2 ^ 52 ≤ num / den / 2 ^ excessBits (num / den) := by
        rw [Nat.le_div_iff_mul_le (Nat.two_pow_pos _), ← pow_add]
        exact le_trans (Nat.pow_le_pow_right (by norm_num) (by unfold excessBits at *; omega)) (Nat.log2_self_le hne)
      omega
  · rcases Nat.eq_zero_or_pos (excessBits (num / den)) with h0 | h0
    · exact .inl h0
    · right
      have hne : num / den ≠ 0 := fun hz => by simp [excessBits, hz] at h0
      have h1 : 2 ^ (52 + excessBits (num / den)) ≤ num / den :=
        le_trans (Nat.pow_le_pow_right (by norm_num) (by unfold excessBits at *; omega)) (Nat.log2_self_le hne)
      exact le_trans (Nat.mul_le_mul_left den h1) (Nat.mul_div_le num den)

/-- A representable number from 2^(52+e) units up is a multiple of 2^e units. -/
theorem dvd_unitsOfMag {e m : Nat} (h : 2 ^ (52 + e) ≤ unitsOfMag m) : 2 ^ e ∣ unitsOfMag m := by
  have hmod := Nat.mod_lt m (show 0 < 2 ^ 52 by norm_num)
  unfold unitsOfMag at *
  split at h
  · exfalso
    have : 2 ^ 52 ≤ 2 ^ (52 + e) := Nat.pow_le_pow_right (by norm_num) (by omega)
    omega
  · rename_i h0
    rw [if_neg h0]
    apply Dvd.dvd.mul_left
    apply pow_dvd_pow
    by_contra hlt
    have h1 : (2 ^ 52 + m % 2 ^ 52) * 2 ^ (m / 2 ^ 52 - 1) < 2 ^ 53 * 2 ^ (m / 2 ^ 52 - 1) :=
      Nat.mul_lt_mul_of_pos_right (by omega) (Nat.two_pow_pos _)
    rw [← pow_add] at h1
    have h2 : 2 ^ (53 + (m / 2 ^ 52 - 1)) ≤ 2 ^ (52 + e) := Nat.pow_le_pow_right (by norm_num) (by omega)
    omega

/-- The answer is a representable number nearest to the ratio; where another is as near, the answer is even. -/
theorem roundUnits_nearest {num den : Nat} (hd : 0 < den) (hfin : roundUnits num den < infMag) (m : Nat) :
    |(unitsOfMag (roundUnits num den) : Int) * den - num| ≤ |(unitsOfMag m : Int) * den - num| ∧
    (|(unitsOfMag (roundUnits num den) : Int) * den - num| = |(unitsOfMag m : Int) * den - num| →
      unitsOfMag m ≠ unitsOfMag (roundUnits num den) → roundUnits num den % 2 = 0) := by
  obtain ⟨e, r, hru, hr53, hr52, hr, hnum⟩ := roundUnits_spec num den
  have hmag : roundUnits num den = e * 2 ^ 52 + r := by omega
  have hu : unitsOfMag (roundUnits num den) = r * 2 ^ e := by rw [hmag, unitsOfMag_excess hr53 hr52]
  have heven : r % 2 = 0 → roundUnits num den % 2 = 0 := fun h => by rw [hmag]; omega
  have hD : 0 < den * 2 ^ e := Nat.mul_pos hd (Nat.two_pow_pos e)
  obtain ⟨s1, s2, s3⟩ := roundHalfEven_spec num hD
  rw [← hr] at s1 s2 s3
  rw [hu]
  generalize hDD : den * 2 ^ e = D at *
  -- a multiple of 2^e units
  have mult : ∀ k : Nat, |(r : Int) * D - num| ≤ |(k : Int) * D - num| ∧
      (|(r : Int) * D - num| = |(k : Int) * D - num| → k ≠ r → r % 2 = 0) := by
    intro k
    have s1' : 2 * (num : Int) ≤ 2 * (r * D) + D := by have := Int.ofNat_le.mpr s1; push_cast at this; linarith
    have s2' : 2 * ((r : Int) * D) ≤ 2 * num + D := by have := Int.ofNat_le.mpr s2; push_cast at this; linarith
    have hD' : (0 : Int) < D := by exact_mod_cast hD
    have habs : 2 * |(r : Int) * D - num| ≤ D := by
      rcases abs_cases ((r : Int) * D - num) with ⟨h, _⟩ | ⟨h, _⟩ <;> rw [h] <;> linarith
    rcases lt_trichotomy k r with hk | hk | hk
    · have hk' : (k : Int) * D + D ≤ r * D := by
        have : (k : Int) + 1 ≤ r := by exact_mod_cast hk
        nlinarith
      have hk2 : |(k : Int) * D - num| = num - k * D ∨ |(k : Int) * D - num| = k * D - num ∧ (num : Int) ≤ k * D := by
        rcases abs_cases ((k : Int) * D - num) with ⟨h, h'⟩ | ⟨h, _⟩
        · exact .inr ⟨h, by linarith⟩
        · exact .inl (by rw [h]; ring)
      have hge : (D : Int) ≤ 2 * |(k : Int) * D - num| := by
        rcases hk2 with h | ⟨h, h'⟩ <;> rw [h] <;> linarith
      refine ⟨by linarith, fun heq _ => s3 (.inr ?_)⟩
      have hDeq : 2 * |(r : Int) * D - num| = D := by linarith
      rcases hk2 with h | ⟨h, h'⟩
      · have : 2 * ((r : Int) * D) = 2 * num + D := by
          rw [heq, h] at hDeq
          linarith
        exact_mod_cast this
      · linarith
    · subst hk
      exact ⟨le_rfl, fun _ h => absurd rfl h⟩
    · have hk' : (r : Int) * D + D ≤ k * D := by
        have : (r : Int) + 1 ≤ k := by exact_mod_cast hk
        nlinarith
      have hk2 : |(k : Int) * D - num| = k * D - num ∨ |(k : Int) * D - num| = num - k * D ∧ (k : Int) * D ≤ num := by
        rcases abs_cases ((k : Int) * D - num) with ⟨h, _⟩ | ⟨h, h'⟩
        · exact .inl h
        · exact .inr ⟨by rw [h]; ring, by linarith⟩
      have hge : (D : Int) ≤ 2 * |(k : Int) * D - num| := by
        rcases hk2 with h | ⟨h, h'⟩ <;> rw [h] <;> linarith
      refine ⟨by linarith, fun heq _ => s3 (.inl ?_)⟩
      have hDeq : 2 * |(r : Int) * D - num| = D := by linarith
      rcases hk2 with h | ⟨h, h'⟩
      · have : 2 * (num : Int) = (2 * r + 1) * D := by
          rw [heq, h] at hDeq
          linarith
        exact_mod_cast this
      · linarith
  have cast : ∀ k : Nat, ((k * 2 ^ e : Nat) : Int) * den = (k : Int) * D := fun k => by
    rw [← hDD]; push_cast; ring
  rw [cast]
  rcases Nat.lt_or_ge (unitsOfMag m) (2 ^ (52 + e)) with hlt | hge
  · rcases Nat.eq_zero_or_pos e with he | he
    · subst he
      have hm := mult (unitsOfMag m)
      have hc := cast (unitsOfMag m)
      rw [pow_zero, Nat.mul_one] at hc
      rw [hc]
      exact ⟨hm.1, fun h1 h2 => heven (hm.2 h1 (by simpa using h2))⟩
    · have hn : den * 2 ^ (52 + e) ≤ num := by omega
      have h52 := (mult (2 ^ 52)).1
      have hc := cast (2 ^ 52)
      rw [← pow_add] at hc
      rw [← hc] at h52
      have hn' : ((2 ^ (52 + e) : Nat) : Int) * den ≤ num := by
        have : (2 ^ (52 + e)) * den ≤ num := by rw [Nat.mul_comm]; exact hn
        exact_mod_cast this
      have hd' : (0 : Int) < den := by exact_mod_cast hd
      have hlt' : (unitsOfMag m : Int) * den < ((2 ^ (52 + e) : Nat) : Int) * den :=
        mul_lt_mul_of_pos_right (by exact_mod_cast hlt) hd'
      have ha : |((2 ^ (52 + e) : Nat) : Int) * den - num| = num - ((2 ^ (52 + e) : Nat) : Int) * den := by
        rw [abs_of_nonpos (by linarith)]; ring
      have hb : |(unitsOfMag m : Int) * den - num| = num - (unitsOfMag m : Int) * den := by
        rw [abs_of_nonpos (by linarith)]; ring
      rw [ha] at h52
      rw [hb]
      exact ⟨by linarith, fun h _ => by exfalso; linarith⟩
  · obtain ⟨k, hk⟩ := dvd_unitsOfMag hge
    have hm := mult k
    have hc := cast k
    rw [Nat.mul_comm] at hk
    rw [hk, hc]
    refine ⟨hm.1, fun h1 h2 => heven (hm.2 h1 fun hkr => h2 (by rw [hkr]))⟩

theorem overflow_below {num r D E X : Nat} (s1 : 2 * num ≤ (2 * r + 1) * D) (hr53 : r ≤ 2 ^ 53)
    (h2 : D * 2 ≤ E) (hpos : 0 < E) (half : 2 * X + E = 2 ^ 54 * E) : ¬ X ≤ num := by
  have h1 : (2 * r + 1) * D ≤ (2 ^ 54 + 1) * D := Nat.mul_le_mul_right _ (by clear half; omega)
  intro h
  linarith

theorem overflow_at {num r D X : Nat} (s1 : 2 * num ≤ (2 * r + 1) * D) (s2 : 2 * (r * D) ≤ 2 * num + D)
    (s3 : 2 * num = (2 * r + 1) * D → r % 2 = 0) (hr53 : r ≤ 2 ^ 53) (hpos : 0 < D)
    (half : 2 * X + D = 2 ^ 54 * D) : r = 2 ^ 53 ↔ X ≤ num := by
  constructor
  · rintro rfl
    linarith
  · intro h
    by_contra hlt
    have h1 : (2 * r + 1 + 1) * D ≤ 2 ^ 54 * D := Nat.mul_le_mul_right _ (by clear half; omega)
    have hx : (2 * r + 1 + 1) * D = (2 * r + 1) * D + D := Nat.succ_mul _ _
    have h2 : 2 * num = (2 * r + 1) * D := le_antisymm s1 (by linarith)
    have h3 : (2 * r + 1 + 1) * D = 2 ^ 54 * D := le_antisymm h1 (by linarith)
    have h4 := Nat.eq_of_mul_eq_mul_right hpos h3
    have h5 := s3 h2
    clear half h1 hx h2 h3 s1 s2 s3 h hlt
    omega

theorem overflow_above {num E F X : Nat} (h1 : E ≤ num) (h2 : F * 2 ^ 53 ≤ E) (half : 2 * X + F = 2 ^ 54 * F) :
    X ≤ num := by
  linarith

/-- A rounded number reaches exponent field K + 3 exactly from half a step below 2^(K + 54) units on. -/
theorem overflow_iff {num den K e r : Nat} (hd : 0 < den) (hr53 : r ≤ 2 ^ 53) (hr52 : e = 0 ∨ 2 ^ 52 ≤ r)
    (hr : r = roundHalfEven num (den * 2 ^ e)) (hnum : e = 0 ∨ den * 2 ^ (52 + e) ≤ num) :
    (K + 3) * 2 ^ 52 ≤ e * 2 ^ 52 + r ↔ den * ((2 ^ 54 - 1) * 2 ^ K) ≤ num := by
  have below : e < K + 1 → ¬ (K + 3) * 2 ^ 52 ≤ e * 2 ^ 52 + r := fun h => by clear hr hnum; omega
  have at_ : e = K + 1 → ((K + 3) * 2 ^ 52 ≤ e * 2 ^ 52 + r ↔ r = 2 ^ 53) := fun h => by clear hr hnum; omega
  have above : K + 1 < e → (K + 3) * 2 ^ 52 ≤ e * 2 ^ 52 + r := fun h => by clear hr hnum; omega
  have half : 2 * (den * ((2 ^ 54 - 1) * 2 ^ K)) + den * 2 ^ (K + 1) = 2 ^ 54 * (den * 2 ^ (K + 1)) := by
    have h1 : (2 ^ 54 - 1) * 2 ^ K + 2 ^ K = 2 ^ 54 * 2 ^ K := by
      rw [Nat.sub_mul, Nat.one_mul, Nat.sub_add_cancel (Nat.le_mul_of_pos_left _ (by norm_num))]
    rw [pow_succ 2 K]
    calc 2 * (den * ((2 ^ 54 - 1) * 2 ^ K)) + den * (2 ^ K * 2)
        = 2 * den * ((2 ^ 54 - 1) * 2 ^ K + 2 ^ K) := by ring
      _ = 2 ^ 54 * (den * (2 ^ K * 2)) := by rw [h1]; ring
  have hpos : 0 < den * 2 ^ (K + 1) := Nat.mul_pos hd (Nat.two_pow_pos _)
  obtain ⟨s1, s2, s3⟩ := roundHalfEven_spec num (Nat.mul_pos hd (Nat.two_pow_pos e))
  rw [← hr] at s1 s2 s3
  rcases Nat.lt_trichotomy e (K + 1) with he | he | he
  · have h2 : den * 2 ^ e * 2 ≤ den * 2 ^ (K + 1) := by
      rw [Nat.mul_assoc, ← pow_succ]
      exact Nat.mul_le_mul_left den (Nat.pow_le_pow_right (by norm_num) he)
    exact ⟨fun h => absurd h (below he), fun h => absurd h (overflow_below s1 hr53 h2 hpos half)⟩
  · rw [at_ he]
    subst he
    exact overflow_at s1 s2 (fun h => s3 (.inl h)) hr53 hpos half
  · have h2 : den * 2 ^ (K + 1) * 2 ^ 53 ≤ den * 2 ^ (52 + e) := by
      rw [Nat.mul_assoc, ← pow_add]
      exact Nat.mul_le_mul_left den (Nat.pow_le_pow_right (by norm_num) (by clear hr hnum half s1 s2 s3; omega))
    have h1 := hnum.resolve_left (by clear hr hnum half s1 s2 s3; omega)
    exact ⟨fun _ => overflow_above h1 h2 half, fun _ => above he⟩

/-- The answer is infinity exactly from half a step above the largest finite number on. -/
theorem roundUnits_inf_iff (num : Nat) {den : Nat} (hd : 0 < den) :
    roundUnits num den = infMag ↔ den * ((2 ^ 54 - 1) * 2 ^ 2044) ≤ num := by
  obtain ⟨e, r, hru, hr53, hr52, hr, hnum⟩ := roundUnits_spec num den
  rw [← overflow_iff (K := 2044) hd hr53 hr52 hr hnum, hru]
  unfold infMag
  omega

/-! Numbers that need no rounding. -/

theorem roundHalfEven_exact (n : Nat) {den : Nat} (hd : 0 < den) : roundHalfEven (n * den) den = n := by
  unfold roundHalfEven
  simp only [Nat.mul_div_cancel _ hd, Nat.mul_mod_left]
  rw [if_pos (by omega)]

/-- A number of at most 53 significant bits below exponent field K + 2 is rounded to itself. -/
theorem roundUnits_scaled {U den s k K : Nat} (hd : 0 < den) (hs : s < 2 ^ 53) (hU : U = s * 2 ^ k)
    (hb : U < 2 ^ (53 + K)) (hK : (K + 2) * 2 ^ 52 ≤ infMag) :
    roundUnits (U * den) den < (K + 2) * 2 ^ 52 ∧ unitsOfMag (roundUnits (U * den) den) = U := by
  obtain ⟨e, r, hru, hr53, hr52, hr, hnum⟩ := roundUnits_spec (U * den) den
  have hdv : 2 ^ e ∣ U := by
    rcases hnum with h0 | h1
    · rw [h0, pow_zero]
      exact one_dvd U
    · rw [Nat.mul_comm U] at h1
      have h2 : 2 ^ (52 + e) ≤ U := Nat.le_of_mul_le_mul_left h1 hd
      have h3 : U < 2 ^ (53 + k) := by
        rw [hU, pow_add]
        exact Nat.mul_lt_mul_of_pos_right hs (Nat.two_pow_pos _)
      have h4 : 52 + e < 53 + k := (Nat.pow_lt_pow_iff_right (by norm_num : 1 < 2)).mp (lt_of_le_of_lt h2 h3)
      rw [hU]
      exact Dvd.dvd.mul_left (pow_dvd_pow 2 (by omega)) s
  obtain ⟨q, hq⟩ := hdv
  have hrq : r = q := by
    rw [hr, hq, show 2 ^ e * q * den = q * (den * 2 ^ e) by ring]
    exact roundHalfEven_exact _ (Nat.mul_pos hd (Nat.two_pow_pos e))
  have hUr : r * 2 ^ e = U := by rw [hrq, hq, Nat.mul_comm]
  have hlt : e * 2 ^ 52 + r < (K + 2) * 2 ^ 52 := by
    by_contra hge
    rw [← hUr] at hb
    rcases Nat.lt_trichotomy e K with h | h | h
    · clear hb hUr hru hr hnum hq hU hrq
      omega
    · subst h
      have hr' : r = 2 ^ 53 := by
        clear hb hUr hru hr hnum hq hU hrq
        omega
      rw [hr', ← pow_add] at hb
      exact absurd hb (lt_irrefl _)
    · have hr' : 2 ^ 52 ≤ r := hr52.resolve_left (by omega)
      have h5 : 2 ^ 52 * 2 ^ (K + 1) ≤ r * 2 ^ e := Nat.mul_le_mul hr' (Nat.pow_le_pow_right (by norm_num) h)
      rw [← pow_add, show 52 + (K + 1) = 53 + K by ring] at h5
      omega
  have heq : roundUnits (U * den) den = e * 2 ^ 52 + r := by
    rw [hru]
    exact min_eq_left (le_trans hlt.le hK)
  rw [heq]
  exact ⟨hlt, by rw [unitsOfMag_excess hr53 hr52, hUr]⟩

end Sys2Proof.Laws
end

