-- ==== Sys2Proof/Laws/Arithmetic.lean ====
section
/-! SUPPORT. The four operations of Machine/Binary64.lean by the kinds of their operands: NaN, infinite, zero, finite. -/

namespace Sys2Proof.Laws

open Sys2Proof.Machine

/-! Patterns that withSign builds. -/

theorem infMag_lt : infMag < 2 ^ 63 := by decide

theorem roundUnits_le (num den : Nat) : roundUnits num den ≤ infMag := by
  unfold roundUnits
  exact min_le_right _ _

theorem roundUnits_lt (num den : Nat) : roundUnits num den < 2 ^ 63 := lt_of_le_of_lt (roundUnits_le num den) infMag_lt

@[simp] theorem roundUnits_zero (den : Nat) : roundUnits 0 den = 0 := by
  simp [roundUnits, excessBits, roundHalfEven]

theorem withSign_self (x : Binary64) : withSign (fsign x) (fmag x) = x :=
  binary64_ext (by simp) (fmag_withSign (fmag_lt x))

theorem isNaN_withSign {neg : Bool} {m : Nat} (h : m ≤ infMag) : isNaN (withSign neg m) = false := by
  cases hn : isNaN (withSign neg m) with
  | false => rfl
  | true =>
    have := (isNaN_iff _).mp hn
    rw [fmag_withSign (lt_of_le_of_lt h infMag_lt)] at this
    omega

@[simp] theorem isNaN_canonicalNaN : isNaN Config.canonicalNaN = true := by decide

@[simp] theorem isNaN_fneg (x : Binary64) : isNaN (fneg x) = isNaN x := by
  rw [Bool.eq_iff_iff, isNaN_iff, isNaN_iff, fmag_fneg]

theorem isNaN_of_isInf {x : Binary64} (h : isInf x = true) : isNaN x = false := by
  rcases eq_of_isInf h with rfl | rfl <;> decide

theorem isZero_of_isInf {x : Binary64} (h : isInf x = true) : isZero x = false := by
  rcases eq_of_isInf h with rfl | rfl <;> decide

theorem isFinite_of {x : Binary64} (hn : isNaN x = false) (hi : isInf x = false) : isFinite x = true := by
  by_contra hf
  rcases not_isFinite (by simpa using hf) with h | ⟨h, _⟩
  · rw [hn] at h; cases h
  · rw [hi] at h; cases h

theorem eq_of_isZero {x : Binary64} (h : isZero x = true) : x = Lit.zero ∨ x = Lit.negZero := by
  have hm := (isZero_iff x).mp h
  cases hs : fsign x with
  | false => exact .inl (binary64_ext (by rw [hs]; decide) (by rw [hm]; decide))
  | true => exact .inr (binary64_ext (by rw [hs]; decide) (by rw [hm]; decide))

theorem units_pos {x : Binary64} (h : isZero x = false) : 0 < units x := by
  rw [units_eq]
  have h1 : fmag x ≠ 0 := fun hm => by simp [(isZero_iff x).mpr hm] at h
  have h2 := unitsOfMag_strictMono (show 0 < fmag x by omega)
  simpa using h2

/-! Rounding of a number that needs none. -/

theorem unitsOfMag_lt {K m : Nat} (h : m < (K + 3) * 2 ^ 52) : unitsOfMag m < (2 ^ 54 - 1) * 2 ^ K := by
  have h2 : unitsOfMag m ≤ unitsOfMag ((K + 1) * 2 ^ 52 + (2 ^ 53 - 1)) := unitsOfMag_strictMono.monotone (by omega)
  rw [unitsOfMag_excess (by norm_num) (by norm_num), pow_succ] at h2
  have h3 : ∀ P : Nat, 0 < P → (2 ^ 53 - 1) * (P * 2) < (2 ^ 54 - 1) * P := fun P hP => by omega
  exact lt_of_le_of_lt h2 (h3 _ (Nat.two_pow_pos K))

theorem units_lt {x : Binary64} (h : isFinite x = true) : units x < (2 ^ 54 - 1) * 2 ^ 2044 := by
  rw [units_eq]
  exact unitsOfMag_lt ((isFinite_iff x).mp h)

theorem roundUnits_exact {x : Binary64} (h : isFinite x = true) {den : Nat} (hd : 0 < den) :
    roundUnits (units x * den) den = fmag x := by
  have hfin : roundUnits (units x * den) den < infMag := by
    rcases Nat.lt_or_eq_of_le (roundUnits_le (units x * den) den) with h1 | h1
    · exact h1
    · rw [roundUnits_inf_iff _ hd, Nat.mul_comm] at h1
      exact absurd (Nat.le_of_mul_le_mul_right h1 hd) (not_le.mpr (units_lt h))
  have h2 := (roundUnits_nearest hd hfin (fmag x)).1
  rw [← units_eq, Nat.cast_mul, sub_self, abs_zero] at h2
  have h3 := sub_eq_zero.mp (abs_nonpos_iff.mp h2)
  have h4 : unitsOfMag (roundUnits (units x * den) den) = units x :=
    Nat.eq_of_mul_eq_mul_right hd (by exact_mod_cast h3)
  rw [units_eq x] at h4 ⊢
  exact unitsOfMag_strictMono.injective h4

/-- What a signed rounded ratio is: a finite number nearest to the exact one, on a tie the even one, or an infinity of its
sign from the half step above the largest finite number on. -/
theorem withSign_roundUnits_spec {neg : Bool} {num den : Nat} (hd : 0 < den) {e : Rat}
    (he : e * 2 ^ 1074 = (if neg then -1 else 1) * ((num : Rat) / den)) {r : Binary64}
    (hr : r = withSign neg (roundUnits num den)) :
    (isFinite r = true → ∀ z : Binary64, isFinite z = true →
      |val r - e| ≤ |val z - e| ∧ (|val r - e| = |val z - e| → val z ≠ val r → ffrac r % 2 = 0)) ∧
    (isFinite r = false ↔ 2 ^ 1024 - 2 ^ 970 ≤ |e|) ∧
    (isFinite r = false → r = (if 0 < e then Lit.posInf else Lit.negInf)) := by
  have hmag : fmag r = roundUnits num den := by rw [hr, fmag_withSign (roundUnits_lt _ _)]
  have hsg : fsign r = neg := by rw [hr, fsign_withSign]
  have hd' : (0:Rat) < den := by exact_mod_cast hd
  obtain ⟨B, hB0, hBv⟩ : ∃ B : Rat, 0 < B ∧ B = 2^1074 := ⟨2^1074, pow_pos (by norm_num) _, rfl⟩
  have hval : ∀ x, val x * B = signedUnits x := by intro x; rw [hBv]; unfold val; exact div_mul_cancel₀ _ (by rw [← hBv]; exact hB0.ne')
  rw [← hBv] at he
  have habs_e : |e| * B * den = num := by
    have : |e * B| = (num:Rat)/den := by
      rw [he]; cases neg <;> simp [abs_div]
    rw [abs_mul, abs_of_pos hB0] at this
    rw [this]; field_simp
  have hfin : isFinite r = false ↔ roundUnits num den = infMag := by
    rw [← Bool.not_eq_true, isFinite_iff, hmag]
    have := roundUnits_le num den
    omega
  refine ⟨?_, ?_, ?_⟩
  · intro hf z hz
    have hlt : roundUnits num den < infMag := by rw [← hmag]; exact (isFinite_iff r).1 hf
    have near := roundUnits_nearest hd hlt
    -- scale: D x := |val x - e| * B * den = |signedUnits x * den - ±num|
    have sc : ∀ x, |val x - e| * (B * den) = |(signedUnits x : Rat) * den - (if neg then -1 else 1) * num| := by
      intro x
      have hBd : 0 < B * den := mul_pos hB0 hd'
      rw [← abs_of_pos hBd, ← abs_mul]
      congr 1
      have h1 := hval x
      calc (val x - e) * (B * den) = (val x * B) * den - (e * B) * den := by ring
        _ = (signedUnits x : Rat) * den - ((if neg then -1 else 1) * ((num : Rat) / den)) * den := by rw [h1, he]
        _ = _ := by rw [mul_assoc, div_mul_cancel₀ _ hd'.ne']
    have hBd : 0 < B * den := mul_pos hB0 hd'
    -- integer statement
    have main : |(signedUnits r) * (den:Int) - (if neg then -1 else 1) * num| ≤ |(signedUnits z) * (den:Int) - (if neg then -1 else 1) * num| ∧
       (|(signedUnits r) * (den:Int) - (if neg then -1 else 1) * num| = |(signedUnits z) * (den:Int) - (if neg then -1 else 1) * num| → signedUnits z ≠ signedUnits r → fmag r % 2 = 0) := by
      have nz := near (fmag z)
      have n0 := near 0
      rw [unitsOfMag_zero] at n0
      rw [signedUnits_eq, signedUnits_eq, hmag, hsg]
      generalize unitsOfMag (roundUnits num den) = u at *
      have hru : ∀ w : Nat, w * (den:Int) ≥ 0 := fun w => by positivity
      have hnum : (num : Int) ≥ 0 := by positivity
      generalize hw : unitsOfMag (fmag z) = w at *
      have h1 := hru u; have h2 := hru w
      have n0' : |(u:Int) * den - num| ≤ num := by
        have := n0.1; simpa using this
      have flip : ∀ w : Nat, |-(w:Int) * den - -1 * num| = |(w:Int) * den - num| := fun w => by
        rw [← abs_neg]; congr 1; ring
      cases neg with
      | false =>
        simp only [Bool.false_eq_true, if_false, one_mul]
        cases hz : fsign z with
        | false =>
          simp only [Bool.false_eq_true, if_false]
          refine ⟨nz.1, fun h3 h4 => nz.2 h3 (by exact_mod_cast h4)⟩
        | true =>
          simp only [if_true]
          have e2 : |-(w:Int) * den - num| = w * den + num := by rw [abs_of_nonpos (by linarith)]; ring
          rw [e2]
          refine ⟨by linarith, fun h3 h4 => ?_⟩
          have hw0 : (w:Int) * den = 0 := by linarith
          have hw1 : w = 0 := by
            rcases mul_eq_zero.1 hw0 with h | h
            · exact_mod_cast h
            · have : den = 0 := by exact_mod_cast h
              omega
          subst hw1
          refine n0.2 ?_ ?_
          · rw [h3]; simp
          · intro hh; apply h4; rw [← hh]; rfl
      | true =>
        simp only [if_true]
        rw [flip]
        cases hz : fsign z with
        | true =>
          simp only [if_true]
          rw [flip]
          refine ⟨nz.1, fun h3 h4 => nz.2 h3 (fun hh => h4 (by rw [hh]))⟩
        | false =>
          simp only [Bool.false_eq_true, if_false]
          have e2 : |(w:Int) * den - -1 * num| = w * den + num := by rw [abs_of_nonneg (by linarith)]; ring
          rw [e2]
          refine ⟨by linarith, fun h3 h4 => ?_⟩
          have hw0 : (w:Int) * den = 0 := by linarith
          have hw1 : w = 0 := by
            rcases mul_eq_zero.1 hw0 with h | h
            · exact_mod_cast h
            · have : den = 0 := by exact_mod_cast h
              omega
          subst hw1
          refine n0.2 ?_ ?_
          · rw [h3]; simp
          · intro hh; apply h4; rw [← hh]; rfl
    have cst : ∀ x, |(signedUnits x : Rat) * den - (if neg then -1 else 1) * num| = ((|(signedUnits x) * (den:Int) - (if neg then -1 else 1) * num| : Int) : Rat) := by
      intro x; cases neg <;> push_cast <;> rfl
    constructor
    · have := main.1
      have h2 : |val r - e| * (B * den) ≤ |val z - e| * (B * den) := by
        rw [sc, sc, cst, cst]; exact_mod_cast this
      exact le_of_mul_le_mul_right h2 hBd
    · intro h1 h2
      rw [ffrac_eq]
      have h3 : |val r - e| * (B * den) = |val z - e| * (B * den) := by rw [h1]
      rw [sc, sc, cst, cst] at h3
      have := main.2 (by exact_mod_cast h3) (fun hh => h2 (by unfold val; rw [hh]))
      omega
  · rw [hfin, roundUnits_inf_iff num hd]
    -- den * T ≤ num ↔ 2^1024 - 2^970 ≤ |e|
    have hT : (((2 ^ 54 - 1) * 2 ^ 2044 : Nat) : Rat) = (2^1024 - 2^970) * B := by
      rw [hBv, Nat.cast_mul, Nat.cast_pow, show ((2 ^ 54 - 1 : Nat) : Rat) = 2^54 - 1 by norm_num, Nat.cast_ofNat]
      rw [show (2044 : Nat) = 970 + 1074 from rfl, pow_add (2:Rat) 970 1074, show (1024 : Nat) = 54 + 970 from rfl, pow_add (2:Rat) 54 970]
      ring_nf
    generalize (2 ^ 54 - 1) * 2 ^ 2044 = T at *
    have hBd : 0 < B * den := mul_pos hB0 hd'
    have : (den * T ≤ num) ↔ ((den * T : Nat) : Rat) ≤ num := by exact_mod_cast Iff.rfl
    rw [this, ← habs_e]; push_cast; rw [hT]
    constructor
    · intro h
      have : (2^1024 - 2^970 : Rat) * (B * den) ≤ |e| * (B * den) := by linarith
      exact le_of_mul_le_mul_right this hBd
    · intro h
      have := mul_le_mul_of_nonneg_right h hBd.le
      linarith
  · intro hf
    have h1 := hfin.1 hf
    have hr2 : r = withSign neg infMag := by rw [hr, h1]
    have hnum : 0 < num := by
      rcases Nat.eq_zero_or_pos num with h | h
      · rw [h, roundUnits_zero] at h1; exact absurd h1 (by decide)
      · exact h
    have hq : (0:Rat) < num / den := by positivity
    cases neg with
    | false =>
      have : 0 < e * B := by rw [he]; simp; positivity
      have : 0 < e := by
        by_contra hh; have := mul_nonpos_of_nonpos_of_nonneg (not_lt.1 hh) hB0.le; linarith
      rw [if_pos this, hr2]; decide
    | true =>
      have : e * B < 0 := by rw [he]; simp; positivity
      have : ¬ 0 < e := by
        intro hh; have := mul_pos hh hB0; linarith
      rw [if_neg this, hr2]; decide

/-! A NaN operand. -/

theorem fadd_of_isNaN {x y : Binary64} (h : isNaN x = true ∨ isNaN y = true) : fadd x y = Config.canonicalNaN := by
  simp [fadd, h]

theorem fsub_of_isNaN {x y : Binary64} (h : isNaN x = true ∨ isNaN y = true) : fsub x y = Config.canonicalNaN := by
  unfold fsub
  split
  · rfl
  · exact fadd_of_isNaN (by simpa using h)

theorem fmul_of_isNaN {x y : Binary64} (h : isNaN x = true ∨ isNaN y = true) : fmul x y = Config.canonicalNaN := by
  simp [fmul, h]

theorem fdiv_of_isNaN {x y : Binary64} (h : isNaN x = true ∨ isNaN y = true) : fdiv x y = Config.canonicalNaN := by
  simp [fdiv, h]

/-! Finite operands. -/

theorem fadd_finite {x y : Binary64} (hx : isFinite x = true) (hy : isFinite y = true) :
    fadd x y = if signedUnits x + signedUnits y = 0 then withSign (fsign x && fsign y) 0
      else withSign (decide (signedUnits x + signedUnits y < 0)) (roundUnits (signedUnits x + signedUnits y).natAbs 1) := by
  simp [fadd, isNaN_of_isFinite hx, isNaN_of_isFinite hy, isInf_of_isFinite hx, isInf_of_isFinite hy]

theorem fsub_finite {x y : Binary64} (hy : isFinite y = true) : fsub x y = fadd x (fneg y) := by
  simp [fsub, isNaN_of_isFinite hy]

theorem fmul_finite {x y : Binary64} (hx : isFinite x = true) (hy : isFinite y = true) :
    fmul x y = withSign (fsign x != fsign y) (roundUnits (units x * units y) (2 ^ 1074)) := by
  unfold fmul
  rw [isNaN_of_isFinite hx, isNaN_of_isFinite hy, isInf_of_isFinite hx, isInf_of_isFinite hy]
  rfl

theorem fdiv_finite {x y : Binary64} (hx : isFinite x = true) (hy : isFinite y = true) (hz : isZero y = false) :
    fdiv x y = withSign (fsign x != fsign y) (roundUnits (units x * 2 ^ 1074) (units y)) := by
  unfold fdiv
  rw [isNaN_of_isFinite hx, isNaN_of_isFinite hy, isInf_of_isFinite hx, isInf_of_isFinite hy, hz]
  rfl

/-! Infinities and a zero divisor. -/

theorem fmul_inf {x y : Binary64} (hx : isNaN x = false) (hy : isNaN y = false) (hi : isInf x = true ∨ isInf y = true)
    (hzx : isZero x = false) (hzy : isZero y = false) : fmul x y = withSign (fsign x != fsign y) infMag := by
  unfold fmul
  rw [hx, hy, hzx, hzy]
  rcases hi with h | h <;> simp [h]

theorem fdiv_inf_left {x y : Binary64} (hx : isInf x = true) (hy : isFinite y = true) :
    fdiv x y = withSign (fsign x != fsign y) infMag := by
  unfold fdiv
  rw [isNaN_of_isInf hx, isNaN_of_isFinite hy, isInf_of_isFinite hy, hx]
  rfl

theorem fdiv_inf_right {x y : Binary64} (hx : isFinite x = true) (hy : isInf y = true) :
    fdiv x y = withSign (fsign x != fsign y) 0 := by
  unfold fdiv
  rw [isNaN_of_isInf hy, isNaN_of_isFinite hx, isInf_of_isFinite hx, hy]
  rfl

theorem fdiv_zero_right {x y : Binary64} (hx : isNaN x = false) (hzx : isZero x = false) (hzy : isZero y = true) :
    fdiv x y = withSign (fsign x != fsign y) infMag := by
  have hy : isNaN y = false ∧ isInf y = false := by rcases eq_of_isZero hzy with rfl | rfl <;> decide
  unfold fdiv
  rw [hx, hy.1, hy.2, hzx, hzy]
  cases isInf x <;> rfl

/-! A result that is a NaN is the canonical one. -/

theorem canonical_of_withSign {neg : Bool} {m : Nat} (hm : m ≤ infMag) :
    isNaN (withSign neg m) = true → withSign neg m = Config.canonicalNaN := fun h => by
  rw [isNaN_withSign hm] at h
  cases h

theorem fmul_canonical {x y : Binary64} : isNaN (fmul x y) = true → fmul x y = Config.canonicalNaN := by
  unfold fmul
  dsimp only
  repeat' split
  · exact fun _ => rfl
  · exact fun _ => rfl
  · exact canonical_of_withSign le_rfl
  · exact canonical_of_withSign (roundUnits_le _ _)

theorem fdiv_canonical {x y : Binary64} : isNaN (fdiv x y) = true → fdiv x y = Config.canonicalNaN := by
  unfold fdiv
  dsimp only
  repeat' split
  · exact fun _ => rfl
  · exact fun _ => rfl
  · exact canonical_of_withSign le_rfl
  · exact canonical_of_withSign (Nat.zero_le _)
  · exact fun _ => rfl
  · exact canonical_of_withSign le_rfl
  · exact canonical_of_withSign (roundUnits_le _ _)

theorem fadd_canonical {x y : Binary64} (h : isNaN (fadd x y) = true) : fadd x y = Config.canonicalNaN := by
  cases hx : isNaN x with
  | true => exact fadd_of_isNaN (.inl hx)
  | false =>
    cases hy : isNaN y with
    | true => exact fadd_of_isNaN (.inr hy)
    | false =>
      cases hix : isInf x with
      | true =>
        by_cases hc : (isInf y && (fsign x != fsign y)) = true
        · unfold fadd; simp only [hx, hy, hix, hc]; rfl
        · have hv : fadd x y = x := by unfold fadd; simp only [hx, hy, hix, hc]; rfl
          rw [hv, hx] at h; cases h
      | false =>
        cases hiy : isInf y with
        | true =>
          have hv : fadd x y = y := by unfold fadd; simp only [hx, hy, hix, hiy]; rfl
          rw [hv, hy] at h; cases h
        | false =>
          rw [fadd_finite (isFinite_of hx hix) (isFinite_of hy hiy)] at h
          split at h
          · rw [isNaN_withSign (Nat.zero_le _)] at h; cases h
          · rw [isNaN_withSign (roundUnits_le _ _)] at h; cases h

theorem fsub_canonical {x y : Binary64} (h : isNaN (fsub x y) = true) : fsub x y = Config.canonicalNaN := by
  unfold fsub at *
  split
  · rfl
  · rename_i hy
    rw [if_neg hy] at h
    exact fadd_canonical h

/-! Units. -/

theorem units_one : units Lit.one = 2 ^ 1074 := by decide +kernel

/-- Dividing by 1.0 changes nothing but a NaN's payload. -/
theorem fdiv_one {x : Binary64} (hx : isNaN x = true → x = Config.canonicalNaN) : fdiv x Lit.one = x := by
  cases hn : isNaN x with
  | true => rw [fdiv_of_isNaN (.inl hn), hx hn]
  | false =>
    cases hi : isInf x with
    | true =>
      rw [fdiv_inf_left hi (by decide), ← (isInf_iff x).mp hi, show fsign Lit.one = false by decide, Bool.bne_false,
        withSign_self]
    | false =>
      rw [fdiv_finite (isFinite_of hn hi) (by decide) (by decide), units_one,
        roundUnits_exact (isFinite_of hn hi) (Nat.two_pow_pos _), show fsign Lit.one = false by decide, Bool.bne_false,
        withSign_self]

/-- Multiplying by 1.0 changes nothing but a NaN's payload. -/
theorem fmul_one {x : Binary64} (hx : isNaN x = true → x = Config.canonicalNaN) : fmul x Lit.one = x := by
  cases hn : isNaN x with
  | true => rw [fmul_of_isNaN (.inl hn), hx hn]
  | false =>
    cases hi : isInf x with
    | true =>
      rw [fmul_inf hn (by decide) (.inl hi) (isZero_of_isInf hi) (by decide), ← (isInf_iff x).mp hi,
        show fsign Lit.one = false by decide, Bool.bne_false, withSign_self]
    | false =>
      rw [fmul_finite (isFinite_of hn hi) (by decide), units_one, roundUnits_exact (isFinite_of hn hi) (Nat.two_pow_pos _),
        show fsign Lit.one = false by decide, Bool.bne_false, withSign_self]

/-- A finite number other than zero divided by itself is 1.0. -/
theorem fdiv_self {x : Binary64} (h : isFinite x = true) (hz : isZero x = false) : fdiv x x = Lit.one := by
  rw [fdiv_finite h h hz, ← units_one, Nat.mul_comm, roundUnits_exact (by decide) (units_pos hz), bne_self_eq_false]
  decide

/-- A zero divided by, or multiplied with, another kind of number is a zero. -/
theorem zero_fdiv {z y : Binary64} (hz : isZero z = true) (hy : isNaN y = false) (hzy : isZero y = false) :
    isZero (fdiv z y) = true := by
  have hu : units z = 0 := by rw [units_eq, (isZero_iff z).mp hz, unitsOfMag_zero]
  have hf : isFinite z = true := by rcases eq_of_isZero hz with rfl | rfl <;> decide
  have key : fdiv z y = withSign (fsign z != fsign y) 0 := by
    cases hi : isInf y with
    | true => exact fdiv_inf_right hf hi
    | false => rw [fdiv_finite hf (isFinite_of hy hi) hzy, hu, Nat.zero_mul, roundUnits_zero]
  rw [key, isZero_iff, fmag_withSign (by norm_num)]

theorem zero_fmul {z y : Binary64} (hz : isZero z = true) (hy : isFinite y = true) : isZero (fmul z y) = true := by
  have hu : units z = 0 := by rw [units_eq, (isZero_iff z).mp hz, unitsOfMag_zero]
  have hf : isFinite z = true := by rcases eq_of_isZero hz with rfl | rfl <;> decide
  rw [fmul_finite hf hy, hu, Nat.zero_mul, roundUnits_zero, isZero_iff, fmag_withSign (by norm_num)]

/-- x > 0.0, of any x. -/
theorem fgt_zero_cases {x : Binary64} (h : fgt x Lit.zero = true) : fsign x = false ∧ isNaN x = false ∧ isZero x = false := by
  simp only [fgt, flt, Bool.and_eq_true, Bool.not_eq_true', decide_eq_true_eq] at h
  obtain ⟨⟨_, hn⟩, hlt⟩ := h
  rw [show forder Lit.zero = 0 by decide, forder] at hlt
  split at hlt
  · omega
  · rename_i hs
    refine ⟨by simpa using hs, hn, ?_⟩
    rw [← Bool.not_eq_true, isZero_iff]
    omega

end Sys2Proof.Laws
end

