-- ==== Sys2Proof/Laws/State.lean ====
section
/-! SUPPORT. What each named update of the state leaves in each field (Machine/Ops.lean), so that no proof unfolds an
update. -/

namespace Sys2Proof.Laws

open Sys2Proof.Machine

@[simp] theorem withStatus_status (s : State) (x : Word) : (s.withStatus x).status = x := rfl
@[simp] theorem withStatus_qflags (s : State) (x : Word) : (s.withStatus x).qflags = s.qflags := rfl
@[simp] theorem withStatus_params (s : State) (x : Word) : (s.withStatus x).params = s.params := rfl
@[simp] theorem withStatus_coefs (s : State) (x : Word) : (s.withStatus x).coefs = s.coefs := rfl
@[simp] theorem withStatus_codes (s : State) (x : Word) : (s.withStatus x).codes = s.codes := rfl
@[simp] theorem withStatus_bytes (s : State) (x : Word) : (s.withStatus x).bytes = s.bytes := rfl
@[simp] theorem withStatus_pend (s : State) (x : Word) : (s.withStatus x).pend = s.pend := rfl
@[simp] theorem withStatus_host (s : State) (x : Word) : (s.withStatus x).host = s.host := rfl
@[simp] theorem withStatus_turns (s : State) (x : Word) : (s.withStatus x).turns = s.turns := rfl

@[simp] theorem withQflags_status (s : State) (x : Word) : (s.withQflags x).status = s.status := rfl
@[simp] theorem withQflags_qflags (s : State) (x : Word) : (s.withQflags x).qflags = x := rfl
@[simp] theorem withQflags_params (s : State) (x : Word) : (s.withQflags x).params = s.params := rfl
@[simp] theorem withQflags_coefs (s : State) (x : Word) : (s.withQflags x).coefs = s.coefs := rfl
@[simp] theorem withQflags_codes (s : State) (x : Word) : (s.withQflags x).codes = s.codes := rfl
@[simp] theorem withQflags_bytes (s : State) (x : Word) : (s.withQflags x).bytes = s.bytes := rfl
@[simp] theorem withQflags_pend (s : State) (x : Word) : (s.withQflags x).pend = s.pend := rfl
@[simp] theorem withQflags_host (s : State) (x : Word) : (s.withQflags x).host = s.host := rfl
@[simp] theorem withQflags_turns (s : State) (x : Word) : (s.withQflags x).turns = s.turns := rfl

@[simp] theorem withParams_status (s : State) (x : Params) : (s.withParams x).status = s.status := rfl
@[simp] theorem withParams_qflags (s : State) (x : Params) : (s.withParams x).qflags = s.qflags := rfl
@[simp] theorem withParams_params (s : State) (x : Params) : (s.withParams x).params = x := rfl
@[simp] theorem withParams_coefs (s : State) (x : Params) : (s.withParams x).coefs = s.coefs := rfl
@[simp] theorem withParams_codes (s : State) (x : Params) : (s.withParams x).codes = s.codes := rfl
@[simp] theorem withParams_bytes (s : State) (x : Params) : (s.withParams x).bytes = s.bytes := rfl
@[simp] theorem withParams_pend (s : State) (x : Params) : (s.withParams x).pend = s.pend := rfl
@[simp] theorem withParams_host (s : State) (x : Params) : (s.withParams x).host = s.host := rfl
@[simp] theorem withParams_turns (s : State) (x : Params) : (s.withParams x).turns = s.turns := rfl

@[simp] theorem withCoefs_status (s : State) (x : PerSlot Binary64) : (s.withCoefs x).status = s.status := rfl
@[simp] theorem withCoefs_qflags (s : State) (x : PerSlot Binary64) : (s.withCoefs x).qflags = s.qflags := rfl
@[simp] theorem withCoefs_params (s : State) (x : PerSlot Binary64) : (s.withCoefs x).params = s.params := rfl
@[simp] theorem withCoefs_coefs (s : State) (x : PerSlot Binary64) : (s.withCoefs x).coefs = x := rfl
@[simp] theorem withCoefs_codes (s : State) (x : PerSlot Binary64) : (s.withCoefs x).codes = s.codes := rfl
@[simp] theorem withCoefs_bytes (s : State) (x : PerSlot Binary64) : (s.withCoefs x).bytes = s.bytes := rfl
@[simp] theorem withCoefs_pend (s : State) (x : PerSlot Binary64) : (s.withCoefs x).pend = s.pend := rfl
@[simp] theorem withCoefs_host (s : State) (x : PerSlot Binary64) : (s.withCoefs x).host = s.host := rfl
@[simp] theorem withCoefs_turns (s : State) (x : PerSlot Binary64) : (s.withCoefs x).turns = s.turns := rfl

@[simp] theorem withCodes_status (s : State) (x : PerSlot Code) : (s.withCodes x).status = s.status := rfl
@[simp] theorem withCodes_qflags (s : State) (x : PerSlot Code) : (s.withCodes x).qflags = s.qflags := rfl
@[simp] theorem withCodes_params (s : State) (x : PerSlot Code) : (s.withCodes x).params = s.params := rfl
@[simp] theorem withCodes_coefs (s : State) (x : PerSlot Code) : (s.withCodes x).coefs = s.coefs := rfl
@[simp] theorem withCodes_codes (s : State) (x : PerSlot Code) : (s.withCodes x).codes = x := rfl
@[simp] theorem withCodes_bytes (s : State) (x : PerSlot Code) : (s.withCodes x).bytes = s.bytes := rfl
@[simp] theorem withCodes_pend (s : State) (x : PerSlot Code) : (s.withCodes x).pend = s.pend := rfl
@[simp] theorem withCodes_host (s : State) (x : PerSlot Code) : (s.withCodes x).host = s.host := rfl
@[simp] theorem withCodes_turns (s : State) (x : PerSlot Code) : (s.withCodes x).turns = s.turns := rfl

@[simp] theorem withBytes_status (s : State) (x : PerSlot Packed) : (s.withBytes x).status = s.status := rfl
@[simp] theorem withBytes_qflags (s : State) (x : PerSlot Packed) : (s.withBytes x).qflags = s.qflags := rfl
@[simp] theorem withBytes_params (s : State) (x : PerSlot Packed) : (s.withBytes x).params = s.params := rfl
@[simp] theorem withBytes_coefs (s : State) (x : PerSlot Packed) : (s.withBytes x).coefs = s.coefs := rfl
@[simp] theorem withBytes_codes (s : State) (x : PerSlot Packed) : (s.withBytes x).codes = s.codes := rfl
@[simp] theorem withBytes_bytes (s : State) (x : PerSlot Packed) : (s.withBytes x).bytes = x := rfl
@[simp] theorem withBytes_pend (s : State) (x : PerSlot Packed) : (s.withBytes x).pend = s.pend := rfl
@[simp] theorem withBytes_host (s : State) (x : PerSlot Packed) : (s.withBytes x).host = s.host := rfl
@[simp] theorem withBytes_turns (s : State) (x : PerSlot Packed) : (s.withBytes x).turns = s.turns := rfl

@[simp] theorem withPend_status (s : State) (x : Option Snapshot) : (s.withPend x).status = s.status := rfl
@[simp] theorem withPend_qflags (s : State) (x : Option Snapshot) : (s.withPend x).qflags = s.qflags := rfl
@[simp] theorem withPend_params (s : State) (x : Option Snapshot) : (s.withPend x).params = s.params := rfl
@[simp] theorem withPend_coefs (s : State) (x : Option Snapshot) : (s.withPend x).coefs = s.coefs := rfl
@[simp] theorem withPend_codes (s : State) (x : Option Snapshot) : (s.withPend x).codes = s.codes := rfl
@[simp] theorem withPend_bytes (s : State) (x : Option Snapshot) : (s.withPend x).bytes = s.bytes := rfl
@[simp] theorem withPend_pend (s : State) (x : Option Snapshot) : (s.withPend x).pend = x := rfl
@[simp] theorem withPend_host (s : State) (x : Option Snapshot) : (s.withPend x).host = s.host := rfl
@[simp] theorem withPend_turns (s : State) (x : Option Snapshot) : (s.withPend x).turns = s.turns := rfl

@[simp] theorem withHost_status (s : State) (x : HostAgent) : (s.withHost x).status = s.status := rfl
@[simp] theorem withHost_qflags (s : State) (x : HostAgent) : (s.withHost x).qflags = s.qflags := rfl
@[simp] theorem withHost_params (s : State) (x : HostAgent) : (s.withHost x).params = s.params := rfl
@[simp] theorem withHost_coefs (s : State) (x : HostAgent) : (s.withHost x).coefs = s.coefs := rfl
@[simp] theorem withHost_codes (s : State) (x : HostAgent) : (s.withHost x).codes = s.codes := rfl
@[simp] theorem withHost_bytes (s : State) (x : HostAgent) : (s.withHost x).bytes = s.bytes := rfl
@[simp] theorem withHost_pend (s : State) (x : HostAgent) : (s.withHost x).pend = s.pend := rfl
@[simp] theorem withHost_host (s : State) (x : HostAgent) : (s.withHost x).host = x := rfl
@[simp] theorem withHost_turns (s : State) (x : HostAgent) : (s.withHost x).turns = s.turns := rfl

@[simp] theorem withTurns_status (s : State) (x : List Turn) : (s.withTurns x).status = s.status := rfl
@[simp] theorem withTurns_qflags (s : State) (x : List Turn) : (s.withTurns x).qflags = s.qflags := rfl
@[simp] theorem withTurns_params (s : State) (x : List Turn) : (s.withTurns x).params = s.params := rfl
@[simp] theorem withTurns_coefs (s : State) (x : List Turn) : (s.withTurns x).coefs = s.coefs := rfl
@[simp] theorem withTurns_codes (s : State) (x : List Turn) : (s.withTurns x).codes = s.codes := rfl
@[simp] theorem withTurns_bytes (s : State) (x : List Turn) : (s.withTurns x).bytes = s.bytes := rfl
@[simp] theorem withTurns_pend (s : State) (x : List Turn) : (s.withTurns x).pend = s.pend := rfl
@[simp] theorem withTurns_host (s : State) (x : List Turn) : (s.withTurns x).host = s.host := rfl
@[simp] theorem withTurns_turns (s : State) (x : List Turn) : (s.withTurns x).turns = x := rfl

/-- Two states with the same fields are the same. -/
theorem state_ext {s t : State} (h1 : s.status = t.status) (h2 : s.qflags = t.qflags) (h3 : s.params = t.params)
    (h4 : s.coefs = t.coefs) (h5 : s.codes = t.codes) (h6 : s.bytes = t.bytes) (h7 : s.pend = t.pend)
    (h8 : s.host = t.host) (h9 : s.turns = t.turns) : s = t := by
  cases s; cases t; simp_all

end Sys2Proof.Laws
end

