-- ==== Sys2Proof/Laws/Fields.lean ====
section
/-! SUPPORT. Reading a field of STATUS or QFLAGS after a field was written (Machine/Flags.lean). -/

namespace Sys2Proof.Laws

open Sys2Proof.Machine

/-- A bit after a field was written: the field's own bit inside it, the old bit outside it. -/
theorem getLsbD_setField {len : Nat} (lo i : Nat) (v : BitVec len) (w : Word) :
    (setField lo v w).getLsbD i =
      if i < 32 ∧ lo ≤ i ∧ i < lo + len then v.getLsbD (i - lo) else w.getLsbD i := by
  unfold setField
  by_cases h32 : i < 32
  · by_cases hlo : lo ≤ i
    · by_cases hhi : i < lo + len
      · have h1 : i - lo < len := by omega
        have h2 : ¬ i < lo := by omega
        simp [h32, hlo, hhi, h1, h2]
      · have h1 : ¬ i - lo < len := by omega
        have h2 : v.getLsbD (i - lo) = false := BitVec.getLsbD_of_ge v _ (by omega)
        simp [h32, hlo, hhi, h1, h2]
    · have h1 : i < lo := by omega
      simp [h32, hlo, h1]
  · have h1 : (w.getLsbD i) = false := BitVec.getLsbD_of_ge w _ (by omega)
    simp [h32, h1]

/-- The field just written. -/
theorem getField_setField_same {len : Nat} (lo : Nat) (v : BitVec len) (w : Word) (h : lo + len ≤ 32) :
    getField lo len (setField lo v w) = v := by
  unfold getField
  ext j hj
  have h1 : lo + j < 32 := by omega
  have h2 : lo + j - lo = j := by omega
  have h3 : lo + j < lo + len := by omega
  rw [BitVec.getElem_extractLsb', getLsbD_setField, if_pos ⟨h1, by omega, h3⟩, h2, BitVec.getLsbD_eq_getElem hj]

/-- A field that has no bit in common with the one written. -/
theorem getField_setField_other {len : Nat} (lo lo' len' : Nat) (v : BitVec len) (w : Word)
    (h : lo' + len' ≤ lo ∨ lo + len ≤ lo') : getField lo' len' (setField lo v w) = getField lo' len' w := by
  unfold getField
  ext j hj
  have h1 : ¬ (lo' + j < 32 ∧ lo ≤ lo' + j ∧ lo' + j < lo + len) := by omega
  simp only [BitVec.getElem_extractLsb', getLsbD_setField, h1, if_false]

/-- A field written twice holds the second value. -/
theorem setField_setField_same {len : Nat} (lo : Nat) (u v : BitVec len) (w : Word) :
    setField lo v (setField lo u w) = setField lo v w := by
  apply BitVec.eq_of_getLsbD_eq
  intro i _
  simp only [getLsbD_setField]
  split <;> simp_all

/-! STATUS. -/

@[simp] theorem statusBusy_setReport (b d e : Bool) (c x : BitVec 3) (w : Word) :
    statusBusy (setReport b d e c x w) = b := by
  simp only [statusBusy, setReport, getLsbD_setField]
  simp

@[simp] theorem statusDone_setReport (b d e : Bool) (c x : BitVec 3) (w : Word) :
    statusDone (setReport b d e c x w) = d := by
  simp only [statusDone, setReport, getLsbD_setField]
  simp

@[simp] theorem statusErr_setReport (b d e : Bool) (c x : BitVec 3) (w : Word) :
    statusErr (setReport b d e c x w) = e := by
  simp only [statusErr, setReport, getLsbD_setField]
  simp

@[simp] theorem statusWerr_setReport (b d e : Bool) (c x : BitVec 3) (w : Word) :
    statusWerr (setReport b d e c x w) = statusWerr w := by
  simp only [statusWerr, setReport, getLsbD_setField]
  simp

@[simp] theorem statusCause_setReport (b d e : Bool) (c x : BitVec 3) (w : Word) :
    statusCause (setReport b d e c x w) = c := by
  unfold statusCause setReport
  rw [getField_setField_other _ _ _ _ _ (by omega), getField_setField_same _ _ _ (by omega)]

@[simp] theorem statusIndex_setReport (b d e : Bool) (c x : BitVec 3) (w : Word) :
    statusIndex (setReport b d e c x w) = x := by
  unfold statusIndex setReport
  rw [getField_setField_same _ _ _ (by omega)]

@[simp] theorem statusReserved_setReport (b d e : Bool) (c x : BitVec 3) (w : Word) :
    statusReserved (setReport b d e c x w) = statusReserved w := by
  unfold statusReserved setReport
  simp (disch := omega) only [getField_setField_other]

@[simp] theorem statusBusy_setWerr (b : Bool) (w : Word) : statusBusy (setWerr b w) = statusBusy w := by
  simp only [statusBusy, setWerr, getLsbD_setField]
  simp

@[simp] theorem statusDone_setWerr (b : Bool) (w : Word) : statusDone (setWerr b w) = statusDone w := by
  simp only [statusDone, setWerr, getLsbD_setField]
  simp

@[simp] theorem statusErr_setWerr (b : Bool) (w : Word) : statusErr (setWerr b w) = statusErr w := by
  simp only [statusErr, setWerr, getLsbD_setField]
  simp

@[simp] theorem statusWerr_setWerr (b : Bool) (w : Word) : statusWerr (setWerr b w) = b := by
  simp only [statusWerr, setWerr, getLsbD_setField]
  simp

@[simp] theorem statusCause_setWerr (b : Bool) (w : Word) : statusCause (setWerr b w) = statusCause w := by
  unfold statusCause setWerr
  exact getField_setField_other _ _ _ _ _ (by omega)

@[simp] theorem statusIndex_setWerr (b : Bool) (w : Word) : statusIndex (setWerr b w) = statusIndex w := by
  unfold statusIndex setWerr
  exact getField_setField_other _ _ _ _ _ (by omega)

@[simp] theorem statusReserved_setWerr (b : Bool) (w : Word) : statusReserved (setWerr b w) = statusReserved w := by
  unfold statusReserved setWerr
  congr 1 <;> exact getField_setField_other _ _ _ _ _ (by omega)

/-- STATUS is its fields: nothing else is in the register. -/
theorem status_ext {v w : Word} (h0 : statusBusy v = statusBusy w) (h1 : statusDone v = statusDone w)
    (h2 : statusErr v = statusErr w) (h3 : statusWerr v = statusWerr w) (h4 : statusCause v = statusCause w)
    (h5 : statusIndex v = statusIndex w) (h6 : statusReserved v = statusReserved w) : v = w := by
  have hc : ∀ j, j < 3 → v.getLsbD (4 + j) = w.getLsbD (4 + j) := fun j hj => by
    have := congrArg (fun x : BitVec 3 => x.getLsbD j) h4
    simpa [statusCause, getField, hj] using this
  have hx : ∀ j, j < 3 → v.getLsbD (8 + j) = w.getLsbD (8 + j) := fun j hj => by
    have := congrArg (fun x : BitVec 3 => x.getLsbD j) h5
    simpa [statusIndex, getField, hj] using this
  have hr : ∀ j, j < 22 → (if j < 1 then v.getLsbD (7 + j) else v.getLsbD (11 + (j - 1))) =
      (if j < 1 then w.getLsbD (7 + j) else w.getLsbD (11 + (j - 1))) := fun j hj => by
    have := congrArg (fun x : BitVec 22 => x.getLsbD j) h6
    simp only [statusReserved, getField, BitVec.getLsbD_append, BitVec.getLsbD_extractLsb'] at this
    by_cases h : j < 1
    · simpa [h] using this
    · have h' : j - 1 < 21 := by omega
      simpa [h, h'] using this
  apply BitVec.eq_of_getLsbD_eq
  intro i hi
  rcases Nat.lt_or_ge i 4 with h | h
  · interval_cases i
    · exact h0
    · exact h1
    · exact h2
    · exact h3
  rcases Nat.lt_or_ge i 7 with h' | h'
  · simpa [show 4 + (i - 4) = i by omega] using hc (i - 4) (by omega)
  rcases Nat.lt_or_ge i 8 with h'' | h''
  · simpa [show i = 7 by omega] using hr 0 (by omega)
  rcases Nat.lt_or_ge i 11 with h3 | h3
  · simpa [show 8 + (i - 8) = i by omega] using hx (i - 8) (by omega)
  · have h4 : ¬ i - 10 < 1 := by omega
    simpa [h4, show 11 + (i - 10 - 1) = i by omega] using hr (i - 10) (by omega)

/-! QFLAGS. -/

@[simp] theorem getSlotFlags_setSlotFlags_same (i : Slot) (f : SlotFlags) (w : Word) :
    getSlotFlags i (setSlotFlags i f w) = slotFlagBits f := by
  unfold getSlotFlags setSlotFlags
  exact getField_setField_same _ _ _ (by cases i <;> simp [slotNum])

theorem getSlotFlags_setSlotFlags_other {i j : Slot} (h : j ≠ i) (f : SlotFlags) (w : Word) :
    getSlotFlags j (setSlotFlags i f w) = getSlotFlags j w := by
  unfold getSlotFlags setSlotFlags
  refine getField_setField_other _ _ _ _ _ ?_
  cases i <;> cases j <;> simp_all [slotNum]

@[simp] theorem qflagsReserved_setSlotFlags (i : Slot) (f : SlotFlags) (w : Word) :
    qflagsReserved (setSlotFlags i f w) = qflagsReserved w := by
  unfold qflagsReserved setSlotFlags
  exact getField_setField_other _ _ _ _ _ (by cases i <;> simp [slotNum])

/-- Every slot's flags after all five were written. -/
@[simp] theorem getSlotFlags_setAllFlags (i : Slot) (f : PerSlot SlotFlags) (w : Word) :
    getSlotFlags i (setAllFlags f w) = slotFlagBits (f.get i) := by
  unfold setAllFlags
  cases i <;> simp [getSlotFlags_setSlotFlags_other, PerSlot.get]

@[simp] theorem qflagsReserved_setAllFlags (f : PerSlot SlotFlags) (w : Word) :
    qflagsReserved (setAllFlags f w) = qflagsReserved w := by
  simp [setAllFlags]

/-- QFLAGS is its slots and its reserved bits. -/
theorem qflags_ext {v w : Word} (h : ∀ i, getSlotFlags i v = getSlotFlags i w)
    (hr : qflagsReserved v = qflagsReserved w) : v = w := by
  have hs : ∀ (i : Slot) (j : Nat), j < 4 → v.getLsbD (4 * slotNum i + j) = w.getLsbD (4 * slotNum i + j) :=
    fun i j hj => by
      have := congrArg (fun x : BitVec 4 => x.getLsbD j) (h i)
      simpa [getSlotFlags, getField, hj] using this
  have hq : ∀ j, j < 12 → v.getLsbD (20 + j) = w.getLsbD (20 + j) := fun j hj => by
    have := congrArg (fun x : BitVec 12 => x.getLsbD j) hr
    simpa [qflagsReserved, getField, hj] using this
  apply BitVec.eq_of_getLsbD_eq
  intro i hi
  rcases Nat.lt_or_ge i 20 with h20 | h20
  · have hm : i % 4 < 4 := Nat.mod_lt _ (by omega)
    have key : ∀ q : Slot, slotNum q = i / 4 → v.getLsbD i = w.getLsbD i := fun q hqn => by
      have := hs q (i % 4) hm
      rwa [hqn, Nat.div_add_mod] at this
    have h5 : i / 4 < 5 := by omega
    rcases Nat.lt_or_ge (i / 4) 1 with g | g
    · exact key .b0 (by simp [slotNum]; omega)
    rcases Nat.lt_or_ge (i / 4) 2 with g | g
    · exact key .b1 (by simp [slotNum]; omega)
    rcases Nat.lt_or_ge (i / 4) 3 with g | g
    · exact key .b2 (by simp [slotNum]; omega)
    rcases Nat.lt_or_ge (i / 4) 4 with g | g
    · exact key .a1 (by simp [slotNum]; omega)
    · exact key .a2 (by simp [slotNum]; omega)
  · simpa [show 20 + (i - 20) = i by omega] using hq (i - 20) (by omega)

end Sys2Proof.Laws
end

