-- ==== Sys2Proof/Laws/Ops.lean ====
section
/-! SUPPORT. What each shared operation does, said once (Machine/Operands.lean, Ops.lean, Quantize.lean, Derive.lean). -/

namespace Sys2Proof.Laws

open Sys2Proof.Machine

/-! Slots. -/

@[simp] theorem get_set_same {α : Type} (v : PerSlot α) (i : Slot) (a : α) : (v.set i a).get i = a := by
  cases i <;> rfl

theorem get_set_other {α : Type} (v : PerSlot α) {i j : Slot} (a : α) (h : j ≠ i) : (v.set i a).get j = v.get j := by
  cases i <;> cases j <;> first | rfl | exact absurd rfl h

@[simp] theorem get_map {α β : Type} (f : α → β) (v : PerSlot α) (i : Slot) : (v.map f).get i = f (v.get i) := by
  cases i <;> rfl

theorem perSlot_ext {α : Type} {u v : PerSlot α} (h : ∀ i, u.get i = v.get i) : u = v := by
  cases u; cases v
  simp only [PerSlot.mk.injEq]
  exact ⟨h .b0, h .b1, h .b2, h .a1, h .a2⟩

@[simp] theorem params_get_set_same (v : Params) (p : ParamName) (x : Binary64) : (v.set p x).get p = x := by
  cases p <;> rfl

theorem params_get_set_other (v : Params) {p n : ParamName} (x : Binary64) (h : n ≠ p) :
    (v.set p x).get n = v.get n := by
  cases p <;> cases n <;> first | rfl | exact absurd rfl h

theorem slotNum_lt (i : Slot) : slotNum i < 5 := by cases i <;> decide

theorem slotNum_injective {i j : Slot} (h : slotNum i = slotNum j) : i = j := by
  cases i <;> cases j <;> first | rfl | exact absurd h (by decide)

/-- The SLOT field names the slot with its number. -/
theorem slotOfField?_eq_some {f : BitVec 3} {i : Slot} : slotOfField? f = some i ↔ f.toNat = slotNum i := by
  unfold slotOfField? slotOfNum?
  constructor
  · intro h
    split at h <;> simp_all [slotNum] <;> subst h <;> rfl
  · intro h
    rw [h]
    cases i <;> rfl

/-- The SLOT field names no slot. -/
theorem slotOfField?_eq_none {f : BitVec 3} : slotOfField? f = none ↔ 5 ≤ f.toNat := by
  constructor
  · intro h
    by_contra hlt
    have key : ∀ i : Slot, f.toNat ≠ slotNum i := fun i hi => by
      simp [slotOfField?_eq_some.mpr hi] at h
    have h0 := key .b0
    have h1 := key .b1
    have h2 := key .b2
    have h3 := key .a1
    have h4 := key .a2
    simp only [slotNum] at h0 h1 h2 h3 h4
    omega
  · intro h
    cases hs : slotOfField? f with
    | none => rfl
    | some i =>
      have h1 := slotOfField?_eq_some.mp hs
      have h2 := slotNum_lt i
      omega

theorem slotIndex_of_field {f : BitVec 3} {i : Slot} (h : f.toNat = slotNum i) : slotIndex i = f := by
  apply BitVec.eq_of_toNat_eq
  simp only [slotIndex, BitVec.toNat_ofNat, ← h]
  omega

/-! Acceptance, completion, reset. -/

@[simp] theorem accept_status (w : CmdWord) (s : State) :
    (accept w s).status = setReport true false false 0#3 0#3 s.status := rfl
@[simp] theorem accept_pend (w : CmdWord) (s : State) : (accept w s).pend = some ⟨w, s.params, s.coefs⟩ := rfl
@[simp] theorem accept_qflags (w : CmdWord) (s : State) : (accept w s).qflags = s.qflags := rfl
@[simp] theorem accept_params (w : CmdWord) (s : State) : (accept w s).params = s.params := rfl
@[simp] theorem accept_coefs (w : CmdWord) (s : State) : (accept w s).coefs = s.coefs := rfl
@[simp] theorem accept_codes (w : CmdWord) (s : State) : (accept w s).codes = s.codes := rfl
@[simp] theorem accept_bytes (w : CmdWord) (s : State) : (accept w s).bytes = s.bytes := rfl
@[simp] theorem accept_host (w : CmdWord) (s : State) : (accept w s).host = s.host := rfl
@[simp] theorem accept_turns (w : CmdWord) (s : State) : (accept w s).turns = s.turns := rfl

@[simp] theorem completeOk_status (s : State) :
    (completeOk s).status = setReport false true false 0#3 0#3 s.status := rfl
@[simp] theorem completeOk_pend (s : State) : (completeOk s).pend = none := rfl
@[simp] theorem completeOk_qflags (s : State) : (completeOk s).qflags = s.qflags := rfl
@[simp] theorem completeOk_params (s : State) : (completeOk s).params = s.params := rfl
@[simp] theorem completeOk_coefs (s : State) : (completeOk s).coefs = s.coefs := rfl
@[simp] theorem completeOk_codes (s : State) : (completeOk s).codes = s.codes := rfl
@[simp] theorem completeOk_bytes (s : State) : (completeOk s).bytes = s.bytes := rfl
@[simp] theorem completeOk_host (s : State) : (completeOk s).host = s.host := rfl
@[simp] theorem completeOk_turns (s : State) : (completeOk s).turns = s.turns := rfl

@[simp] theorem raiseCmdError_status (e : Cause) (x : BitVec 3) (s : State) :
    (raiseCmdError e x s).status = setReport false true true (causeCode e) x s.status := rfl
@[simp] theorem raiseCmdError_pend (e : Cause) (x : BitVec 3) (s : State) : (raiseCmdError e x s).pend = none := rfl
@[simp] theorem raiseCmdError_qflags (e : Cause) (x : BitVec 3) (s : State) :
    (raiseCmdError e x s).qflags = s.qflags := rfl
@[simp] theorem raiseCmdError_params (e : Cause) (x : BitVec 3) (s : State) :
    (raiseCmdError e x s).params = s.params := rfl
@[simp] theorem raiseCmdError_coefs (e : Cause) (x : BitVec 3) (s : State) :
    (raiseCmdError e x s).coefs = s.coefs := rfl
@[simp] theorem raiseCmdError_codes (e : Cause) (x : BitVec 3) (s : State) :
    (raiseCmdError e x s).codes = s.codes := rfl
@[simp] theorem raiseCmdError_bytes (e : Cause) (x : BitVec 3) (s : State) :
    (raiseCmdError e x s).bytes = s.bytes := rfl
@[simp] theorem raiseCmdError_host (e : Cause) (x : BitVec 3) (s : State) : (raiseCmdError e x s).host = s.host := rfl
@[simp] theorem raiseCmdError_turns (e : Cause) (x : BitVec 3) (s : State) :
    (raiseCmdError e x s).turns = s.turns := rfl

@[simp] theorem resetEvent_host (s : State) : (resetEvent s).host = s.host := rfl
@[simp] theorem resetEvent_turns (s : State) : (resetEvent s).turns = s.turns := rfl

/-- With a command pending the work is done. -/
theorem withPending_some {s : State} {p : Snapshot} (h : s.pend = some p) (f : Snapshot → State) :
    withPending s f = .next (f p) := by
  simp [withPending, h]

/-- All that withPending can answer. -/
theorem withPending_next {s t : State} {f : Snapshot → State} (h : withPending s f = .next t) :
    ∃ p, s.pend = some p ∧ t = f p := by
  unfold withPending at h
  split at h
  · cases h
  · rename_i p hp
    cases h
    exact ⟨p, hp, rfl⟩

/-- An illegal word completes with the error alone. -/
theorem completeIllegal_some {s : State} {p : Snapshot} (h : s.pend = some p) :
    completeIllegal s = .next (raiseCmdError .illegalCmd 0#3 s) := withPending_some h _

/-! Strict checks. -/

/-- No coefficient of the set fails. -/
theorem firstFailing_eq_none {c : PerSlot Binary64} (h : ∀ i, quantCause (c.get i) = none) : firstFailing c = none := by
  simp [firstFailing, allSlots, h]

/-- The set's first failing slot fails, and none below it does. -/
theorem firstFailing_eq_some {c : PerSlot Binary64} {i : Slot} {e : Cause} :
    firstFailing c = some (i, e) ↔
      quantCause (c.get i) = some e ∧ ∀ j, slotNum j < slotNum i → quantCause (c.get j) = none := by
  have all : ∀ P : Slot → Prop, (∀ j, P j) ↔ P .b0 ∧ P .b1 ∧ P .b2 ∧ P .a1 ∧ P .a2 := fun P =>
    ⟨fun h => ⟨h _, h _, h _, h _, h _⟩, fun ⟨h0, h1, h2, h3, h4⟩ j => by cases j <;> assumption⟩
  rw [all]
  unfold firstFailing allSlots
  cases h0 : quantCause (c.get .b0) <;> cases h1 : quantCause (c.get .b1) <;> cases h2 : quantCause (c.get .b2) <;>
    cases h3 : quantCause (c.get .a1) <;> cases h4 : quantCause (c.get .a2) <;> cases i <;> simp_all [slotNum]

/-- The work of QUANT1, by cases. -/
theorem quantizeSlot_strict_error {i : Slot} {l : Layout} {c : Binary64} {e : Cause} {s : State}
    (h : quantCause c = some e) :
    quantizeSlot i l .strict c s = raiseCmdError e (slotIndex i) (writeFlags i c s) := by
  simp [quantizeSlot, h]

theorem quantizeSlot_ok {i : Slot} {l : Layout} {m : Mode} {c : Binary64} {s : State}
    (h : m = .reference ∨ quantCause c = none) :
    quantizeSlot i l m c s = completeOk (writePacked l i c (writeFlags i c s)) := by
  cases m <;> simp_all [quantizeSlot]

/-- The work of QSET and DPACK on the set, by cases. -/
theorem quantizeSet_strict_error {l : Layout} {c : PerSlot Binary64} {i : Slot} {e : Cause} {f : State → State}
    {s : State} (h : firstFailing c = some (i, e)) :
    quantizeSet l .strict c f s = raiseCmdError e (slotIndex i) (writeAllFlags c s) := by
  simp [quantizeSet, h]

theorem quantizeSet_ok {l : Layout} {m : Mode} {c : PerSlot Binary64} {f : State → State} {s : State}
    (h : m = .reference ∨ firstFailing c = none) :
    quantizeSet l m c f s = completeOk (writeAllPacked l c (f (writeAllFlags c s))) := by
  cases m <;> simp_all [quantizeSet]

/-- The parameter check, by cases. -/
theorem ifParamsValid_strict_error {p : Params} {bad : ParamName} {s t : State} (h : firstInvalidParam p = some bad) :
    ifParamsValid .strict p s t = raiseCmdError .invalidParam (paramIndex bad) s := by
  simp [ifParamsValid, h]

theorem ifParamsValid_ok {m : Mode} {p : Params} {s t : State} (h : m = .reference ∨ firstInvalidParam p = none) :
    ifParamsValid m p s t = t := by
  cases m <;> simp_all [ifParamsValid]

/-! What quantization writes. -/

@[simp] theorem writeFlags_qflags (i : Slot) (c : Binary64) (s : State) :
    (writeFlags i c s).qflags = setSlotFlags i (quantFlags c) s.qflags := rfl
@[simp] theorem writeFlags_status (i : Slot) (c : Binary64) (s : State) : (writeFlags i c s).status = s.status := rfl
@[simp] theorem writeFlags_params (i : Slot) (c : Binary64) (s : State) : (writeFlags i c s).params = s.params := rfl
@[simp] theorem writeFlags_coefs (i : Slot) (c : Binary64) (s : State) : (writeFlags i c s).coefs = s.coefs := rfl
@[simp] theorem writeFlags_codes (i : Slot) (c : Binary64) (s : State) : (writeFlags i c s).codes = s.codes := rfl
@[simp] theorem writeFlags_bytes (i : Slot) (c : Binary64) (s : State) : (writeFlags i c s).bytes = s.bytes := rfl
@[simp] theorem writeFlags_pend (i : Slot) (c : Binary64) (s : State) : (writeFlags i c s).pend = s.pend := rfl
@[simp] theorem writeFlags_host (i : Slot) (c : Binary64) (s : State) : (writeFlags i c s).host = s.host := rfl
@[simp] theorem writeFlags_turns (i : Slot) (c : Binary64) (s : State) : (writeFlags i c s).turns = s.turns := rfl

@[simp] theorem writeAllFlags_qflags (c : PerSlot Binary64) (s : State) :
    (writeAllFlags c s).qflags = setAllFlags (c.map quantFlags) s.qflags := rfl
@[simp] theorem writeAllFlags_status (c : PerSlot Binary64) (s : State) : (writeAllFlags c s).status = s.status := rfl
@[simp] theorem writeAllFlags_params (c : PerSlot Binary64) (s : State) : (writeAllFlags c s).params = s.params := rfl
@[simp] theorem writeAllFlags_coefs (c : PerSlot Binary64) (s : State) : (writeAllFlags c s).coefs = s.coefs := rfl
@[simp] theorem writeAllFlags_codes (c : PerSlot Binary64) (s : State) : (writeAllFlags c s).codes = s.codes := rfl
@[simp] theorem writeAllFlags_bytes (c : PerSlot Binary64) (s : State) : (writeAllFlags c s).bytes = s.bytes := rfl
@[simp] theorem writeAllFlags_pend (c : PerSlot Binary64) (s : State) : (writeAllFlags c s).pend = s.pend := rfl
@[simp] theorem writeAllFlags_host (c : PerSlot Binary64) (s : State) : (writeAllFlags c s).host = s.host := rfl
@[simp] theorem writeAllFlags_turns (c : PerSlot Binary64) (s : State) : (writeAllFlags c s).turns = s.turns := rfl

@[simp] theorem writePacked_codes (l : Layout) (i : Slot) (c : Binary64) (s : State) :
    (writePacked l i c s).codes = s.codes.set i (quantCode c) := rfl
@[simp] theorem writePacked_bytes (l : Layout) (i : Slot) (c : Binary64) (s : State) :
    (writePacked l i c s).bytes = s.bytes.set i (packCode l (quantCode c)) := rfl
@[simp] theorem writePacked_status (l : Layout) (i : Slot) (c : Binary64) (s : State) :
    (writePacked l i c s).status = s.status := rfl
@[simp] theorem writePacked_qflags (l : Layout) (i : Slot) (c : Binary64) (s : State) :
    (writePacked l i c s).qflags = s.qflags := rfl
@[simp] theorem writePacked_params (l : Layout) (i : Slot) (c : Binary64) (s : State) :
    (writePacked l i c s).params = s.params := rfl
@[simp] theorem writePacked_coefs (l : Layout) (i : Slot) (c : Binary64) (s : State) :
    (writePacked l i c s).coefs = s.coefs := rfl
@[simp] theorem writePacked_pend (l : Layout) (i : Slot) (c : Binary64) (s : State) :
    (writePacked l i c s).pend = s.pend := rfl
@[simp] theorem writePacked_host (l : Layout) (i : Slot) (c : Binary64) (s : State) :
    (writePacked l i c s).host = s.host := rfl
@[simp] theorem writePacked_turns (l : Layout) (i : Slot) (c : Binary64) (s : State) :
    (writePacked l i c s).turns = s.turns := rfl

@[simp] theorem writeAllPacked_codes (l : Layout) (c : PerSlot Binary64) (s : State) :
    (writeAllPacked l c s).codes = c.map quantCode := rfl
@[simp] theorem writeAllPacked_bytes (l : Layout) (c : PerSlot Binary64) (s : State) :
    (writeAllPacked l c s).bytes = c.map fun x => packCode l (quantCode x) := rfl
@[simp] theorem writeAllPacked_status (l : Layout) (c : PerSlot Binary64) (s : State) :
    (writeAllPacked l c s).status = s.status := rfl
@[simp] theorem writeAllPacked_qflags (l : Layout) (c : PerSlot Binary64) (s : State) :
    (writeAllPacked l c s).qflags = s.qflags := rfl
@[simp] theorem writeAllPacked_params (l : Layout) (c : PerSlot Binary64) (s : State) :
    (writeAllPacked l c s).params = s.params := rfl
@[simp] theorem writeAllPacked_coefs (l : Layout) (c : PerSlot Binary64) (s : State) :
    (writeAllPacked l c s).coefs = s.coefs := rfl
@[simp] theorem writeAllPacked_pend (l : Layout) (c : PerSlot Binary64) (s : State) :
    (writeAllPacked l c s).pend = s.pend := rfl
@[simp] theorem writeAllPacked_host (l : Layout) (c : PerSlot Binary64) (s : State) :
    (writeAllPacked l c s).host = s.host := rfl
@[simp] theorem writeAllPacked_turns (l : Layout) (c : PerSlot Binary64) (s : State) :
    (writeAllPacked l c s).turns = s.turns := rfl

end Sys2Proof.Laws
end

