-- ==== Sys2Proof/Laws/Bus.lean ====
section
/-! SUPPORT. The register map both ways, and all that a host's access and a host's turn can do (Machine/Bus.lean,
HostSide.lean). -/

namespace Sys2Proof.Laws

open Sys2Proof.Machine

/-- An index names the register whose index it is. -/
@[simp] theorem regOfIndex?_index (r : Reg) : regOfIndex? r.index = some r := by
  cases r with
  | param p => cases p <;> rfl
  | coef i => cases i <;> rfl
  | code i => cases i <;> rfl
  | byte i k => cases i <;> cases k <;> rfl
  | _ => rfl

theorem index_of_regOfIndex? {idx : RegIndex} {r : Reg} (h : regOfIndex? idx = some r) : r.index = idx := by
  unfold regOfIndex? at h
  split at h
  all_goals first
    | (cases h; done)
    | (rename_i hn
       cases h
       apply BitVec.eq_of_toNat_eq
       rw [hn]
       rfl)

theorem busRead_index (r : Reg) (s : State) : busRead r.index s = (.ok, readReg r s) := by
  simp [busRead]

theorem busWrite_index (r : Reg) (d : BusData) (s : State) : busWrite r.index d s = (.ok, writeReg r d s) := by
  simp [busWrite]

theorem unlessBusy_busy {s t : State} (h : s.busy = true) : unlessBusy s t = s.withStatus (setWerr true s.status) := by
  simp [unlessBusy, h]

theorem unlessBusy_idle {s t : State} (h : s.busy = false) : unlessBusy s t = t := by
  simp [unlessBusy, h]

/-- The registers a host's write may reach (20_memory.md R51): the others ignore it. -/
def Writable : Reg → Prop
  | .cmd => True
  | .status => True
  | .param _ => True
  | .coef _ => True
  | .qflags => False
  | .code _ => False
  | .byte _ _ => False

/-- All that a write can do. -/
theorem writeReg_cases (r : Reg) (d : BusData) (s : State) :
    (writeReg r d s = s) ∨
    (r = .cmd ∧ s.busy = false ∧ writeReg r d s = accept (d.extractLsb' 0 32) s) ∨
    (r ≠ .status ∧ Writable r ∧ s.busy = true ∧ writeReg r d s = s.withStatus (setWerr true s.status)) ∨
    (r = .status ∧ d.getLsbD 3 = true ∧ writeReg r d s = s.withStatus (setWerr false s.status)) ∨
    (∃ p, r = .param p ∧ s.busy = false ∧ writeReg r d s = s.withParams (s.params.set p d)) ∨
    (∃ i, r = .coef i ∧ s.busy = false ∧ writeReg r d s = s.withCoefs (s.coefs.set i d)) := by
  cases hb : s.busy with
  | true =>
    cases r with
    | cmd => exact .inr (.inr (.inl ⟨by simp, trivial, rfl, unlessBusy_busy hb⟩))
    | param p => exact .inr (.inr (.inl ⟨by simp, trivial, rfl, unlessBusy_busy hb⟩))
    | coef i => exact .inr (.inr (.inl ⟨by simp, trivial, rfl, unlessBusy_busy hb⟩))
    | status =>
      cases hd : d.getLsbD 3 with
      | true => exact .inr (.inr (.inr (.inl ⟨rfl, rfl, by simp only [writeReg, hd, if_true]⟩)))
      | false => exact .inl (by simp only [writeReg, hd]; rfl)
    | _ => exact .inl rfl
  | false =>
    cases r with
    | cmd => exact .inr (.inl ⟨rfl, rfl, unlessBusy_idle hb⟩)
    | param p => exact .inr (.inr (.inr (.inr (.inl ⟨p, rfl, rfl, unlessBusy_idle hb⟩))))
    | coef i => exact .inr (.inr (.inr (.inr (.inr ⟨i, rfl, rfl, unlessBusy_idle hb⟩))))
    | status =>
      cases hd : d.getLsbD 3 with
      | true => exact .inr (.inr (.inr (.inl ⟨rfl, rfl, by simp only [writeReg, hd, if_true]⟩)))
      | false => exact .inl (by simp only [writeReg, hd]; rfl)
    | _ => exact .inl rfl

/-- A write leaves the host and the turns alone. -/
theorem busWrite_surroundings (idx : RegIndex) (d : BusData) (s : State) :
    (busWrite idx d s).2.host = s.host ∧ (busWrite idx d s).2.turns = s.turns := by
  unfold busWrite
  split
  · exact ⟨rfl, rfl⟩
  · rename_i r _
    rcases writeReg_cases r d s with h | ⟨_, _, h⟩ | ⟨_, _, _, h⟩ | ⟨_, _, h⟩ | ⟨_, _, _, h⟩ | ⟨_, _, _, h⟩ <;>
      rw [h] <;> exact ⟨rfl, rfl⟩

/-- What WAIT sees of STATUS is BUSY. -/
theorem busRead_status_bit0 (s : State) : (busRead Reg.status.index s).2.getLsbD 0 = s.busy := by
  rw [busRead_index]
  simp [readReg, State.busy, statusBusy]

/-- All that a turn of the host can do: only the host's own state moves on, or its next instruction writes a register
that can be written. -/
theorem hostTurn_cases (s : State) :
    (hostTurn s = s.withHost (hostTurn s).host) ∨
    (∃ r d rest, s.host.program = .wr r.index d :: rest ∧ Writable r ∧
      hostTurn s = (writeReg r d s).withHost (hostTurn s).host) := by
  unfold hostTurn
  split
  · exact .inl rfl
  · rename_i i rest hp
    cases i with
    | rd idx name => exact .inl rfl
    | wait =>
      left
      simp only [hostExec]
      split <;> rfl
    | wr idx d =>
      cases hr : regOfIndex? idx with
      | none => left; simp [hostExec, hostDone, busWrite, hr, State.withHost]
      | some r =>
        have hidx := index_of_regOfIndex? hr
        have hw : ∀ u, (busWrite idx d s).2 = u →
            hostExec (.wr idx d) rest s = u.withHost (hostExec (.wr idx d) rest s).host := by
          intro u hu
          simp only [hostExec, hostDone, hu]
          rfl
        have hval : (busWrite idx d s).2 = writeReg r d s := by simp [busWrite, hr]
        cases r with
        | qflags => exact .inl (hw s hval)
        | code i => exact .inl (hw s hval)
        | byte i k => exact .inl (hw s hval)
        | cmd => exact .inr ⟨.cmd, d, rest, by rw [hp, hidx], trivial, hw _ hval⟩
        | status => exact .inr ⟨.status, d, rest, by rw [hp, hidx], trivial, hw _ hval⟩
        | param p => exact .inr ⟨.param p, d, rest, by rw [hp, hidx], trivial, hw _ hval⟩
        | coef i => exact .inr ⟨.coef i, d, rest, by rw [hp, hidx], trivial, hw _ hval⟩

end Sys2Proof.Laws
end

