-- ==== Sys2Proof/Laws/Commands.lean ====
section
/-! SUPPORT. What each command answers, by cases, and what any command can do. -/

namespace Sys2Proof.Laws

open Sys2Proof.Machine

section

variable {s t : State} {p : Snapshot} {l : Layout} {m : Mode}

theorem exec_nop (h : s.pend = some p) : exec .nop s = .next (completeOk s) := withPending_some h _

theorem exec_quant1_illegal {slot : BitVec 3} (h : s.pend = some p) (hs : 5 ≤ slot.toNat) :
    exec (.quant1 slot l m) s = .next (raiseCmdError .illegalCmd 0#3 s) := by
  simp only [exec, execQuant1, slotOfField?_eq_none.mpr hs, completeIllegal_some h]

theorem exec_quant1 {slot : BitVec 3} {i : Slot} (h : s.pend = some p) (hs : slot.toNat = slotNum i) :
    exec (.quant1 slot l m) s = .next (quantizeSlot i l m (p.coefs.get i) s) := by
  simp only [exec, execQuant1, slotOfField?_eq_some.mpr hs, withPending_some h]

theorem exec_qset (h : s.pend = some p) : exec (.qset l m) s = .next (quantizeSet l m p.coefs id s) :=
  withPending_some h _

theorem exec_derive (h : s.pend = some p) :
    exec (.derive m) s = .next (ifParamsValid m p.params s (completeOk (s.withCoefs (derive Config.mathFns p.params)))) :=
  withPending_some h _

theorem exec_dpack (h : s.pend = some p) :
    exec (.dpack l m) s = .next (ifParamsValid m p.params s (quantizeSet l m (derive Config.mathFns p.params)
      (State.withCoefs · (derive Config.mathFns p.params)) s)) :=
  withPending_some h _

end

/-- A completion of any command has a pending command. -/
theorem exec_pend {i : Instr} {s t : State} (h : exec i s = .next t) : ∃ p, s.pend = some p := by
  cases hp : s.pend with
  | some p => exact ⟨p, rfl⟩
  | none =>
    cases i with
    | quant1 slot l m =>
      simp only [exec, execQuant1, completeIllegal, withPending, hp] at h
      split at h <;> cases h
    | _ => simp [exec, execNop, execQset, execDerive, execDpack, withPending, hp] at h

/-- With a pending command every command answers a next state. -/
theorem exec_total {s : State} {p : Snapshot} (i : Instr) (h : s.pend = some p) : ∃ t, exec i s = .next t := by
  cases i with
  | nop => exact ⟨_, exec_nop h⟩
  | quant1 slot l m =>
    rcases Nat.lt_or_ge slot.toNat 5 with hs | hs
    · cases hf : slotOfField? slot with
      | none => exact absurd (slotOfField?_eq_none.mp hf) (by omega)
      | some j => exact ⟨_, exec_quant1 h (slotOfField?_eq_some.mp hf)⟩
    · exact ⟨_, exec_quant1_illegal h hs⟩
  | qset l m => exact ⟨_, exec_qset h⟩
  | derive m => exact ⟨_, exec_derive h⟩
  | dpack l m => exact ⟨_, exec_dpack h⟩

/-- The cause and index of a report are in the ranges of 60_exceptions.md R171. -/
def ReportInRange (c x : BitVec 3) : Prop :=
  (c = 1#3 ∧ x = 0#3) ∨ (c = 2#3 ∧ x.toNat ≤ 3) ∨ ((c = 3#3 ∨ c = 4#3 ∨ c = 5#3) ∧ x.toNat ≤ 4)

/-- Only flags were written, and only as Quant gives them. -/
structure FlagsWritten (s u : State) : Prop where
  status : u.status = s.status
  params : u.params = s.params
  host : u.host = s.host
  turns : u.turns = s.turns
  reserved : qflagsReserved u.qflags = qflagsReserved s.qflags
  flags : ∀ i, getSlotFlags i u.qflags = getSlotFlags i s.qflags ∨
    ∃ c, getSlotFlags i u.qflags = slotFlagBits (quantFlags c)

/-- Codes and bytes were written together, if at all. -/
def PackedTogether (s u : State) : Prop :=
  ∀ i, (u.codes.get i = s.codes.get i ∧ u.bytes.get i = s.bytes.get i) ∨
    ∃ l c, u.codes.get i = quantCode c ∧ u.bytes.get i = packCode l (quantCode c)

theorem flagsWritten_refl (s : State) : FlagsWritten s s := ⟨rfl, rfl, rfl, rfl, rfl, fun _ => .inl rfl⟩

theorem flagsWritten_one (i : Slot) (c : Binary64) (s : State) : FlagsWritten s (writeFlags i c s) := by
  refine ⟨rfl, rfl, rfl, rfl, by simp, fun j => ?_⟩
  by_cases h : j = i
  · subst h; exact .inr ⟨c, by simp⟩
  · exact .inl (by simp [getSlotFlags_setSlotFlags_other h])

theorem flagsWritten_all (c : PerSlot Binary64) (s : State) : FlagsWritten s (writeAllFlags c s) :=
  ⟨rfl, rfl, rfl, rfl, by simp, fun j => .inr ⟨c.get j, by simp⟩⟩

/-- An error index of a slot is in range. -/
theorem slotIndex_toNat_le (i : Slot) : (slotIndex i).toNat ≤ 4 := by cases i <;> decide

theorem quantCause_code {c : Binary64} {e : Cause} (h : quantCause c = some e) :
    causeCode e = 3#3 ∨ causeCode e = 4#3 ∨ causeCode e = 5#3 := by
  unfold quantCause at h
  split at h
  · cases h; simp [causeCode]
  split at h
  · cases h; simp [causeCode]
  split at h
  · cases h; simp [causeCode]
  · cases h

/-- All that a command can do: it ends without an error, having written flags, coefficients and packed slots; or with an
error in range, having written flags alone, and those only for a quantization cause. -/
theorem exec_cases {i : Instr} {s t : State} (h : exec i s = .next t) :
    (∃ u, t = completeOk u ∧ FlagsWritten s u ∧ PackedTogether s u) ∨
    (∃ u e x, t = raiseCmdError e x u ∧ FlagsWritten s u ∧ u.coefs = s.coefs ∧ u.codes = s.codes ∧
      u.bytes = s.bytes ∧ ReportInRange (causeCode e) x ∧
      (u.qflags ≠ s.qflags → causeCode e = 3#3 ∨ causeCode e = 4#3 ∨ causeCode e = 5#3)) := by
  obtain ⟨p, hp⟩ := exec_pend h
  have setCase : ∀ (l : Layout) (m : Mode) (c : PerSlot Binary64) (f : State → State),
      (f = id ∨ f = (State.withCoefs · c)) → t = quantizeSet l m c f s →
      (∃ u, t = completeOk u ∧ FlagsWritten s u ∧ PackedTogether s u) ∨
      (∃ u e x, t = raiseCmdError e x u ∧ FlagsWritten s u ∧ u.coefs = s.coefs ∧ u.codes = s.codes ∧
        u.bytes = s.bytes ∧ ReportInRange (causeCode e) x ∧
        (u.qflags ≠ s.qflags → causeCode e = 3#3 ∨ causeCode e = 4#3 ∨ causeCode e = 5#3)) := by
    intro l m c f hf ht
    have hw := flagsWritten_all c s
    have hok : (m = .reference ∨ firstFailing c = none) → ∃ u, t = completeOk u ∧ FlagsWritten s u ∧
        PackedTogether s u := fun hm => by
      rw [quantizeSet_ok hm] at ht
      refine ⟨_, ht, ?_, fun j => .inr ⟨l, c.get j, by simp⟩⟩
      rcases hf with rfl | rfl
      · exact ⟨hw.status, hw.params, hw.host, hw.turns, hw.reserved, hw.flags⟩
      · exact ⟨hw.status, hw.params, hw.host, hw.turns, hw.reserved, hw.flags⟩
    cases m with
    | reference => exact .inl (hok (.inl rfl))
    | strict =>
      cases hff : firstFailing c with
      | none => exact .inl (hok (.inr hff))
      | some ie =>
        obtain ⟨i, e⟩ := ie
        rw [quantizeSet_strict_error hff] at ht
        have hc := quantCause_code (firstFailing_eq_some.mp hff).1
        exact .inr ⟨_, e, slotIndex i, ht, hw, rfl, rfl, rfl, .inr (.inr ⟨hc, slotIndex_toNat_le i⟩), fun _ => hc⟩
  have paramCase : ∀ (m : Mode) (work : State), t = ifParamsValid m p.params s work →
      t = work ∨ ∃ bad, t = raiseCmdError .invalidParam (paramIndex bad) s := by
    intro m work ht
    cases m with
    | reference => exact .inl (by rw [ht, ifParamsValid_ok (.inl rfl)])
    | strict =>
      cases hb : firstInvalidParam p.params with
      | none => exact .inl (by rw [ht, ifParamsValid_ok (.inr hb)])
      | some bad => exact .inr ⟨bad, by rw [ht, ifParamsValid_strict_error hb]⟩
  have illegal : t = raiseCmdError .illegalCmd 0#3 s ∨ (∃ bad, t = raiseCmdError .invalidParam (paramIndex bad) s) →
      (∃ u e x, t = raiseCmdError e x u ∧ FlagsWritten s u ∧ u.coefs = s.coefs ∧ u.codes = s.codes ∧
        u.bytes = s.bytes ∧ ReportInRange (causeCode e) x ∧
        (u.qflags ≠ s.qflags → causeCode e = 3#3 ∨ causeCode e = 4#3 ∨ causeCode e = 5#3)) := by
    rintro (ht | ⟨bad, ht⟩)
    · exact ⟨s, _, _, ht, flagsWritten_refl s, rfl, rfl, rfl, .inl ⟨rfl, rfl⟩, fun hq => absurd rfl hq⟩
    · exact ⟨s, _, _, ht, flagsWritten_refl s, rfl, rfl, rfl, .inr (.inl ⟨rfl, by cases bad <;> decide⟩),
        fun hq => absurd rfl hq⟩
  cases i with
  | nop =>
    rw [exec_nop hp] at h
    cases h
    exact .inl ⟨s, rfl, flagsWritten_refl s, fun _ => .inl ⟨rfl, rfl⟩⟩
  | quant1 slot l m =>
    cases hf : slotOfField? slot with
    | none =>
      rw [exec_quant1_illegal hp (slotOfField?_eq_none.mp hf)] at h
      cases h
      exact .inr (illegal (.inl rfl))
    | some i =>
      rw [exec_quant1 hp (slotOfField?_eq_some.mp hf)] at h
      cases h
      have hw := flagsWritten_one i (p.coefs.get i) s
      have hok : (m = .reference ∨ quantCause (p.coefs.get i) = none) →
          ∃ u, quantizeSlot i l m (p.coefs.get i) s = completeOk u ∧ FlagsWritten s u ∧ PackedTogether s u :=
        fun hm => by
          refine ⟨_, quantizeSlot_ok hm, ⟨hw.status, hw.params, hw.host, hw.turns, hw.reserved, hw.flags⟩, fun j => ?_⟩
          by_cases hj : j = i
          · subst hj; exact .inr ⟨l, p.coefs.get j, by simp⟩
          · exact .inl (by simp [get_set_other _ _ hj])
      cases m with
      | reference => exact .inl (hok (.inl rfl))
      | strict =>
        cases hc : quantCause (p.coefs.get i) with
        | none => exact .inl (hok (.inr hc))
        | some e =>
          have hcc := quantCause_code hc
          exact .inr ⟨_, e, slotIndex i, quantizeSlot_strict_error hc, hw, rfl, rfl, rfl,
            .inr (.inr ⟨hcc, slotIndex_toNat_le i⟩), fun _ => hcc⟩
  | qset l m =>
    rw [exec_qset hp] at h
    cases h
    exact setCase l m _ _ (.inl rfl) rfl
  | derive m =>
    rw [exec_derive hp] at h
    cases h
    rcases paramCase m _ rfl with ht | hb
    · exact .inl ⟨_, ht, ⟨rfl, rfl, rfl, rfl, rfl, fun _ => .inl rfl⟩, fun _ => .inl ⟨rfl, rfl⟩⟩
    · exact .inr (illegal (.inr hb))
  | dpack l m =>
    rw [exec_dpack hp] at h
    cases h
    rcases paramCase m _ rfl with ht | hb
    · exact setCase l m _ _ (.inr rfl) ht
    · exact .inr (illegal (.inr hb))

end Sys2Proof.Laws
end

