-- ==== Sys2Proof/Laws/Decode.lean ====
section
/-! SUPPORT. A word whose reserved bits are 0 is one of 256 (Decode.lean), so that a fact about all words is a fact about
8 bits. -/

namespace Sys2Proof.Laws

/-- The word with the given bits 7:0 and reserved bits 0. -/
abbrev lowWord (b : BitVec 8) : CmdWord := b.setWidth 32

/-- A word with reserved bits 0 is its bits 7:0. -/
theorem eq_lowWord {w : CmdWord} (h : reservedField w = 0#24) : w = lowWord (w.setWidth 8) := by
  have hb : ∀ j, j < 24 → w.getLsbD (8 + j) = false := fun j hj => by
    have := congrArg (fun x : BitVec 24 => x.getLsbD j) h
    simpa [reservedField, hj] using this
  apply BitVec.eq_of_getLsbD_eq
  intro i hi
  rcases Nat.lt_or_ge i 8 with h8 | h8
  · simp [h8, hi]
  · have := hb (i - 8) (by omega)
    rw [show 8 + (i - 8) = i by omega] at this
    simp [this]

theorem reservedField_lowWord (b : BitVec 8) : reservedField (lowWord b) = 0#24 := by
  revert b; decide +kernel

/-- Reserved bits make any word illegal (30_encoding.md R75). -/
theorem decode_of_reserved {w : CmdWord} (h : reservedField w ≠ 0#24) : decode w = .illegal .reservedBits := by
  simp [decode, h]

/-- A word that decodes to a command has its reserved bits 0. -/
theorem reserved_of_command {w : CmdWord} {i : Instr} (h : decode w = .command i) : reservedField w = 0#24 := by
  by_contra hr
  rw [decode_of_reserved hr] at h
  cases h

/-- A fact about every word follows from the words with a reserved bit set and the 256 others. -/
theorem word_cases {P : CmdWord → Prop} (reserved : ∀ w, reservedField w ≠ 0#24 → P w) (low : ∀ b, P (lowWord b))
    (w : CmdWord) : P w := by
  by_cases h : reservedField w = 0#24
  · rw [eq_lowWord h]
    exact low _
  · exact reserved w h

end Sys2Proof.Laws
end

