-- ==== Sys2Proof/Laws/PerInstr.lean ====
section
/-! SUPPORT. What holds of every command as syntax, one lemma for each constructor. -/

namespace Sys2Proof.Laws.ReservedZero

/-- 30_encoding.md R75: bits 31:8 of a command's word are 0. -/
def Statement (i : Instr) : Prop := reservedField (encode i) = 0#24

/-- The one format of R70 puts zeros there whatever its other fields are. -/
theorem reservedField_cmdWord (slot : BitVec 3) (strict layout : BitVec 1) (op : BitVec 3) :
    reservedField (cmdWord slot strict layout op) = 0#24 := by
  revert slot strict layout op
  decide +kernel

theorem nop : Statement .nop := reservedField_cmdWord _ _ _ _

theorem quant1 (slot : BitVec 3) (layout : Layout) (mode : Mode) : Statement (.quant1 slot layout mode) :=
  reservedField_cmdWord _ _ _ _

theorem qset (layout : Layout) (mode : Mode) : Statement (.qset layout mode) := reservedField_cmdWord _ _ _ _

theorem derive (mode : Mode) : Statement (.derive mode) := reservedField_cmdWord _ _ _ _

theorem dpack (layout : Layout) (mode : Mode) : Statement (.dpack layout mode) := reservedField_cmdWord _ _ _ _

end Sys2Proof.Laws.ReservedZero
end

