-- ==== Sys2Proof/Laws/Step.lean ====
section
/-! SUPPORT. All that one step can do (Machine/Step.lean). -/

namespace Sys2Proof.Laws

open Sys2Proof.Machine Sys2Proof.Safety

theorem turnTaken_of_nil {s : State} (h : s.turns = []) : turnTaken s = s := by
  apply state_ext <;> first | rfl | simp [h]

/-- What runs in a completion step: a command, or the error of an illegal word. -/
theorem runPending_next {p : Snapshot} {s t : State} (hp : s.pend = some p) (h : runPending p s = .next t) :
    (∃ i, decode p.word = .command i ∧ exec i s = .next t) ∨
    (∃ why, decode p.word = .illegal why ∧ t = raiseCmdError .illegalCmd 0#3 s) := by
  unfold runPending at h
  split at h
  · rename_i i hd
    exact .inl ⟨i, hd, h⟩
  · rename_i why hd
    rw [completeIllegal_some hp] at h
    cases h
    exact .inr ⟨why, hd, rfl⟩

/-- A completion step always answers. -/
theorem runPending_total {p : Snapshot} {s : State} (hp : s.pend = some p) : ∃ t, runPending p s = .next t := by
  unfold runPending
  split
  · exact exec_total _ hp
  · exact ⟨_, completeIllegal_some hp⟩

/-- All that a step can do: a reset, a wait, a turn of the host, an idle turn of the engine, or a completion. -/
theorem step_cases {s t : State} (h : step s = .next t) :
    (ResetMoves s ∧ t = resetEvent (turnTaken s)) ∨
    (s.turns.head? = some .wait ∧ t = turnTaken s) ∨
    (HostMoves s ∧ t = hostTurn (turnTaken s)) ∨
    (EngineMoves s ∧ s.busy = false ∧ t = turnTaken s) ∨
    (EngineMoves s ∧ s.busy = true ∧ ∃ p, s.pend = some p ∧ runPending p (turnTaken s) = .next t) := by
  have engine : ∀ u, EngineMoves s → turnTaken s = u → engineTurn u = .next t →
      (EngineMoves s ∧ s.busy = false ∧ t = turnTaken s) ∨
      (EngineMoves s ∧ s.busy = true ∧ ∃ p, s.pend = some p ∧ runPending p (turnTaken s) = .next t) := by
    intro u hm hu he
    subst hu
    have hb : (turnTaken s).busy = s.busy := rfl
    cases hbusy : s.busy with
    | false =>
      simp only [engineTurn, hb, hbusy] at he
      cases he
      exact .inl ⟨hm, rfl, rfl⟩
    | true =>
      simp only [engineTurn, hb, hbusy, if_true] at he
      cases hp : s.pend with
      | none => simp [hp] at he
      | some p =>
        simp only [withTurns_pend, hp] at he
        exact .inr ⟨hm, rfl, p, rfl, he⟩
  cases hs : s.turns with
  | nil =>
    have ht := turnTaken_of_nil hs
    by_cases hb : s.busy = true
    · simp only [step, hs, hb, if_true] at h
      exact .inr (.inr (.inr (engine s (.inr ⟨hs, hb⟩) ht h)))
    · have hb' : s.busy = false := by simpa using hb
      simp only [step, hs, hb'] at h
      cases h
      exact .inr (.inr (.inl ⟨.inr ⟨hs, hb'⟩, by rw [ht]⟩))
  | cons x xs =>
    have ht : turnTaken s = s.withTurns xs := by simp [turnTaken, hs]
    have hh : s.turns.head? = some x := by simp [hs]
    cases x with
    | host =>
      simp only [step, hs] at h
      cases h
      exact .inr (.inr (.inl ⟨.inl hh, by rw [ht]⟩))
    | engine =>
      simp only [step, hs] at h
      exact .inr (.inr (.inr (engine _ (.inl hh) ht h)))
    | wait =>
      simp only [step, hs] at h
      cases h
      exact .inr (.inl ⟨by simp, by rw [ht]⟩)
    | reset =>
      simp only [step, hs] at h
      cases h
      exact .inl ⟨hh, by rw [ht]⟩

end Sys2Proof.Laws
end

