-- ==== Sys2Proof/Laws/Text.lean ====
section
/-! SUPPORT. Tokens joined by single spaces can be read back, and a byte's two renderings name the byte
(Machine/Serialize.lean). -/

namespace Sys2Proof.Laws

open Sys2Proof.Machine

/-- A token has no space in it. -/
def Spaceless (t : List Char) : Prop := ∀ c ∈ t, c ≠ ' '

/-- A token before a space, or before the end, is determined. -/
theorem spaceless_append_inj {s t : List Char} (hs : Spaceless s) (ht : Spaceless t) {u v : List Char}
    (h : s ++ ' ' :: u = t ++ ' ' :: v) : s = t ∧ u = v := by
  induction s generalizing t with
  | nil =>
    cases t with
    | nil => exact ⟨rfl, by simpa using h⟩
    | cons c t =>
      simp only [List.nil_append, List.cons_append, List.cons.injEq] at h
      exact absurd h.1.symm (ht c (by simp))
  | cons a s ih =>
    cases t with
    | nil =>
      simp only [List.nil_append, List.cons_append, List.cons.injEq] at h
      exact absurd h.1 (hs a (by simp))
    | cons c t =>
      simp only [List.cons_append, List.cons.injEq] at h
      obtain ⟨h1, h2⟩ := ih (fun x hx => hs x (by simp [hx])) (fun x hx => ht x (by simp [hx])) h.2
      exact ⟨by rw [h.1, h1], h2⟩

/-- As many spaceless tokens are determined by their text. -/
theorem joinSpace_injective : ∀ {ss ts : List (List Char)}, (∀ s ∈ ss, Spaceless s) → (∀ t ∈ ts, Spaceless t) →
    ss.length = ts.length → joinSpace ss = joinSpace ts → ss = ts
  | [], [], _, _, _, _ => rfl
  | [], _ :: _, _, _, hl, _ => by simp at hl
  | _ :: _, [], _, _, hl, _ => by simp at hl
  | [s], [t], _, _, _, h => by simpa [joinSpace] using h
  | [s], t :: t' :: ts, _, _, hl, _ => by simp at hl
  | s :: s' :: ss, [t], _, _, hl, _ => by simp at hl
  | s :: s' :: ss, t :: t' :: ts, hs, ht, hl, h => by
    simp only [joinSpace] at h
    obtain ⟨h1, h2⟩ := spaceless_append_inj (hs s (by simp)) (ht t (by simp)) h
    have h3 := joinSpace_injective (fun x hx => hs x (List.mem_cons_of_mem _ hx))
      (fun x hx => ht x (List.mem_cons_of_mem _ hx)) (by simpa using hl) h2
    rw [h1, h3]

/-- Joining is intercalating one space. -/
theorem joinSpace_eq_intercalate : ∀ ts : List (List Char), joinSpace ts = List.intercalate [' '] ts
  | [] => rfl
  | [t] => by simp [joinSpace, List.intercalate]
  | t :: u :: ts => by
    have h := joinSpace_eq_intercalate (u :: ts)
    simp only [List.intercalate] at h
    simp [joinSpace, h, List.intercalate]

theorem decByte_eq_toDigits : ∀ b : Byte, decByte b = Nat.toDigits 10 b.toNat := by decide +kernel

theorem hex2_eq_digits : ∀ b : Byte, hex2 b = ["0123456789ABCDEF".toList.getD (b.toNat / 16) ' ',
    "0123456789ABCDEF".toList.getD (b.toNat % 16) ' '] := by decide +kernel

/-- The number a decimal numeral writes. -/
def decimalValue (t : List Char) : Nat := t.foldl (fun n c => 10 * n + (c.toNat - 0x30)) 0

theorem decimalValue_decByte : ∀ b : Byte, decimalValue (decByte b) = b.toNat := by decide +kernel

theorem decByte_length : ∀ b : Byte, 1 ≤ (decByte b).length ∧ (decByte b).length ≤ 3 := by decide +kernel

theorem spaceless_hex2 (b : Byte) : Spaceless (hex2 b) := by
  have h : ∀ b : Byte, (hex2 b).all (· != ' ') = true := by decide +kernel
  intro c hc
  simpa using List.all_eq_true.mp (h b) c hc

theorem spaceless_decByte (b : Byte) : Spaceless (decByte b) := by
  have h : ∀ b : Byte, (decByte b).all (· != ' ') = true := by decide +kernel
  intro c hc
  simpa using List.all_eq_true.mp (h b) c hc

/-- The value of two hexadecimal digits. -/
def hexValue (t : List Char) : Nat :=
  t.foldl (fun n c => 16 * n + (if c.toNat < 0x3A then c.toNat - 0x30 else c.toNat - 0x37)) 0

theorem hexValue_hex2 : ∀ b : Byte, hexValue (hex2 b) = b.toNat := by decide +kernel

/-- The bytes are determined by their list. -/
theorem wireBytes_injective {y z : PerSlot Packed} (h : wireBytes y = wireBytes z) : y = z := by
  obtain ⟨⟨a, b, c⟩, ⟨d, e, f⟩, ⟨g, i, j⟩, ⟨k, l, m⟩, ⟨n, o, p⟩⟩ := y
  obtain ⟨⟨a', b', c'⟩, ⟨d', e', f'⟩, ⟨g', i', j'⟩, ⟨k', l', m'⟩, ⟨n', o', p'⟩⟩ := z
  simpa [wireBytes, PerSlot.toList, and_assoc] using h

@[simp] theorem wireBytes_length (y : PerSlot Packed) : (wireBytes y).length = 15 := rfl

end Sys2Proof.Laws
end

