-- ==== Sys2Proof/Tests/Slice0.lean ====
section
/-! SUPPORT. Tests, with results taken from the spec's own vectors and worked examples (95_test_vectors.md, unless a
comment names another place), and one witness for each statement that has hypotheses: concrete data that meets them. -/

namespace Sys2Proof.Tests

-- One theorem after the other: each waiting for the kernel in a thread of its own would cost much memory.
set_option Elab.async false

open Sys2Proof Sys2Proof.Machine Sys2Proof.Safety

/-! Small states. -/

/-- The next state of an outcome. -/
def next? : Host.Outcome State Fault Refusal → Option State
  | .next s => some s
  | _ => none

/-- The state after reset with these coefficients. -/
def coefState (c : PerSlot Binary64) : State := State.reset.withCoefs c

/-- The state after reset with these parameters. -/
def paramState (g f r q : Binary64) : State := State.reset.withParams ⟨g, f, r, q⟩

/-- The pass-through set of W2. -/
def passThrough : PerSlot Binary64 := ⟨Lit.one, Lit.negTwo, Lit.one, Lit.negTwo, Lit.one⟩

/-- The set of section 2.2: 0x123456/2^20, -0.1, 8.0, -(8 + 2^-20), NaN. -/
def mixedSet : PerSlot Binary64 :=
  ⟨0x3FF2345600000000#64, 0xBFB999999999999A#64, 0x4020000000000000#64, 0xC020000020000000#64, 0x7FF8000000000000#64⟩

/-- 11.5 dB, 265 Hz, 48000 Hz, Q 1.09 (W4). -/
def w4State : State :=
  paramState 0x4027000000000000#64 0x4070900000000000#64 0x40E7700000000000#64 0x3FF170A3D70A3D71#64

/-- Data of a state, for a comparison. -/
def packedOf (s : State) : Word × Word × List Code × List Byte :=
  (s.status, s.qflags, s.codes.toList, wireBytes s.bytes)

/-! Well-formed terms (30_encoding.md R74). -/

theorem test_wellFormed_refuses_slot_5 : Instr.wellFormed (.quant1 5#3 .direct .reference) = false := by decide

theorem test_wellFormed_refuses_slot_7 : Instr.wellFormed (.quant1 7#3 .nibble .strict) = false := by decide

theorem test_wellFormed_accepts_slot_4 : Instr.wellFormed (.quant1 4#3 .nibble .strict) = true := by decide

/-! Decoding, from the words of section 2.6. -/

theorem test_decode_nop : decode 0b00000000000000000000000000000000#32 = .command .nop ∧
    decode 0x00000008#32 = .illegal .mustBeZero ∧ decode 0x00000010#32 = .illegal .mustBeZero := by decide

theorem test_decode_quant1 : decode 0b00000000000000000000000001101001#32 = .command (.quant1 3#3 .nibble .reference) ∧
    decode 0x00000081#32 = .command (.quant1 4#3 .direct .reference) ∧
    decode 0x00000091#32 = .command (.quant1 4#3 .direct .strict) ∧
    decode 0x000000A1#32 = .illegal .slotOutOfRange ∧ decode 0x000000C1#32 = .illegal .slotOutOfRange ∧
    decode 0x000000E1#32 = .illegal .slotOutOfRange := by decide

theorem test_decode_qset : decode 0b00000000000000000000000000011010#32 = .command (.qset .nibble .strict) ∧
    decode 0x00000002#32 = .command (.qset .direct .reference) ∧ decode 0x00000022#32 = .illegal .mustBeZero ∧
    decode 0x00000092#32 = .illegal .mustBeZero ∧ decode 0x80000002#32 = .illegal .reservedBits := by decide

theorem test_decode_derive : decode 0b00000000000000000000000000010011#32 = .command (.derive .strict) ∧
    decode 0x00000003#32 = .command (.derive .reference) ∧ decode 0x0000000B#32 = .illegal .mustBeZero ∧
    decode 0x0000001B#32 = .illegal .mustBeZero := by decide

theorem test_decode_dpack : decode 0b00000000000000000000000000011100#32 = .command (.dpack .nibble .strict) ∧
    decode 0x0000000C#32 = .command (.dpack .nibble .reference) ∧
    decode 0x00000014#32 = .command (.dpack .direct .strict) := by decide

theorem test_decode_reserved_op : decode 0x00000005#32 = .illegal .reservedOp ∧
    decode 0x00000006#32 = .illegal .reservedOp ∧ decode 0x00000007#32 = .illegal .reservedOp ∧
    decode 0x00000102#32 = .illegal .reservedBits := by decide

theorem test_encode_words : encode (.dpack .direct .strict) = 0x14#32 ∧ encode (.quant1 3#3 .nibble .reference) = 0x69#32 ∧
    encode (.qset .nibble .reference) = 0x0A#32 ∧ encode (.derive .strict) = 0x13#32 ∧ encode .nop = 0#32 := by decide

theorem test_decodeTableWord : decodeTableWord 32 0x1A = some (.qset .nibble .strict) ∧
    decodeTableWord 32 5 = none := by decide

/-- The host syntax of the programs of section 3. -/
theorem test_assemble : assembleWord "QUANT1.nibble a1".toList = some 0x69#32 ∧
    assembleWord "DPACK.direct.strict".toList = some 0x14#32 ∧ assembleWord "QSET".toList = some 0x02#32 ∧
    assembleWord "QUANT1.strict 4".toList = some 0x91#32 ∧ assembleWord ".word 0x000000A1".toList = some 0xA1#32 ∧
    assembleWord "QUANT1".toList = none := by decide +kernel

/-! Binary64. The divisions and the product are worked by hand; the last is 2.0 * PI64 of 40_derive.md R101. -/

theorem test_arithmetic : fdiv Lit.one 0x4008000000000000#64 = 0x3FD5555555555555#64 ∧
    fdiv Lit.two 0x4008000000000000#64 = 0x3FE5555555555555#64 ∧
    fadd Lit.one 0x3CA0000000000000#64 = Lit.one ∧ fadd Lit.one 0x3CA0000000000001#64 = 0x3FF0000000000001#64 ∧
    fsub Lit.one Lit.one = Lit.zero ∧ fmul Lit.negTwo Lit.zero = Lit.negZero ∧
    fdiv Lit.zero Lit.zero = Config.canonicalNaN ∧ fdiv Lit.one Lit.negZero = Lit.negInf ∧
    fmul 0x7FEFFFFFFFFFFFFF#64 Lit.two = Lit.posInf ∧ fmul 0x0000000000000001#64 0x3FE0000000000000#64 = Lit.zero ∧
    fmul Lit.two Config.pi64 = 0x401921FB54442D18#64 := by decide +kernel

/-- The binary64 constants of the preamble, of decimal numerals. -/
theorem test_f64 : f64 false 115 10 = 0x4027000000000000#64 ∧ f64 false 109 100 = 0x3FF170A3D70A3D71#64 ∧
    f64 false 48000 1 = 0x40E7700000000000#64 ∧ f64 true 2 1 = Lit.negTwo ∧
    f64 false 1 10 = 0x3FB999999999999A#64 := by decide +kernel

/-! Quantization, the rows of section 2.1: binary64, s (none where the table gives no number), code, flags NF OVF RNG
NEG, strict cause. -/

def quantRow (c : Binary64) (s : Option Nat) (code : Code) (flags : BitVec 4) (cause : Option Cause) : Bool :=
  (s == none || s == some (quantMagnitude c)) && quantCode c == code && slotFlagBits (quantFlags c) == flags &&
    quantCause c == cause

theorem test_quant_small :
    quantRow 0x3FF0000000000000#64 (some 1048576) 0x100000#24 0b0000#4 none ∧
    quantRow 0xBFF0000000000000#64 (some 1048576) 0xF00000#24 0b0001#4 none ∧
    quantRow 0xC000000000000000#64 (some 2097152) 0xE00000#24 0b0001#4 none ∧
    quantRow 0x0000000000000000#64 (some 0) 0x000000#24 0b0001#4 none ∧
    quantRow 0x8000000000000000#64 (some 0) 0x000000#24 0b0001#4 none ∧
    quantRow 0x3EB0000000000000#64 (some 1) 0x000001#24 0b0000#4 none ∧
    quantRow 0xBEB0000000000000#64 (some 1) 0xFFFFFF#24 0b0001#4 none ∧
    quantRow 0x3EA0000000000000#64 (some 0) 0x000000#24 0b0000#4 none ∧
    quantRow 0xBEA0000000000000#64 (some 0) 0x000000#24 0b0001#4 none ∧
    quantRow 0x0000000000000001#64 (some 0) 0x000000#24 0b0000#4 none ∧
    quantRow 0x3FE0000000000000#64 (some 524288) 0x080000#24 0b0000#4 none := by decide +kernel

theorem test_quant_middle :
    quantRow 0x3FF2345600000000#64 (some 1193046) 0x123456#24 0b0000#4 none ∧
    quantRow 0xBFF2345600000000#64 (some 1193046) 0xEDCBAA#24 0b0001#4 none ∧
    quantRow 0x3FB999999999999A#64 (some 104857) 0x019999#24 0b0000#4 none ∧
    quantRow 0xBFB999999999999A#64 (some 104857) 0xFE6667#24 0b0001#4 none ∧
    quantRow 0x401FFFFFC0000000#64 (some 8388607) 0x7FFFFF#24 0b0000#4 none ∧
    quantRow 0x4020000000000000#64 (some 8388608) 0x800000#24 0b0010#4 (some .signedRange) ∧
    quantRow 0xC020000000000000#64 (some 8388608) 0x800000#24 0b0001#4 none ∧
    quantRow 0xC020000010000000#64 (some 8388608) 0x800000#24 0b0001#4 none ∧
    quantRow 0xC020000020000000#64 (some 8388609) 0x7FFFFF#24 0b0011#4 (some .signedRange) := by decide +kernel

theorem test_quant_large :
    quantRow 0x402FFFFFE0000000#64 (some 16777215) 0xFFFFFF#24 0b0010#4 (some .signedRange) ∧
    quantRow 0xC02FFFFFE0000000#64 (some 16777215) 0x000001#24 0b0011#4 (some .signedRange) ∧
    quantRow 0x4030000000000000#64 (some 16777216) 0x000000#24 0b0110#4 (some .quantOverflow) ∧
    quantRow 0xC030000000000000#64 (some 16777216) 0x000000#24 0b0111#4 (some .quantOverflow) ∧
    quantRow 0x4031400000000000#64 (some 18087936) 0x140000#24 0b0110#4 (some .quantOverflow) ∧
    quantRow 0xC031400000000000#64 (some 18087936) 0xEC0000#24 0b0111#4 (some .quantOverflow) ∧
    quantRow 0x7E37E43C8800759C#64 none 0x000000#24 0b0110#4 (some .quantOverflow) ∧
    quantRow 0x7FF0000000000000#64 (some 0) 0x000000#24 0b1110#4 (some .nonfiniteCoef) ∧
    quantRow 0xFFF0000000000000#64 (some 0) 0x000000#24 0b1111#4 (some .nonfiniteCoef) ∧
    quantRow 0x7FF8000000000000#64 (some 0) 0x000000#24 0b1001#4 (some .nonfiniteCoef) := by decide +kernel

/-- W7. -/
theorem test_layouts : layoutDirect 0xABCDEF#24 = ⟨0xAB#8, 0xCD#8, 0xEF#8⟩ ∧
    layoutNibble 0xABCDEF#24 = ⟨0x0E#8, 0xFC#8, 0xDA#8⟩ ∧ layoutNibble 0x123456#24 = ⟨0x05#8, 0x63#8, 0x41#8⟩ ∧
    layoutNibble 0x800000#24 = ⟨0x00#8, 0x00#8, 0x08#8⟩ ∧ layoutNibble 0x0F0000#24 = ⟨0x00#8, 0x00#8, 0x00#8⟩ ∧
    unpackNibble ⟨0x0E#8, 0xFC#8, 0xDA#8⟩ = 0xA0CDEF#24 ∧ unpackDirect ⟨0x01#8, 0x99#8, 0x99#8⟩ = 0x019999#24 := by
  decide

/-! The commands, each as one completion. -/

/-- Section 2.6: after STATUS 00000026 NOP leaves 00000002, and with WERR = 1, 0000000A. -/
theorem test_nop : (next? (exec .nop (accept 0#32 (State.reset.withStatus 0x26#32)))).map State.status = some 0x2#32 ∧
    (next? (exec .nop (accept 0#32 (State.reset.withStatus 0x2E#32)))).map State.status = some 0xA#32 := by decide

/-- Section 2.2, steps 1 and 3, each alone from the written coefficients. -/
theorem test_quant1 :
    (next? (exec (.quant1 0#3 .direct .reference) (accept 0x01#32 (coefState mixedSet)))).map packedOf =
      some (0x2#32, 0#32, [0x123456#24, 0#24, 0#24, 0#24, 0#24],
        [0x12#8, 0x34#8, 0x56#8, 0#8, 0#8, 0#8, 0#8, 0#8, 0#8, 0#8, 0#8, 0#8, 0#8, 0#8, 0#8]) ∧
    (next? (exec (.quant1 2#3 .direct .reference) (accept 0x41#32 (coefState mixedSet)))).map packedOf =
      some (0x2#32, 0x200#32, [0#24, 0#24, 0x800000#24, 0#24, 0#24],
        [0#8, 0#8, 0#8, 0#8, 0#8, 0#8, 0x80#8, 0#8, 0#8, 0#8, 0#8, 0#8, 0#8, 0#8, 0#8]) := by decide +kernel

/-- Section 2.2, steps 8 and 9. -/
theorem test_quant1_strict :
    (next? (exec (.quant1 4#3 .direct .strict) (accept 0x91#32 (coefState mixedSet)))).map packedOf =
      some (0x456#32, 0x90000#32, [0#24, 0#24, 0#24, 0#24, 0#24], List.replicate 15 0#8) ∧
    (next? (exec (.quant1 0#3 .nibble .reference) (accept 0x09#32 (coefState mixedSet)))).map (wireBytes ·.bytes) =
      some [0x05#8, 0x63#8, 0x41#8, 0#8, 0#8, 0#8, 0#8, 0#8, 0#8, 0#8, 0#8, 0#8, 0#8, 0#8, 0#8] := by decide +kernel

/-- Section 2.3, the rows of reset and of QSET.nibble on the pass-through set. -/
theorem test_qset :
    (next? (exec (.qset .direct .reference) (accept 0x02#32 State.reset))).map packedOf =
      some (0x2#32, 0x11111#32, [0#24, 0#24, 0#24, 0#24, 0#24], List.replicate 15 0#8) ∧
    (next? (exec (.qset .nibble .reference) (accept 0x0A#32 (coefState passThrough)))).map packedOf =
      some (0x2#32, 0x1010#32, [0x100000#24, 0xE00000#24, 0x100000#24, 0xE00000#24, 0x100000#24],
        [0#8, 0#8, 0x01#8, 0#8, 0#8, 0x0E#8, 0#8, 0#8, 0x01#8, 0#8, 0#8, 0x0E#8, 0#8, 0#8, 0x01#8]) := by decide +kernel

/-- Section 2.3, (1, -2, 17.25, -2, 1) with QSET.nibble.strict and (1, 8.0, 1, NaN, 1) with QSET.strict. -/
theorem test_qset_strict :
    (next? (exec (.qset .nibble .strict)
      (accept 0x1A#32 (coefState (passThrough.set .b2 0x4031400000000000#64))))).map packedOf =
        some (0x236#32, 0x1610#32, [0#24, 0#24, 0#24, 0#24, 0#24], List.replicate 15 0#8) ∧
    (next? (exec (.qset .direct .strict)
      (accept 0x12#32 (coefState ⟨Lit.one, Lit.eight, Lit.one, Config.canonicalNaN, Lit.one⟩)))).map packedOf =
        some (0x146#32, 0x9020#32, [0#24, 0#24, 0#24, 0#24, 0#24], List.replicate 15 0#8) := by decide +kernel

/-- The worked example of 40_derive.md R108, the values of Pow, Sin and Cos supplied as the GNU C library gives them for
its operands; A and omega are those of W4. -/
theorem test_derive_worked :
    derive ⟨fun _ _ => 0x3FFF04B8A05B80B6#64, fun _ => 0x3FA1C1C4C771C987#64, fun _ => 0x3FEFFB1263A72513#64⟩
      w4State.params =
      ⟨0x3FF02F9F911C8DC1#64, 0xBFFFD89007DFA07E#64, 0x3FEF5BB18381737A#64, 0xBFFFD89007DFA07E#64,
        0x3FEFBAF0A5BA8EFB#64⟩ ∧ deriveOmega w4State.params = 0x3FA1C2AE314EE5D7#64 := by decide +kernel

/-- Section 2.4: DERIVE.strict after reset, and with rate +0.0; COEF stays. -/
theorem test_derive_strict :
    (next? (exec (.derive .strict) (accept 0x13#32 (coefState passThrough)))).map (fun s => (s.status, s.coefs)) =
      some (0x126#32, passThrough) ∧
    (next? (exec (.derive .strict) (accept 0x13#32 (paramState 0#64 0x408F400000000000#64 0#64 Lit.one)))).map
      State.status = some 0x226#32 := by decide +kernel

/-- W8: DPACK.strict with (3.0, 1000.0, 48000.0, 0.0). -/
theorem test_dpack_strict :
    (next? (exec (.dpack .direct .strict)
      (accept 0x14#32 (paramState 0x4008000000000000#64 0x408F400000000000#64 0x40E7700000000000#64 0#64)))).map
      packedOf = some (0x326#32, 0#32, [0#24, 0#24, 0#24, 0#24, 0#24], List.replicate 15 0#8) := by decide +kernel

/-- W4, both layouts: the bytes DPACK packs from the coefficients of the worked example. -/
theorem test_dpack_bytes :
    toHex ((PerSlot.mk 0x3FF02F9F911C8DC1#64 0xBFFFD89007DFA07E#64 0x3FEF5BB18381737A#64 0xBFFFD89007DFA07E#64
      0x3FEFBAF0A5BA8EFB#64).map fun c => packCode .direct (quantCode c)) =
        "10 2F 9F E0 27 70 0F AD D8 E0 27 70 0F DD 78".toList ∧
    toDecimal ((PerSlot.mk 0x3FF02F9F911C8DC1#64 0xBFFFD89007DFA07E#64 0x3FEF5BB18381737A#64 0xBFFFD89007DFA07E#64
      0x3FEFBAF0A5BA8EFB#64).map fun c => packCode .nibble (quantCode c)) =
        "9 242 241 7 2 126 13 138 208 7 2 126 7 141 208".toList := by decide +kernel

/-- Section 2.6: the word 5 completes with 00000016, as the step of a placed word. -/
theorem test_illegal_word : (next? (step (State.reset.withFetchWord 32 5))).map State.status = some 0x16#32 ∧
    (next? (step (State.reset.withFetchWord 32 0))).map State.status = some 0x2#32 := by decide

/-! The bus (section 2.7). -/

theorem test_bus_idle : busWrite 0x18#8 0x123456#64 State.reset = (.ok, State.reset) ∧
    busWrite 0x02#8 0xF#64 State.reset = (.ok, State.reset) ∧
    (busWrite 0x10#8 0x3FF0000000000000#64 State.reset).2.coefs.b0 = Lit.one ∧
    busWrite 0x01#8 0x7#64 State.reset = (.ok, State.reset) := by decide

theorem test_bus_busy : (busWrite 0x0B#8 1#64 (accept 3#32 State.reset)).2.status = 0x9#32 ∧
    (busWrite 0x00#8 0#64 (accept 3#32 State.reset)).2.pend = (accept 3#32 State.reset).pend ∧
    (busWrite 0x01#8 0x8#64 (accept 3#32 (State.reset.withStatus 0x8#32))).2.status = 0x1#32 := by decide

/-- The code after QSET on -2^-20 is read zero-extended. -/
theorem test_bus_code_zero_extended :
    busRead 0x18#8 (State.reset.withCodes (.all 0xFFFFFF#24)) = (.ok, 0x0000000000FFFFFF#64) ∧
    busRead 0x23#8 (State.reset.withBytes ⟨⟨1#8, 2#8, 3#8⟩, ⟨4#8, 5#8, 6#8⟩, ⟨7#8, 8#8, 9#8⟩, ⟨10#8, 11#8, 12#8⟩,
      ⟨13#8, 14#8, 15#8⟩⟩) = (.ok, 4#64) := by decide

/-- W5 and section 2.8: the order of the bytes, and two bands. -/
theorem test_text :
    toHex ((PerSlot.mk 0x040000#24 0xF80000#24 0x0C0000#24 0xEC0000#24 0x180000#24).map layoutDirect) =
      "04 00 00 F8 00 00 0C 00 00 EC 00 00 18 00 00".toList ∧
    toDecimal ((PerSlot.mk 0x040000#24 0xF80000#24 0x0C0000#24 0xEC0000#24 0x180000#24).map layoutDirect) =
      "4 0 0 248 0 0 12 0 0 236 0 0 24 0 0".toList ∧
    (bandsText toHex [.all ⟨0#8, 0#8, 0#8⟩, .all ⟨0#8, 0#8, 0#8⟩]).length = 89 ∧
    (toDecimal (.all ⟨0xFF#8, 0xFF#8, 0xFF#8⟩)).length = 59 := by decide +kernel

/-- Section 2.9: a command accepted and not completed does not survive a reset. -/
theorem test_reset : (next? (step ((accept 0x02#32 (coefState passThrough)).withTurns [.reset]))).map
    (fun s => (s.status, s.pend, s.coefs)) = some (0#32, none, .all 0#64) := by decide

/-! Witnesses: data that meets the hypotheses of each statement that has some, clause by clause at the edges of their
ranges. -/

/-- A QSET pending on the pass-through set, with a word, parameters and STATUS that are not those of reset. -/
def busyState (w : CmdWord) : State :=
  accept w ((w4State.withCoefs passThrough).withStatus 0x8#32)

/-- Its snapshot. -/
def busySnapshot (w : CmdWord) : Snapshot := ⟨w, w4State.params, passThrough⟩

theorem witness_ResetEventClearsEveryRegisterAndAbandonsTheCommand :
    ResetMoves ((busyState 0x02#32).withTurns [.reset]) ∧ (busyState 0x02#32).pend.isSome = true ∧
    ResetMoves (State.reset.withTurns [.reset, .host]) := by decide

theorem witness_RegisterMapIsOneToOne :
    (∀ idx ∈ [0x03#8, 0x07#8, 0x0C#8, 0x0F#8, 0x15#8, 0x17#8, 0x1D#8, 0x1F#8, 0x2F#8, 0xFF#8], Unmapped idx) ∧
    (∀ idx ∈ [0x00#8, 0x02#8, 0x08#8, 0x0B#8, 0x10#8, 0x14#8, 0x18#8, 0x1C#8, 0x20#8, 0x2E#8], ¬ Unmapped idx) := by
  decide

theorem witness_UnmappedAccessIsABusErrorAndChangesNothing : Unmapped 0x0F#8 ∧ Unmapped 0x2F#8 := by decide

theorem witness_BusReadReturnsTheRegisterZeroExtended : Unmapped 0x1D#8 ∧
    ReservedZero ((State.reset.withStatus 0x77F#32).withQflags 0xFFFFF#32) ∧
    (∃ r : Reg, r.index = 0x2E#8 ∧ r = .byte .a2 .third) ∧ Reg.index .qflags = 0x02#8 ∧
    Reg.index (.code .a2) = 0x1C#8 ∧
    (∃ s t, s = (busyState 0x02#32).withTurns [.host] ∧ s.busy = true ∧ step s = .next t ∧ t.busy = true) := by
  exact ⟨by decide, by decide, ⟨_, by decide, rfl⟩, by decide, by decide, ⟨_, _, rfl, by decide, rfl, by decide⟩⟩

theorem witness_BusWriteStoresDropsOrIgnores : Unmapped 0xFF#8 ∧ State.reset.busy = false ∧
    (busyState 0x02#32).busy = true ∧ (0x8#64).getLsbD 3 = true ∧ (0xFFFFFFFFFFFFFFF7#64).getLsbD 3 = false := by decide

theorem witness_AcceptanceTakesTheSnapshotAndClearsTheReport :
    (State.reset.withStatus 0x456#32).busy = false ∧ (busyState 0x02#32).busy = true := by decide

theorem witness_DecodingInvertsEncoding : Instr.WellFormed (.quant1 4#3 .nibble .strict) ∧
    decode 0x00000099#32 = .command (.quant1 4#3 .nibble .strict) := by decide

theorem witness_DecodingSelectsTheMatchAndMaskRow : State.reset.busy = false ∧
    (decode 0x00000081#32 = .command (.quant1 4#3 .direct .reference) ∧ 0x81#32 &&& 0xFFFFFF07#32 = 0x1#32) := by decide

theorem witness_IllegalWordsCompleteWithIllegalCmdOnly : State.reset.busy = false ∧
    (busyState 0x00000100#32).pend = some (busySnapshot 0x00000100#32) ∧
    decode 0x00000100#32 = .illegal .reservedBits ∧ decode 0x80000000#32 = .illegal .reservedBits ∧
    decode 0x00000005#32 = .illegal .reservedOp ∧ decode 0x000000A1#32 = .illegal .slotOutOfRange ∧
    decode 0x00000008#32 = .illegal .mustBeZero ∧ decode 0x00000022#32 = .illegal .mustBeZero ∧
    decode 0x0000000B#32 = .illegal .mustBeZero ∧ decode 0x00000024#32 = .illegal .mustBeZero := by decide

theorem witness_ReservedWordBitsAreIllegalAndHighBusBitsIgnored : (0x00000100#32).getLsbD 8 = true ∧
    (0x80000002#32).getLsbD 31 = true ∧
    ∀ b, b < 32 → (0xFFFFFFFF00000002#64).getLsbD b = (0x2#64).getLsbD b := by decide

theorem witness_StepRunsTheDecodedCommand : EngineMoves (busyState 0x1A#32) ∧
    EngineMoves ((busyState 0x1A#32).withTurns [.engine, .host]) ∧ (busyState 0x1A#32).busy = true ∧
    (busyState 0x1A#32).pend = some (busySnapshot 0x1A#32) ∧ decode 0x1A#32 = .command (.qset .nibble .strict) ∧
    decode (busySnapshot 0x05#32).word = .illegal .reservedOp ∧
    decode (BitVec.ofNat 32 0x13) = .command (.derive .strict) := by decide

/-- A host with a write and a wait to execute. -/
def hostState (s : State) : State := s.withHost ⟨[.wr 0x00#8 0x2#64, .wait], []⟩

theorem witness_EachTurnIsItsAgentsMove : ((busyState 0x02#32).withTurns [.wait]).turns.head? = some .wait ∧
    ((State.reset.withTurns [.engine]).turns.head? = some .engine ∧ (State.reset.withTurns [.engine]).busy = false) ∧
    ResetMoves ((busyState 0x02#32).withTurns [.reset]) ∧
    (HostMoves State.reset ∧ State.reset.host.program = []) ∧
    HostMoves ((busyState 0x02#32).withTurns [.host]) ∧
    (HostMoves (hostState State.reset) ∧
      (hostState State.reset).host.program = .wr 0x00#8 0x2#64 :: [.wait]) := by decide

theorem witness_HostInstructionsAccessTheBusOnce : (busyState 0x02#32).busy = true ∧ State.reset.busy = false ∧
    Unmapped 0x07#8 ∧ Unmapped 0x2F#8 := by
  decide

theorem inv_busyState : Inv ((busyState 0x02#32).withTurns [.host, .wait]) :=
  ⟨by decide, by decide, by decide, by decide, by decide⟩

theorem witness_AnAcceptedCommandCompletesUnlessReset : ∃ s : State, Inv s ∧ s.busy = true ∧
    (∀ x ∈ s.turns, x ≠ .reset) ∧ s.turns.length = 2 := ⟨_, inv_busyState, by decide, by decide, by decide⟩

theorem witness_AStepOfTheInvariantNeverStops : ∃ s : State, Inv s ∧ s.pend.isSome = true :=
  ⟨_, inv_busyState, by decide⟩

theorem witness_EveryStepKeepsTheInvariant : ∃ s t : State, Inv s ∧ s.turns = [.engine] ∧ step s = .next t ∧
    s.codes ≠ t.codes :=
  ⟨(busyState 0x02#32).withTurns [.engine], _, ⟨by decide, by decide, by decide, by decide, by decide⟩, rfl, rfl,
    by decide +kernel⟩

/-- One step for each clause: BUSY set, BUSY cleared, WERR set, WERR cleared. -/
theorem witness_OnlyTheNamedEventsChangeBusyAndWerr :
    (∃ t, step (hostState State.reset) = .next t ∧ statusBusy (hostState State.reset).status = false ∧
      statusBusy t.status = true) ∧
    (∃ t, step (busyState 0#32) = .next t ∧ statusBusy (busyState 0#32).status = true ∧ statusBusy t.status = false) ∧
    (∃ s t, step s = .next t ∧ statusWerr s.status = false ∧ statusWerr t.status = true ∧
      s = (hostState (accept 0#32 State.reset)).withTurns [.host]) ∧
    (∃ s t, step s = .next t ∧ statusWerr s.status = true ∧ statusWerr t.status = false ∧
      s = (busyState 0#32).withTurns [.reset]) ∧
    (∃ s t, step s = .next t ∧ statusWerr s.status = true ∧ statusWerr t.status = false ∧
      s = ((State.reset.withStatus 0x8#32).withHost ⟨[.wr 0x01#8 0x8#64], []⟩)) :=
  ⟨⟨_, rfl, by decide, by decide⟩, ⟨_, rfl, by decide, by decide⟩, ⟨_, _, rfl, by decide, by decide, rfl⟩,
    ⟨_, _, rfl, by decide, by decide, rfl⟩, ⟨_, _, rfl, by decide, by decide, rfl⟩⟩

/-- One step for each clause: a host write of PARAM, one of COEF, a completion that writes QFLAGS. -/
theorem witness_OnlyTheNamedAgentsWriteEachRegister :
    (∃ s t, step s = .next t ∧ t.params ≠ s.params ∧ s = State.reset.withHost ⟨[.wr 0x0B#8 1#64], []⟩) ∧
    (∃ s t, step s = .next t ∧ t.coefs ≠ s.coefs ∧ s = State.reset.withHost ⟨[.wr 0x14#8 1#64], []⟩) ∧
    (∃ s t, step s = .next t ∧ t.qflags ≠ s.qflags ∧ s = busyState 0x02#32) :=
  ⟨⟨_, _, rfl, by decide, rfl⟩, ⟨_, _, rfl, by decide, rfl⟩, ⟨_, _, rfl, by decide +kernel, rfl⟩⟩

theorem witness_NopCompletesWithNoEffectOnData : (busyState 0#32).pend = some (busySnapshot 0#32) := by decide

/-- Slot 2 and slot 3 of the mixed set fail, slot 0 does not; the slots 0 and 4 are the edges. -/
theorem witness_Quant1QuantizesItsSlot :
    (accept 0x51#32 (coefState mixedSet)).pend = some ⟨0x51#32, State.reset.params, mixedSet⟩ ∧
    (2#3).toNat = slotNum .b2 ∧ quantCause (mixedSet.get .b2) = some .signedRange ∧ (0#3).toNat = slotNum .b0 ∧
    quantCause (mixedSet.get .b0) = none ∧ (4#3).toNat = slotNum .a2 ∧
    quantCause (mixedSet.get .a2) = some .nonfiniteCoef := by decide +kernel

theorem witness_Quant1OfNoSlotCompletesAsIllegal : (busyState 0xA1#32).pend = some (busySnapshot 0xA1#32) ∧
    5 ≤ (5#3).toNat ∧ 5 ≤ (7#3).toNat := by decide

theorem witness_QsetQuantizesTheWholeSet :
    (accept 0x12#32 (coefState mixedSet)).pend = some ⟨0x12#32, State.reset.params, mixedSet⟩ ∧
    quantCause (mixedSet.get .b2) = some .signedRange ∧
    (∀ j ∈ allSlots, slotNum j < slotNum .b2 → quantCause (mixedSet.get j) = none) ∧
    (busyState 0x12#32).pend = some (busySnapshot 0x12#32) ∧
    (∀ j ∈ allSlots, quantCause (passThrough.get j) = none) := by decide +kernel

/-- Reset parameters fail at the frequency; those of W4 are valid. -/
theorem witness_DeriveWritesTheCoefficients :
    (accept 0x13#32 State.reset).pend = some ⟨0x13#32, State.reset.params, State.reset.coefs⟩ ∧
    firstInvalidParam State.reset.params = some .freq ∧
    (busyState 0x13#32).pend = some (busySnapshot 0x13#32) ∧ firstInvalidParam w4State.params = none := by
  decide +kernel

/-- As for DERIVE. The coefficients of the valid set are those of open functions, and one of the two last clauses always
applies to them. -/
theorem witness_DpackDerivesAndQuantizesTheSet :
    (accept 0x14#32 State.reset).pend = some ⟨0x14#32, State.reset.params, State.reset.coefs⟩ ∧
    firstInvalidParam State.reset.params = some .freq ∧
    (busyState 0x14#32).pend = some (busySnapshot 0x14#32) ∧ firstInvalidParam w4State.params = none ∧
    ∀ c : PerSlot Binary64, (∀ i, quantCause (c.get i) = none) ∨
      ∃ i e, quantCause (c.get i) = some e ∧ ∀ j, slotNum j < slotNum i → quantCause (c.get j) = none := by
  refine ⟨by decide, by decide +kernel, by decide, by decide +kernel, fun c => ?_⟩
  cases h0 : quantCause (c.get .b0) with
  | some e => exact .inr ⟨.b0, e, h0, fun j hj => absurd hj (Nat.not_lt_zero _)⟩
  | none =>
    cases h1 : quantCause (c.get .b1) with
    | some e => exact .inr ⟨.b1, e, h1, fun j hj => by cases j <;> simp_all [slotNum]⟩
    | none =>
      cases h2 : quantCause (c.get .b2) with
      | some e => exact .inr ⟨.b2, e, h2, fun j hj => by cases j <;> simp_all [slotNum]⟩
      | none =>
        cases h3 : quantCause (c.get .a1) with
        | some e => exact .inr ⟨.a1, e, h3, fun j hj => by cases j <;> simp_all [slotNum]⟩
        | none =>
          cases h4 : quantCause (c.get .a2) with
          | some e => exact .inr ⟨.a2, e, h4, fun j hj => by cases j <;> simp_all [slotNum]⟩
          | none => exact .inl fun i => by cases i <;> assumption

/-- The error of a command, with QFLAGS written before it. -/
theorem witness_RaisingAnErrorWritesTheReportOnly :
    (∃ t, exec (.qset .direct .strict) (accept 0x12#32 (coefState mixedSet)) = .next t ∧ statusErr t.status = true) ∧
    (∃ t, exec (.dpack .direct .strict) (accept 0x14#32 State.reset) = .next t ∧ statusErr t.status = true) :=
  ⟨⟨_, rfl, by decide +kernel⟩, ⟨_, rfl, by decide +kernel⟩⟩

/-- A command that errs with QFLAGS changed and one that does not err. -/
theorem witness_CommandsAreAllOrNothing : Instr.WellFormed (.qset .direct .strict) ∧
    (accept 0x12#32 (coefState mixedSet)).pend = some ⟨0x12#32, State.reset.params, mixedSet⟩ ∧
    (busyState 0x12#32).pend = some (busySnapshot 0x12#32) ∧
    (Instr.WellFormed (.quant1 4#3 .nibble .strict) ∧
      ∃ t, exec (.quant1 4#3 .nibble .strict) (busyState 0x99#32) = .next t ∧ statusErr t.status = false) ∧
    (∃ t, exec (.qset .direct .strict) (accept 0x12#32 (coefState mixedSet)) = .next t ∧ statusErr t.status = true ∧
      t.qflags ≠ 0#32) ∧
    (∃ t, exec (.qset .direct .strict) (busyState 0x12#32) = .next t ∧ statusErr t.status = false) :=
  ⟨by decide, by decide, by decide, ⟨by decide, _, rfl, by decide +kernel⟩,
    ⟨_, rfl, by decide +kernel, by decide +kernel⟩, ⟨_, rfl, by decide +kernel⟩⟩

theorem witness_CommandsChangeOnlyTheirRegisters :
    (∃ t, exec (.quant1 0#3 .nibble .reference) (busyState 0x09#32) = .next t ∧ t.bytes ≠ State.reset.bytes) ∧
    (∃ t, exec .nop (busyState 0#32) = .next t) ∧ (∃ t, exec (.derive .reference) (busyState 3#32) = .next t) ∧
    (∃ t, exec (.dpack .direct .reference) (busyState 4#32) = .next t) ∧
    (∃ t, exec (.qset .direct .reference) (busyState 2#32) = .next t) :=
  ⟨⟨_, rfl, by decide +kernel⟩, ⟨_, rfl⟩, ⟨_, rfl⟩, ⟨_, rfl⟩, ⟨_, rfl⟩⟩

/-- The second state differs in STATUS, QFLAGS and the live coefficients and parameters. -/
theorem witness_CompletionDependsOnPendAlone : ∃ s s' t : State, s = busyState 0x02#32 ∧ s'.pend = s.pend ∧
    s'.codes = s.codes ∧ s'.bytes = s.bytes ∧ exec (.qset .direct .reference) s = .next t ∧ s'.status ≠ s.status ∧
    s'.coefs ≠ s.coefs ∧ s'.params ≠ s.params ∧ s'.qflags ≠ s.qflags :=
  ⟨_, (((busyState 0x02#32).withStatus 0x77F#32).withQflags 0xFFFFF#32).withCoefs mixedSet |>.withParams
    State.reset.params, _, rfl, rfl, rfl, rfl, rfl, by decide, by decide, by decide, by decide⟩

theorem witness_ReferenceDpackIsDeriveThenQset : (busyState 0x0C#32).pend = some (busySnapshot 0x0C#32) := by decide

/-- Two QSETs that agree in slot 0 only; and QUANT1.strict of slot 1 beside a QSET.strict that fails at slot 2. -/
theorem witness_SlotsAreQuantizedIndependently :
    (∃ t t', exec (.qset .direct .reference) (accept 2#32 (coefState mixedSet)) = .next t ∧
      exec (.qset .direct .strict) (accept 0x12#32 (coefState (passThrough.set .b0 (mixedSet.get .b0)))) = .next t' ∧
      statusErr t.status = false ∧ statusErr t'.status = false) ∧
    (accept 2#32 (coefState mixedSet)).pend = some ⟨2#32, State.reset.params, mixedSet⟩ ∧
    (∃ t u, exec (.qset .direct .strict) (accept 0x12#32 (coefState mixedSet)) = .next t ∧
      exec (.quant1 1#3 .direct .strict) (accept 0x12#32 (coefState mixedSet)) = .next u ∧ (1#3).toNat = slotNum .b1 ∧
      statusErr t.status = true ∧ statusErr u.status = false) :=
  ⟨⟨_, _, rfl, rfl, by decide +kernel, by decide +kernel⟩, by decide,
    ⟨_, _, rfl, rfl, by decide, by decide +kernel, by decide +kernel⟩⟩

theorem witness_QuantizationIsExactFloorAndWrap : isFinite Lit.eight = true ∧ isFinite Lit.negZero = true ∧
    (isFinite Lit.sixteen = true ∧ 2 ^ 24 ≤ quantMagnitude Lit.sixteen) ∧
    quantMagnitude 0x402FFFFFE0000000#64 < 2 ^ 24 ∧ isFinite Lit.posInf = false ∧
    isFinite Config.canonicalNaN = false := by decide +kernel

/-- 2^1004 and the double below it. -/
theorem witness_TheScaledMagnitudeIsTheFloorOfTheExactProduct : isFinite 0x7EB0000000000000#64 = true ∧
    2 ^ 1004 ≤ |val 0x7EB0000000000000#64| ∧ isFinite 0xFEAFFFFFFFFFFFFF#64 = true ∧
    |val 0xFEAFFFFFFFFFFFFF#64| < 2 ^ 1004 := by decide +kernel

theorem witness_FlagsAreTheirConditionsOnTheScaledMagnitude : isFinite 0xC020000020000000#64 = true ∧
    (quantFlags Lit.sixteen).ovf = true ∧ isInf Lit.negInf = true ∧ isNaN 0xFFF0000000000001#64 = true := by
  decide +kernel

theorem witness_CodesDenoteTheTruncatedValueExactlyInRange :
    (isFinite 0x401FFFFFC0000000#64 = true ∧ (quantFlags 0x401FFFFFC0000000#64).rng = false) ∧
    (isFinite 0xC020000010000000#64 = true ∧ (quantFlags 0xC020000010000000#64).rng = false) ∧
    (isFinite Lit.eight = true ∧ (quantFlags Lit.eight).rng = true ∧ (quantFlags Lit.eight).ovf = false) ∧
    (isFinite 0x402FFFFFFFFFFFFF#64 = true ∧ |val 0x402FFFFFFFFFFFFF#64| < 16) := by decide +kernel

/-- The truncation of 0.1, of section 2.1, and that of 8.0, which does not come back. -/
theorem witness_RoundTripsHoldExactlyInRange :
    (isFinite 0x3FB999999999999A#64 = true ∧ 0 < val 0x3FB999999999999A#64 ∧
      ⌊|val 0x3FB999999999999A#64| * 2 ^ 20⌋ = 104857 ∧ (quantCode 0x3FB999999999999A#64).extractLsb' 16 4 ≠ 0#4) ∧
    (isFinite Lit.eight = true ∧ (quantFlags Lit.eight).rng = true) ∧
    (isFinite 0x3EB0000000000000#64 = true ∧ (quantFlags 0x3EB0000000000000#64).rng = false ∧
      (quantCode 0x3EB0000000000000#64).extractLsb' 16 4 = 0#4) := by decide +kernel

theorem witness_ZeroAndTinyCoefficientsDifferInNegOnly : isFinite Lit.negZero = true ∧
    (isFinite 0xBEAFFFFFFFFFFFFF#64 = true ∧ -1 / 2 ^ 20 < val 0xBEAFFFFFFFFFFFFF#64 ∧ val 0xBEAFFFFFFFFFFFFF#64 < 0) ∧
    (isFinite 0x0000000000000001#64 = true ∧ 0 < val 0x0000000000000001#64 ∧ val 0x0000000000000001#64 < 1 / 2 ^ 20) ∧
    val 0x3EAFFFFFFFFFFFFF#64 < 1 / 2 ^ 20 := by decide +kernel

/-- Five coefficients at the edges of the checks: +inf, 16.0, -(8 + 2^-20), the number just above that, 8.0. -/
def edgeSet : PerSlot Binary64 :=
  ⟨Lit.posInf, Lit.sixteen, Lit.belowMinusEight, 0xC02000001FFFFFFF#64, Lit.eight⟩

/-- R131 and R171: what QUANT1.strict reports for them. -/
theorem test_strict_causes :
    [0#3, 1#3, 2#3, 3#3, 4#3].map (fun slot =>
      (next? (exec (.quant1 slot .direct .strict) (accept 0x11#32 (coefState edgeSet)))).map
        (statusCause ·.status)) = [some 5#3, some 3#3, some 4#3, some 0#3, some 4#3] := by decide +kernel

theorem witness_StrictCauseIsTheFirstThatApplies : isFinite Lit.posInf = false ∧
    (isFinite 0xC030000000000000#64 = true ∧ 16 ≤ |val 0xC030000000000000#64|) ∧
    (isFinite 0xC02FFFFFFFFFFFFF#64 = true ∧ |val 0xC02FFFFFFFFFFFFF#64| < 16) ∧ 8 ≤ val Lit.eight ∧
    val Lit.belowMinusEight ≤ -(8 + 1 / 2 ^ 20) ∧
    (isFinite 0xC02000001FFFFFFF#64 = true ∧ -(8 + 1 / 2 ^ 20) < val 0xC02000001FFFFFFF#64) ∧
    val 0x401FFFFFFFFFFFFF#64 < 8 ∧
    (accept 0x11#32 (coefState edgeSet)).pend = some ⟨0x11#32, State.reset.params, edgeSet⟩ ∧
    (4#3).toNat = slotNum .a2 := by decide +kernel

theorem witness_LayoutsPlaceTheBitsOfTheCode : (0 : Nat) < 8 ∧ (7 : Nat) < 8 := by decide

theorem witness_UnpackingInvertsTheLayouts :
    (Packed.mk 0x0F#8 0xFF#8 0xFF#8).byte0.extractLsb' 4 4 = 0#4 ∧
    (Packed.mk 0x10#8 0x00#8 0x00#8).byte0.extractLsb' 4 4 ≠ 0#4 := by decide

/-- The smallest positive frequency, an infinite rate, a Q of -0.0, a NaN gain. -/
theorem witness_FirstInvalidParameterIsTheLowestIndexFailing :
    (∃ (p : Params) (ok : ParamName → Prop),
      (∀ n, ok n ↔ isFinite (p.get n) = true ∧ (n = .gain ∨ 0 < val (p.get n))) ∧ (∀ n, ok n) ∧
      p.freq = 0x0000000000000001#64) ∧
    (∃ (p : Params) (ok : ParamName → Prop),
      (∀ n, ok n ↔ isFinite (p.get n) = true ∧ (n = .gain ∨ 0 < val (p.get n))) ∧ ¬ ok .rate ∧
      (∀ k, paramNum k < paramNum .rate → ok k) ∧ ¬ ok .q ∧ p.rate = Lit.posInf) ∧
    (∃ (p : Params) (ok : ParamName → Prop),
      (∀ n, ok n ↔ isFinite (p.get n) = true ∧ (n = .gain ∨ 0 < val (p.get n))) ∧ ¬ ok .gain ∧
      p.gain = Config.canonicalNaN) ∧
    ((busyState 0x13#32).pend = some (busySnapshot 0x13#32) ∧ (busySnapshot 0x13#32).params = w4State.params ∧
      firstInvalidParam State.reset.params = some .freq) := by
  refine ⟨⟨⟨Lit.negTwo, 0x0000000000000001#64, Lit.one, Lit.one⟩, _, fun _ => Iff.rfl, ?_, rfl⟩,
    ⟨⟨Lit.zero, Lit.one, Lit.posInf, Lit.negZero⟩, _, fun _ => Iff.rfl, ?_, ?_, ?_, rfl⟩,
    ⟨⟨Config.canonicalNaN, Lit.zero, Lit.zero, Lit.zero⟩, _, fun _ => Iff.rfl, ?_, rfl⟩, by decide, rfl,
    by decide +kernel⟩
  · intro n
    cases n <;> decide +kernel
  · decide +kernel
  · intro k hk
    cases k <;> first | decide +kernel | exact absurd hk (by decide)
  · decide +kernel
  · decide +kernel

theorem witness_DerivedB1AndA1AreBitIdentical : (busyState 3#32).pend = some (busySnapshot 3#32) := by decide

/-- Functions of a test: constants, and so with the properties each statement asks for. -/
def constFns (p s c : Binary64) : MathFns := ⟨fun _ _ => p, fun _ => s, fun _ => c⟩

/-- Gain -0.0 with Pow = 1.0, Sin = 0.5, Cos = 0.5. -/
theorem witness_NoGainGivesUnitB0AndEqualB2A2 :
    ∃ (f : MathFns) (p : Params), p.gain = Lit.negZero ∧ f.pow Lit.ten Lit.zero = Lit.one ∧
      f.pow Lit.ten Lit.negZero = Lit.one ∧
      isFinite (fadd Lit.one (fdiv (deriveAlpha f p) (deriveA f p))) = true ∧
      isZero (fadd Lit.one (fdiv (deriveAlpha f p) (deriveA f p))) = false ∧ f.sin Lit.zero = 0x3FE0000000000000#64 :=
  ⟨constFns Lit.one 0x3FE0000000000000#64 0x3FE0000000000000#64, ⟨Lit.negZero, Lit.one, Lit.one, Lit.one⟩, rfl, rfl,
    rfl, by decide +kernel, by decide +kernel, rfl⟩

/-- The parameters of W2 with frequency +0.0. -/
theorem witness_ZeroFrequencyGivesThePassThroughSet :
    ∃ (f : MathFns) (p : Params), p.freq = Lit.zero ∧ isFinite p.rate = true ∧ fgt p.rate Lit.zero = true ∧
      isFinite p.q = true ∧ isFinite (deriveA f p) = true ∧ isZero (deriveA f p) = false ∧
      isZero (fmul (fmul Lit.two (deriveA f p)) p.q) = false ∧ isZero p.q = false ∧ f.sin Lit.zero = Lit.zero ∧
      f.cos Lit.zero = Lit.one :=
  ⟨constFns Lit.one Lit.zero Lit.one, ⟨Lit.zero, Lit.zero, 0x40E7700000000000#64, 0x3FF170A3D70A3D71#64⟩, rfl,
    by decide, by decide, by decide, by decide, by decide, by decide +kernel, by decide, rfl, rfl⟩

/-- A = 2^-600, Q = 2^-600: all premises of R105 hold, and (2A)q underflows. -/
theorem witness_ZeroFrequencyRuleAsWordedForEveryAAndQ :
    ∃ (f : MathFns) (p : Params), p.freq = Lit.zero ∧ isFinite p.rate = true ∧ fgt p.rate Lit.zero = true ∧
      isFinite p.q = true ∧ isZero p.q = false ∧ isFinite (deriveA f p) = true ∧ isZero (deriveA f p) = false ∧
      f.sin Lit.zero = Lit.zero ∧ f.cos Lit.zero = Lit.one ∧
      isZero (fmul (fmul Lit.two (deriveA f p)) p.q) = true :=
  ⟨constFns 0x1A70000000000000#64 Lit.zero Lit.one, ⟨Lit.zero, Lit.zero, 0x40E7700000000000#64, 0x1A70000000000000#64⟩,
    rfl, by decide, by decide, by decide, by decide, by decide, by decide, rfl, rfl, by decide +kernel⟩

theorem witness_DoublingIsExactAndSymmetricInSign : isNaN Lit.posInf = false ∧ isNaN 0x0000000000000001#64 = false := by
  decide

/-- One choice of functions and parameters for each of the four items. -/
theorem witness_DegenerateParametersGiveTheListedCoefficients :
    (∃ (f : MathFns) (p : Params), p.rate = Lit.zero ∧ fgt p.freq Lit.zero = true ∧
      isNaN (f.sin Lit.posInf) = true ∧ isNaN (f.cos Lit.posInf) = true) ∧
    (∃ (f : MathFns) (p : Params), deriveA f p = Lit.posInf ∧ fgt p.q Lit.zero = true ∧
      isFinite (f.sin (deriveOmega p)) = true ∧ fgt (f.sin (deriveOmega p)) Lit.zero = true) ∧
    (∃ (f : MathFns) (p : Params), deriveA f p = Lit.zero ∧ isFinite p.q = true ∧ fgt p.q Lit.zero = true ∧
      fgt (f.sin (deriveOmega p)) Lit.zero = true ∧ isFinite (f.cos (deriveOmega p)) = true ∧
      fgt (f.cos (deriveOmega p)) Lit.zero = true ∧ isFinite (fmul Lit.two (f.cos (deriveOmega p))) = true) ∧
    (∃ (f : MathFns) (p : Params), p.q = Lit.zero ∧ isFinite (deriveA f p) = true ∧
      fgt (deriveA f p) Lit.zero = true ∧ isFinite (fmul Lit.two (deriveA f p)) = true ∧
      fgt (f.sin (deriveOmega p)) Lit.zero = true ∧ isFinite (f.cos (deriveOmega p)) = true ∧
      fgt (f.cos (deriveOmega p)) Lit.zero = true ∧ isFinite (fmul Lit.two (f.cos (deriveOmega p))) = true) :=
  ⟨⟨constFns Lit.one Config.canonicalNaN Config.canonicalNaN, ⟨Lit.zero, Lit.one, Lit.zero, Lit.one⟩, rfl, by decide,
      by decide, by decide⟩,
    ⟨constFns Lit.posInf Lit.one Lit.one, ⟨Lit.zero, Lit.one, Lit.one, Lit.one⟩, rfl, by decide, by decide, by decide⟩,
    ⟨constFns Lit.zero Lit.one Lit.one, ⟨Lit.zero, Lit.one, Lit.one, Lit.one⟩, rfl, by decide, by decide, by decide,
      by decide, by decide, by decide +kernel⟩,
    ⟨constFns Lit.one Lit.one Lit.one, ⟨Lit.zero, Lit.one, Lit.one, Lit.zero⟩, rfl, by decide, by decide,
      by decide +kernel, by decide, by decide, by decide, by decide +kernel⟩⟩

/-- A finite and an overflowing product, a quotient. -/
theorem witness_ArithmeticRoundsToNearestTiesToEven :
    (∃ (x y r : Binary64) (e : Rat), isFinite x = true ∧ isFinite y = true ∧ r = fadd x y ∧ e = val x + val y ∧
      isFinite r = true ∧ y = 0x3CA0000000000000#64) ∧
    (∃ (x y r : Binary64) (e : Rat), isFinite x = true ∧ isFinite y = true ∧ r = fmul x y ∧ e = val x * val y ∧
      isFinite r = false ∧ x = 0x7FEFFFFFFFFFFFFF#64) ∧
    (∃ (x y r : Binary64) (e : Rat), isFinite x = true ∧ isFinite y = true ∧ r = fdiv x y ∧ isZero y = false ∧
      e = val x / val y ∧ isFinite r = true) ∧
    (∃ (x y r : Binary64) (e : Rat), isFinite x = true ∧ isFinite y = true ∧ r = fsub x y ∧ e = val x - val y ∧
      isFinite r = true) :=
  ⟨⟨Lit.one, _, _, _, by decide, by decide, rfl, rfl, by decide +kernel, rfl⟩,
    ⟨_, Lit.two, _, _, by decide, by decide, rfl, rfl, by decide +kernel, rfl⟩,
    ⟨Lit.one, 0x4008000000000000#64, _, _, by decide, by decide, rfl, by decide, rfl, by decide +kernel⟩,
    ⟨Lit.one, Lit.two, _, _, by decide, by decide, rfl, rfl, by decide +kernel⟩⟩

theorem witness_NaNResultsAreCanonicalAndComparisonsOrdered : isNaN (fadd Lit.posInf Lit.negInf) = true ∧
    isNaN (fsub Lit.posInf Lit.posInf) = true ∧ isNaN (fmul Lit.zero Lit.negInf) = true ∧
    isNaN (fdiv Lit.negZero Lit.zero) = true ∧ isNaN 0xFFF0000000000001#64 = true ∧
    isFinite 0x7FEFFFFFFFFFFFFF#64 = true ∧ isFinite Lit.negZero = true := by decide +kernel

theorem witness_HexTextHasFortyFourCharactersAndLosesNothing : (43 : Nat) < 44 ∧
    toHex (.all ⟨0#8, 0#8, 0#8⟩) = toHex (.all ⟨0#8, 0#8, 0#8⟩) := by decide

theorem witness_BandTextsAreJoinedBySingleSpaces : ∃ render, render = toDecimal ∧
    (bandsText render [.all ⟨0#8, 0#8, 0#8⟩, .all ⟨0xFF#8, 0xFF#8, 0xFF#8⟩]).length = 89 := ⟨_, rfl, by decide +kernel⟩

theorem witness_DeriveComputesTheFormulaAsParenthesized :
    (∃ (f : MathFns) (p : Params) (a omega : Binary64), a = f.pow 0x4024000000000000#64 (fdiv p.gain 0x4044000000000000#64) ∧
      omega = fdiv (fmul (fmul 0x4000000000000000#64 0x400921FB54442D18#64) p.freq) p.rate ∧
      p = w4State.params ∧ a = 0x3FFF04B8A05B80B6#64) ∧
    (∃ i l, i = Instr.dpack l .reference ∧ ∃ t, exec i (accept 0x0C#32 w4State) = .next t) :=
  ⟨⟨constFns 0x3FFF04B8A05B80B6#64 Lit.one Lit.one, _, _, _, rfl, rfl, rfl, rfl⟩, ⟨_, .nibble, rfl, _, rfl⟩⟩

/-- Both infinities, both zeros and a finite number that is not zero; no operand is a NaN. -/
theorem witness_SignsZerosAndInfinitiesFollowIeee : isNaN Lit.posInf = false ∧ isNaN Lit.negInf = false ∧
    isNaN Lit.negZero = false ∧ isInf Lit.negInf = true ∧ (isFinite Lit.one = true ∧ isZero Lit.one = false) ∧
    isZero Lit.negZero = true ∧ (isFinite Lit.two = true ∧ isFinite Lit.negTwo = true ∧ val Lit.two + val Lit.negTwo = 0) ∧
    isNaN (fmul Lit.negTwo Lit.zero) = false ∧ isNaN (fdiv Lit.one Lit.negZero) = false := by decide +kernel

end Sys2Proof.Tests
end

section
/-! What the binary64 operations do to values, signs and the special operands (00_scope.md R9). -/

namespace Sys2Proof.Laws

open Sys2Proof.Machine

/-! The value as a sign and a number of units. -/

/-- The factor a sign bit stands for. -/
def signFactor (neg : Bool) : Rat := if neg then -1 else 1

theorem signFactor_bne (a b : Bool) : signFactor (a != b) = signFactor a * signFactor b := by
  cases a <;> cases b <;> simp [signFactor]

theorem inv_signFactor (a : Bool) : (signFactor a)⁻¹ = signFactor a := by
  cases a <;> norm_num [signFactor]

theorem signFactor_mul_natAbs (k : Int) : signFactor (decide (k < 0)) * (k.natAbs : Rat) = k := by
  rw [Nat.cast_natAbs]
  rcases lt_or_ge k 0 with h | h
  · simp [signFactor, h, abs_of_neg h]
  · simp [signFactor, not_lt.mpr h, abs_of_nonneg h]

theorem signedUnits_eq_signFactor_mul (x : Binary64) : (signedUnits x : Rat) = signFactor (fsign x) * units x := by
  unfold signedUnits signFactor
  cases fsign x <;> simp

theorem val_eq_signFactor_mul (x : Binary64) : val x = signFactor (fsign x) * units x / 2 ^ 1074 := by
  rw [val, signedUnits_eq_signFactor_mul]

theorem isFinite_fneg (x : Binary64) : isFinite (fneg x) = isFinite x := by
  rw [Bool.eq_iff_iff, isFinite_iff, isFinite_iff, fmag_fneg]

theorem val_add_val (x y : Binary64) : val x + val y = ((signedUnits x + signedUnits y : Int) : Rat) / 2 ^ 1074 := by
  rw [val, val, ← add_div, Int.cast_add]

theorem signedUnits_add_eq_zero_iff (x y : Binary64) : signedUnits x + signedUnits y = 0 ↔ val x + val y = 0 := by
  rw [val_add_val, div_eq_zero_iff, or_iff_left (by positivity), Int.cast_eq_zero]

/-! Each finite result is the one rounding of the exact result. -/

/-- `r` is `e` rounded once: `e` is a signed ratio of units of 2^-1074, and `r` has its sign and its rounded
magnitude. -/
def IsRounded (r : Binary64) (e : Rat) : Prop :=
  ∃ (neg : Bool) (num den : Nat), 0 < den ∧ e * 2 ^ 1074 = signFactor neg * ((num : Rat) / den) ∧
    r = withSign neg (roundUnits num den)

theorem isRounded_fadd {x y : Binary64} (hx : isFinite x = true) (hy : isFinite y = true) :
    IsRounded (fadd x y) (val x + val y) := by
  have hexact : (val x + val y) * 2 ^ 1074 = ((signedUnits x + signedUnits y : Int) : Rat) := by
    rw [val_add_val, div_mul_cancel₀ _ (by positivity)]
  rw [fadd_finite hx hy]
  split
  case isTrue h0 =>
    exact ⟨fsign x && fsign y, 0, 1, one_pos, by rw [hexact, h0]; simp, by rw [roundUnits_zero]⟩
  case isFalse =>
    refine ⟨_, _, 1, one_pos, ?_, rfl⟩
    rw [hexact, Nat.cast_one, div_one, signFactor_mul_natAbs]

theorem isRounded_fsub {x y : Binary64} (hx : isFinite x = true) (hy : isFinite y = true) :
    IsRounded (fsub x y) (val x - val y) := by
  rw [fsub_finite hy, sub_eq_add_neg, ← val_fneg]
  exact isRounded_fadd hx (by rwa [isFinite_fneg])

theorem isRounded_fmul {x y : Binary64} (hx : isFinite x = true) (hy : isFinite y = true) :
    IsRounded (fmul x y) (val x * val y) := by
  refine ⟨_, _, _, ?_, ?_, fmul_finite hx hy⟩
  · positivity
  · rw [val_eq_signFactor_mul, val_eq_signFactor_mul, signFactor_bne, Nat.cast_mul, Nat.cast_pow, Nat.cast_ofNat]
    field_simp

theorem isRounded_fdiv {x y : Binary64} (hx : isFinite x = true) (hy : isFinite y = true) (hz : isZero y = false) :
    IsRounded (fdiv x y) (val x / val y) := by
  refine ⟨_, _, _, units_pos hz, ?_, fdiv_finite hx hy hz⟩
  rw [val_eq_signFactor_mul, val_eq_signFactor_mul, signFactor_bne, div_div_div_cancel_right₀ (by positivity),
    mul_div_mul_comm, div_eq_mul_inv (signFactor _), inv_signFactor, Nat.cast_mul, Nat.cast_pow, Nat.cast_ofNat,
    mul_assoc, div_mul_eq_mul_div]

/-- Settles O52: each operation answers its exact result rounded once, and `withSign_roundUnits_spec` says what that
rounding is. -/
theorem arithmeticRoundsToNearestTiesToEven : Obligations.ArithmeticRoundsToNearestTiesToEven := by
  intro x y r e hx hy hop
  have hr : IsRounded r e := by
    rcases hop with ⟨rfl, rfl⟩ | ⟨rfl, rfl⟩ | ⟨rfl, rfl⟩ | ⟨rfl, hz, rfl⟩
    · exact isRounded_fadd hx hy
    · exact isRounded_fsub hx hy
    · exact isRounded_fmul hx hy
    · exact isRounded_fdiv hx hy hz
  obtain ⟨neg, num, den, hden, he, hr⟩ := hr
  exact withSign_roundUnits_spec hden he hr

/-! Comparisons outside the finite values. -/

theorem comparisons_of_isNaN {x y : Binary64} (h : isNaN x = true ∨ isNaN y = true) :
    flt x y = false ∧ fle x y = false ∧ fgt x y = false ∧ fge x y = false := by
  rcases h with h | h <;> simp [flt, fle, fgt, fge, h]

/-- The infinities lie outside the finite numbers. -/
theorem infinities_outside_of_isFinite {x : Binary64} (h : isFinite x = true) :
    flt x Lit.posInf = true ∧ flt Lit.negInf x = true := by
  have hm : fmag x < infMag := (isFinite_iff x).mp h
  have hpos : forder Lit.posInf = infMag := by decide
  have hneg : forder Lit.negInf = -infMag := by decide
  have hx : -(infMag : Int) < forder x ∧ forder x < infMag := by
    unfold forder
    split <;> omega
  simp [flt, isNaN_of_isFinite h, show isNaN Lit.posInf = false by decide, show isNaN Lit.negInf = false by decide,
    hpos, hneg, hx]

/-- Settles O53, from the canonical NaN of each operation and the order of the patterns as the order of the values. -/
theorem naNResultsAreCanonicalAndComparisonsOrdered : Obligations.NaNResultsAreCanonicalAndComparisonsOrdered := by
  intro x y
  refine ⟨fadd_canonical, fsub_canonical, fmul_canonical, fdiv_canonical, fun h => ?_, fun hx hy => ?_,
    infinities_outside_of_isFinite⟩
  · rw [fadd_of_isNaN h, fsub_of_isNaN h, fmul_of_isNaN h, fdiv_of_isNaN h]
    exact ⟨isNaN_canonicalNaN, isNaN_canonicalNaN, isNaN_canonicalNaN, isNaN_canonicalNaN, comparisons_of_isNaN h⟩
  · exact ⟨flt_iff hx hy, fle_iff hx hy, fgt_iff hx hy, fge_iff hx hy⟩

/-! Signs of products and quotients. -/

theorem fsign_fmul {x y : Binary64} : isNaN (fmul x y) = false → fsign (fmul x y) = (fsign x != fsign y) := by
  unfold fmul
  dsimp only
  repeat' split
  · exact fun h => absurd isNaN_canonicalNaN (ne_true_of_eq_false h)
  · exact fun h => absurd isNaN_canonicalNaN (ne_true_of_eq_false h)
  · exact fun _ => fsign_withSign _ _
  · exact fun _ => fsign_withSign _ _

theorem fsign_fdiv {x y : Binary64} : isNaN (fdiv x y) = false → fsign (fdiv x y) = (fsign x != fsign y) := by
  unfold fdiv
  dsimp only
  repeat' split
  · exact fun h => absurd isNaN_canonicalNaN (ne_true_of_eq_false h)
  · exact fun h => absurd isNaN_canonicalNaN (ne_true_of_eq_false h)
  · exact fun _ => fsign_withSign _ _
  · exact fun _ => fsign_withSign _ _
  · exact fun h => absurd isNaN_canonicalNaN (ne_true_of_eq_false h)
  · exact fun _ => fsign_withSign _ _
  · exact fun _ => fsign_withSign _ _

/-! Zeros and infinities. -/

@[simp] theorem isInf_withSign_infMag (neg : Bool) : isInf (withSign neg infMag) = true := by
  rw [isInf_iff, fmag_withSign infMag_lt]

@[simp] theorem isZero_withSign_zero (neg : Bool) : isZero (withSign neg 0) = true := by
  rw [isZero_iff, fmag_withSign (by norm_num)]

theorem isFinite_of_isZero {x : Binary64} (h : isZero x = true) : isFinite x = true := by
  rcases eq_of_isZero h with rfl | rfl <;> decide

theorem fsub_eq_fadd_fneg {x y : Binary64} (hy : isNaN y = false) : fsub x y = fadd x (fneg y) := by
  simp [fsub, hy]

/-- An exact zero sum is -0.0 when both operands are negative, else +0.0. -/
theorem fadd_of_val_add_eq_zero {x y : Binary64} (hx : isFinite x = true) (hy : isFinite y = true)
    (h : val x + val y = 0) :
    fadd x y = if fsign x = true ∧ fsign y = true then 0x8000000000000000#64 else 0x0000000000000000#64 := by
  rw [fadd_finite hx hy, if_pos ((signedUnits_add_eq_zero_iff x y).mpr h)]
  cases fsign x <;> cases fsign y <;> rfl

theorem fadd_inf_left {x y : Binary64} (hx : isInf x = true) (hy : isNaN y = false)
    (h : isInf y = true → fsign x = fsign y) : fadd x y = x := by
  unfold fadd
  cases hiy : isInf y with
  | false => simp [isNaN_of_isInf hx, hy, hx]
  | true => simp [isNaN_of_isInf hx, hy, hx, h hiy]

theorem fadd_inf_right {x y : Binary64} (hx : isFinite x = true) (hy : isInf y = true) : fadd x y = y := by
  simp [fadd, isNaN_of_isFinite hx, isNaN_of_isInf hy, isInf_of_isFinite hx, hy]

theorem fadd_opposite_infs {x y : Binary64} (hx : isInf x = true) (hy : isInf y = true) (h : fsign x ≠ fsign y) :
    fadd x y = Config.canonicalNaN := by
  simp [fadd, isNaN_of_isInf hx, isNaN_of_isInf hy, hx, hy, h]

theorem fdiv_inf_inf {x y : Binary64} (hx : isInf x = true) (hy : isInf y = true) : fdiv x y = Config.canonicalNaN := by
  simp [fdiv, hx, hy]

theorem fmul_inf_zero {x y : Binary64} (hx : isInf x = true) (hy : isZero y = true) :
    fmul x y = Config.canonicalNaN ∧ fmul y x = Config.canonicalNaN := by
  simp [fmul, hx, hy]

theorem fdiv_zero_zero {x y : Binary64} (hx : isZero x = true) (hy : isZero y = true) :
    fdiv x y = Config.canonicalNaN := by
  have hfx := isFinite_of_isZero hx
  have hfy := isFinite_of_isZero hy
  simp [fdiv, isInf_of_isFinite hfx, isInf_of_isFinite hfy, hx, hy]

/-- Settles O58: each clause is the operation's rule for one kind of operands. -/
theorem signsZerosAndInfinitiesFollowIeee : Obligations.SignsZerosAndInfinitiesFollowIeee := by
  intro x y hnx hny
  refine ⟨fsub_eq_fadd_fneg hny, fsign_fmul, fsign_fdiv, fadd_of_val_add_eq_zero, fun hx hy => ?infFinite,
    fun hx hy => ?infInf, fun hx hy => ?infZero, fun hx hy hz => ?infNonzero, fun hy hx => ?zeroZero,
    fun hy hx => ?nonzeroZero⟩
  case infFinite =>
    refine ⟨fadd_inf_left hx hny fun hi => ?_, fadd_inf_right hy hx, ?_, ?_⟩
    · simp [isInf_of_isFinite hy] at hi
    · rw [fdiv_inf_left hx hy, isInf_withSign_infMag]
    · rw [fdiv_inf_right hy hx, isZero_withSign_zero]
  case infInf =>
    refine ⟨by rw [fdiv_inf_inf hx hy, isNaN_canonicalNaN], ?_, ?_⟩
    · rw [fmul_inf hnx hny (.inl hx) (isZero_of_isInf hx) (isZero_of_isInf hy), isInf_withSign_infMag]
    · split
      case isTrue hs => exact fadd_inf_left hx hny fun _ => hs
      case isFalse hs => rw [fadd_opposite_infs hx hy hs, isNaN_canonicalNaN]
  case infZero =>
    rw [(fmul_inf_zero hx hy).1, (fmul_inf_zero hx hy).2]
    exact ⟨isNaN_canonicalNaN, isNaN_canonicalNaN⟩
  case infNonzero =>
    rw [fmul_inf hnx hny (.inl hx) (isZero_of_isInf hx) hz, fmul_inf hny hnx (.inr hx) hz (isZero_of_isInf hx)]
    exact ⟨isInf_withSign_infMag _, isInf_withSign_infMag _⟩
  case zeroZero => rw [fdiv_zero_zero hx hy, isNaN_canonicalNaN]
  case nonzeroZero => rw [fdiv_zero_right hnx hx hy, isInf_withSign_infMag]

end Sys2Proof.Laws
end

section
/-! The invariant of QPK is met at reset and kept by every step (10_state.md R24, R30, R34 to R36). -/

namespace Sys2Proof.Laws

open Sys2Proof.Machine Sys2Proof.Safety

/-! The reset state. -/

/-- Settles O1: each register is read off `State.reset`, and CMD reads as 0. -/
theorem resetStateHoldsTheResetValues : Obligations.ResetStateHoldsTheResetValues := by
  refine ⟨rfl, rfl, fun p => ?params, fun i => ?coefs, fun i => ?codes, fun i k => ?bytes, rfl, busRead_index .cmd _⟩
  case params => cases p <;> rfl
  case coefs => cases i <;> rfl
  case codes => cases i <;> rfl
  case bytes => cases i <;> cases k <;> rfl

/-- Settles O20: each part of the invariant is a closed fact about `State.reset`. -/
theorem resetStateMeetsTheInvariant : Obligations.ResetStateMeetsTheInvariant where
  reserved := by decide
  pend := by decide
  report := by decide
  flags := by decide
  bytes := by decide

/-! The parts of the invariant that speak of the slots one by one. -/

theorem forall_slot_iff {P : Slot → Prop} : (∀ i, P i) ↔ P .b0 ∧ P .b1 ∧ P .b2 ∧ P .a1 ∧ P .a2 where
  mp h := ⟨h _, h _, h _, h _, h _⟩
  mpr h i := by
    obtain ⟨h0, h1, h2, h3, h4⟩ := h
    cases i <;> assumption

theorem flagsAgree_iff {s : State} : FlagsAgree s ↔ ∀ i, flagsPossible (getSlotFlags i s.qflags) = true :=
  (forall_slot_iff (P := fun i => flagsPossible (getSlotFlags i s.qflags) = true)).symm

theorem bytesAgree_iff {s : State} : BytesAgree s ↔ ∀ i, slotPacked (s.codes.get i) (s.bytes.get i) :=
  (forall_slot_iff (P := fun i => slotPacked (s.codes.get i) (s.bytes.get i))).symm

theorem slotPacked_packCode (l : Layout) (k : Code) : slotPacked k (packCode l k) := by
  cases l
  case direct => exact .inl rfl
  case nibble => exact .inr rfl

theorem flagsAgree_of_flagsWritten {s u : State} (hw : FlagsWritten s u) (h : FlagsAgree s) : FlagsAgree u := by
  rw [flagsAgree_iff] at h ⊢
  intro i
  rcases hw.flags i with hkept | ⟨c, hnew⟩
  · rw [hkept]
    exact h i
  · rw [hnew]
    exact quantFlags_possible c

theorem bytesAgree_of_packedTogether {s u : State} (hw : PackedTogether s u) (h : BytesAgree s) : BytesAgree u := by
  rw [bytesAgree_iff] at h ⊢
  intro i
  rcases hw i with ⟨hcode, hbyte⟩ | ⟨l, c, hcode, hbyte⟩
  · rw [hcode, hbyte]
    exact h i
  · rw [hcode, hbyte]
    exact slotPacked_packCode l _

/-! Reset, and the updates a host's access makes. -/

theorem inv_withHost {s : State} (x : HostAgent) (h : Inv s) : Inv (s.withHost x) :=
  ⟨h.reserved, h.pend, h.report, h.flags, h.bytes⟩

theorem inv_withTurns {s : State} (x : List Turn) (h : Inv s) : Inv (s.withTurns x) :=
  ⟨h.reserved, h.pend, h.report, h.flags, h.bytes⟩

theorem inv_resetEvent (s : State) : Inv (resetEvent s) :=
  inv_withTurns _ (inv_withHost _ resetStateMeetsTheInvariant)

theorem pend_eq_none_of_idle {s : State} (h : Inv s) (hb : s.busy = false) : s.pend = none := by
  obtain ⟨hsome, -⟩ := h.pend
  simpa [hb] using hsome

theorem pendAgrees_of_idle {s : State} (hb : s.busy = false) (hp : s.pend = none) : PendAgrees s := by
  simp [PendAgrees, hb, hp]

theorem inv_withParams {s : State} (x : Params) (hb : s.busy = false) (h : Inv s) : Inv (s.withParams x) :=
  ⟨h.reserved, pendAgrees_of_idle hb (pend_eq_none_of_idle (s := s) h hb), h.report, h.flags, h.bytes⟩

theorem inv_withCoefs {s : State} (x : PerSlot Binary64) (hb : s.busy = false) (h : Inv s) : Inv (s.withCoefs x) :=
  ⟨h.reserved, pendAgrees_of_idle hb (pend_eq_none_of_idle (s := s) h hb), h.report, h.flags, h.bytes⟩

theorem inv_withStatus_setWerr {s : State} (b : Bool) (h : Inv s) : Inv (s.withStatus (setWerr b s.status)) where
  reserved := by simpa [ReservedZero] using h.reserved
  pend := by simpa [PendAgrees, State.busy] using h.pend
  report := by simpa [ReportAgrees] using h.report
  flags := h.flags
  bytes := h.bytes

/-- The snapshot is taken of the registers as they stand (42_pipeline.md R151). -/
theorem inv_accept {s : State} (w : CmdWord) (h : Inv s) : Inv (accept w s) where
  reserved := by simpa [ReservedZero] using h.reserved
  pend := by simp [PendAgrees, State.busy]
  report := by simp [ReportAgrees]
  flags := h.flags
  bytes := h.bytes

theorem inv_writeReg {s : State} (r : Reg) (d : BusData) (h : Inv s) : Inv (writeReg r d s) := by
  rcases writeReg_cases r d s with
    hw | ⟨-, -, hw⟩ | ⟨-, -, -, hw⟩ | ⟨-, -, hw⟩ | ⟨p, -, hb, hw⟩ | ⟨i, -, hb, hw⟩ <;> rw [hw]
  · exact h
  · exact inv_accept _ h
  · exact inv_withStatus_setWerr true h
  · exact inv_withStatus_setWerr false h
  · exact inv_withParams _ hb h
  · exact inv_withCoefs _ hb h

theorem inv_hostTurn {s : State} (h : Inv s) : Inv (hostTurn s) := by
  rcases hostTurn_cases s with ht | ⟨r, d, rest, -, -, ht⟩ <;> rw [ht]
  · exact inv_withHost _ h
  · exact inv_withHost _ (inv_writeReg r d h)

/-! A completion. -/

/-- Both ends of a command as one update: the report written, PEND discarded (42_pipeline.md R150). -/
def completed (err : Bool) (cause index : BitVec 3) (s : State) : State :=
  (s.withPend none).withStatus (setReport false true err cause index s.status)

theorem completeOk_eq_completed (s : State) : completeOk s = completed false 0#3 0#3 s := rfl

theorem raiseCmdError_eq_completed (e : Cause) (x : BitVec 3) (s : State) :
    raiseCmdError e x s = completed true (causeCode e) x s := rfl

/-- The reports a completion writes: CAUSE and INDEX 0 without an error, a code of 60_exceptions.md R171 with one. -/
def CompletionReport (err : Bool) (cause index : BitVec 3) : Prop :=
  (err = false → cause = 0#3 ∧ index = 0#3) ∧ (err = true → ReportInRange cause index)

/-- All that a completion does, of a legal word or an illegal one. -/
theorem runPending_cases {p : Snapshot} {s t : State} (hp : s.pend = some p) (h : runPending p s = .next t) :
    ∃ u e c x, t = completed e c x u ∧ FlagsWritten s u ∧ PackedTogether s u ∧ CompletionReport e c x := by
  rcases runPending_next hp h with ⟨i, -, hi⟩ | ⟨-, -, rfl⟩
  · rcases exec_cases hi with ⟨u, rfl, hf, hk⟩ | ⟨u, e, x, rfl, hf, -, hcode, hbyte, hr, -⟩
    · exact ⟨u, false, 0#3, 0#3, completeOk_eq_completed u, hf, hk, fun _ => ⟨rfl, rfl⟩, nofun⟩
    · exact ⟨u, true, causeCode e, x, raiseCmdError_eq_completed e x u, hf, fun i => .inl (by simp [hcode, hbyte]),
        nofun, fun _ => hr⟩
  · exact ⟨s, true, 1#3, 0#3, raiseCmdError_eq_completed .illegalCmd 0#3 s, flagsWritten_refl s,
      fun _ => .inl ⟨rfl, rfl⟩, nofun, fun _ => .inl ⟨rfl, rfl⟩⟩

theorem inv_completed {s u : State} {e : Bool} {c x : BitVec 3} (hf : FlagsWritten s u) (hk : PackedTogether s u)
    (hr : CompletionReport e c x) (h : Inv s) : Inv (completed e c x u) where
  reserved := by simpa [ReservedZero, completed, hf.status, hf.reserved] using h.reserved
  pend := pendAgrees_of_idle (by simp [State.busy, completed]) rfl
  report := by simpa [ReportAgrees, completed, CompletionReport, ReportInRange] using hr
  flags := flagsAgree_of_flagsWritten (u := u) hf h.flags
  bytes := bytesAgree_of_packedTogether (u := u) hk h.bytes

theorem inv_runPending {p : Snapshot} {s t : State} (hp : s.pend = some p) (ht : runPending p s = .next t)
    (h : Inv s) : Inv t := by
  obtain ⟨u, e, c, x, rfl, hf, hk, hr⟩ := runPending_cases hp ht
  exact inv_completed hf hk hr h

/-- Settles O19, by the five things a step can be. -/
theorem everyStepKeepsTheInvariant : Obligations.EveryStepKeepsTheInvariant := by
  intro s t h hstep
  have htaken : Inv (turnTaken s) := inv_withTurns _ h
  rcases step_cases hstep with ⟨-, rfl⟩ | ⟨-, rfl⟩ | ⟨-, rfl⟩ | ⟨-, -, rfl⟩ | ⟨-, -, p, hp, hrun⟩
  · exact inv_resetEvent _
  · exact htaken
  · exact inv_hostTurn htaken
  · exact htaken
  · exact inv_runPending (s := turnTaken s) hp hrun htaken

end Sys2Proof.Laws
end

section
/-! Which event changes which register (10_state.md R20, R24, R27). -/

namespace Sys2Proof.Laws

open Sys2Proof.Machine Sys2Proof.Safety

/-! What a completion leaves. -/

theorem runPending_params {p : Snapshot} {s t : State} (hp : s.pend = some p) (h : runPending p s = .next t) :
    t.params = s.params := by
  obtain ⟨u, e, c, x, rfl, hf, -, -⟩ := runPending_cases hp h
  exact hf.params

theorem runPending_werr {p : Snapshot} {s t : State} (hp : s.pend = some p) (h : runPending p s = .next t) :
    statusWerr t.status = statusWerr s.status := by
  obtain ⟨u, e, c, x, rfl, hf, -, -⟩ := runPending_cases hp h
  simp [completed, hf.status]

/-! What a write changes. -/

section

variable {r : Reg} {d : BusData} {s : State}

theorem eq_cmd_of_writeReg_sets_busy (hs : statusBusy s.status = false)
    (ht : statusBusy (writeReg r d s).status = true) : r = .cmd := by
  rcases writeReg_cases r d s with
    hw | ⟨hr, -, hw⟩ | ⟨-, -, -, hw⟩ | ⟨-, -, hw⟩ | ⟨p, -, -, hw⟩ | ⟨i, -, -, hw⟩
  case inr.inl => exact hr
  all_goals simp [hw, hs] at ht

theorem writeReg_keeps_busy (hs : statusBusy s.status = true) : statusBusy (writeReg r d s).status = true := by
  rcases writeReg_cases r d s with
    hw | ⟨-, -, hw⟩ | ⟨-, -, -, hw⟩ | ⟨-, -, hw⟩ | ⟨p, -, -, hw⟩ | ⟨i, -, -, hw⟩ <;> simp [hw, hs]

theorem dropped_of_writeReg_sets_werr (hs : statusWerr s.status = false)
    (ht : statusWerr (writeReg r d s).status = true) : r ≠ .status ∧ Writable r ∧ statusBusy s.status = true := by
  rcases writeReg_cases r d s with
    hw | ⟨-, -, hw⟩ | ⟨hr, hwr, hb, hw⟩ | ⟨-, -, hw⟩ | ⟨p, -, -, hw⟩ | ⟨i, -, -, hw⟩
  case inr.inr.inl => exact ⟨hr, hwr, hb⟩
  all_goals simp [hw, hs] at ht

theorem eq_status_of_writeReg_clears_werr (hs : statusWerr s.status = true)
    (ht : statusWerr (writeReg r d s).status = false) : r = .status ∧ d.getLsbD 3 = true := by
  rcases writeReg_cases r d s with
    hw | ⟨-, -, hw⟩ | ⟨-, -, -, hw⟩ | ⟨hr, hd, hw⟩ | ⟨p, -, -, hw⟩ | ⟨i, -, -, hw⟩
  case inr.inr.inr.inl => exact ⟨hr, hd⟩
  all_goals simp [hw, hs] at ht

theorem eq_param_of_writeReg_changes_params (hc : (writeReg r d s).params ≠ s.params) :
    statusBusy s.status = false ∧ ∃ p, r = .param p := by
  rcases writeReg_cases r d s with
    hw | ⟨-, -, hw⟩ | ⟨-, -, -, hw⟩ | ⟨-, -, hw⟩ | ⟨p, hr, hb, hw⟩ | ⟨i, -, -, hw⟩
  case inr.inr.inr.inr.inl => exact ⟨hb, p, hr⟩
  all_goals simp [hw] at hc

theorem eq_coef_of_writeReg_changes_coefs (hc : (writeReg r d s).coefs ≠ s.coefs) :
    statusBusy s.status = false ∧ ∃ i, r = .coef i := by
  rcases writeReg_cases r d s with
    hw | ⟨-, -, hw⟩ | ⟨-, -, -, hw⟩ | ⟨-, -, hw⟩ | ⟨p, -, -, hw⟩ | ⟨i, hr, hb, hw⟩
  case inr.inr.inr.inr.inr => exact ⟨hb, i, hr⟩
  all_goals simp [hw] at hc

theorem writeReg_keeps_results : (writeReg r d s).qflags = s.qflags ∧ (writeReg r d s).codes = s.codes ∧
    (writeReg r d s).bytes = s.bytes := by
  rcases writeReg_cases r d s with
    hw | ⟨-, -, hw⟩ | ⟨-, -, -, hw⟩ | ⟨-, -, hw⟩ | ⟨p, -, -, hw⟩ | ⟨i, -, -, hw⟩ <;> simp [hw]

end

/-- The registers whose write is dropped while BUSY = 1, by their indexes (20_memory.md R51). -/
theorem index_of_writable {r : Reg} (hw : Writable r) (hr : r ≠ .status) :
    r.index = 0x00#8 ∨ (0x08 ≤ r.index.toNat ∧ r.index.toNat ≤ 0x0B) ∨
      (0x10 ≤ r.index.toNat ∧ r.index.toNat ≤ 0x14) := by
  cases r with
  | cmd => exact .inl rfl
  | status => exact absurd rfl hr
  | param p => cases p <;> decide
  | coef i => cases i <;> decide
  | _ => exact hw.elim

/-! The three events that can change a part of QPK. -/

/-- A part of QPK that a step changes was changed by a reset, by a write of the host, or by a completion. -/
theorem step_changes {α : Type} {f : State → α} (hhost : ∀ s x, f (s.withHost x) = f s)
    (hturns : ∀ s x, f (s.withTurns x) = f s) {s t : State} (h : step s = .next t) (hc : f t ≠ f s) :
    (ResetMoves s ∧ t = resetEvent (turnTaken s)) ∨
    (HostMoves s ∧ ∃ r d rest, s.host.program = .wr r.index d :: rest ∧ f t = f (writeReg r d (turnTaken s))) ∨
    (EngineMoves s ∧ statusBusy s.status = true ∧
      ∃ p, (turnTaken s).pend = some p ∧ runPending p (turnTaken s) = .next t) := by
  rcases step_cases h with hreset | ⟨-, rfl⟩ | ⟨hm, rfl⟩ | ⟨-, -, rfl⟩ | ⟨hm, hb, p, hp, hrun⟩
  · exact .inl hreset
  · exact absurd (hturns _ _) hc
  · rcases hostTurn_cases (turnTaken s) with ht | ⟨r, d, rest, hprog, -, ht⟩
    · rw [ht, hhost, hturns] at hc
      exact absurd rfl hc
    · exact .inr (.inl ⟨hm, r, d, rest, hprog, by rw [ht, hhost]⟩)
  · exact absurd (hturns _ _) hc
  · exact .inr (.inr ⟨hm, hb, p, hp, hrun⟩)

@[simp] theorem resetEvent_status (s : State) : (resetEvent s).status = 0#32 := rfl

theorem step_sets_busy {s t : State} (h : step s = .next t) (hs : statusBusy s.status = false)
    (ht : statusBusy t.status = true) : HostMoves s ∧ ∃ d rest, s.host.program = .wr Reg.cmd.index d :: rest := by
  rcases step_changes (f := fun s => statusBusy s.status) (fun _ _ => rfl) (fun _ _ => rfl) h (by simp [hs, ht]) with
    ⟨-, rfl⟩ | ⟨hm, r, d, rest, hprog, hw⟩ | ⟨-, hb, -⟩
  · simp [statusBusy] at ht
  · obtain rfl := eq_cmd_of_writeReg_sets_busy (s := turnTaken s) hs (hw.symm.trans ht)
    exact ⟨hm, d, rest, hprog⟩
  · simp [hs] at hb

theorem step_clears_busy {s t : State} (h : step s = .next t) (hs : statusBusy s.status = true)
    (ht : statusBusy t.status = false) : EngineMoves s ∨ ResetMoves s := by
  rcases step_changes (f := fun s => statusBusy s.status) (fun _ _ => rfl) (fun _ _ => rfl) h (by simp [hs, ht]) with
    ⟨hm, -⟩ | ⟨-, r, d, -, -, hw⟩ | ⟨hm, -⟩
  · exact .inr hm
  · have hkept := writeReg_keeps_busy (r := r) (d := d) (s := turnTaken s) hs
    simp [← hw, ht] at hkept
  · exact .inl hm

theorem step_sets_werr {s t : State} (h : step s = .next t) (hs : statusWerr s.status = false)
    (ht : statusWerr t.status = true) : HostMoves s ∧ statusBusy s.status = true ∧
      ∃ r d rest, s.host.program = .wr r.index d :: rest ∧ Writable r ∧ r ≠ .status := by
  rcases step_changes (f := fun s => statusWerr s.status) (fun _ _ => rfl) (fun _ _ => rfl) h (by simp [hs, ht]) with
    ⟨-, rfl⟩ | ⟨hm, r, d, rest, hprog, hw⟩ | ⟨-, -, p, hp, hrun⟩
  · simp [statusWerr] at ht
  · obtain ⟨hr, hwr, hb⟩ := dropped_of_writeReg_sets_werr (s := turnTaken s) hs (hw.symm.trans ht)
    exact ⟨hm, hb, r, d, rest, hprog, hwr, hr⟩
  · simp [runPending_werr hp hrun, hs] at ht

theorem step_clears_werr {s t : State} (h : step s = .next t) (hs : statusWerr s.status = true)
    (ht : statusWerr t.status = false) : ResetMoves s ∨
      (HostMoves s ∧ ∃ d rest, s.host.program = .wr Reg.status.index d :: rest ∧ d.getLsbD 3 = true) := by
  rcases step_changes (f := fun s => statusWerr s.status) (fun _ _ => rfl) (fun _ _ => rfl) h (by simp [hs, ht]) with
    ⟨hm, -⟩ | ⟨hm, r, d, rest, hprog, hw⟩ | ⟨-, -, p, hp, hrun⟩
  · exact .inl hm
  · obtain ⟨rfl, hd⟩ := eq_status_of_writeReg_clears_werr (s := turnTaken s) hs (hw.symm.trans ht)
    exact .inr ⟨hm, d, rest, hprog, hd⟩
  · simp [runPending_werr hp hrun, hs] at ht

/-- Settles O21: each of the four changes has its own lemma about the step. -/
theorem onlyTheNamedEventsChangeBusyAndWerr : Obligations.OnlyTheNamedEventsChangeBusyAndWerr := by
  intro s t h
  refine ⟨step_sets_busy h, step_clears_busy h, fun hs ht => ?_, step_clears_werr h⟩
  obtain ⟨hm, hb, r, d, rest, hprog, hw, hr⟩ := step_sets_werr h hs ht
  exact ⟨hm, hb, r.index, d, rest, hprog, index_of_writable hw hr⟩

theorem step_changes_params {s t : State} (h : step s = .next t) (hc : t.params ≠ s.params) : ResetMoves s ∨
    (HostMoves s ∧ statusBusy s.status = false ∧
      ∃ p d rest, s.host.program = .wr (Reg.param p).index d :: rest) := by
  rcases step_changes (f := State.params) (fun _ _ => rfl) (fun _ _ => rfl) h hc with
    ⟨hm, -⟩ | ⟨hm, r, d, rest, hprog, hw⟩ | ⟨-, -, p, hp, hrun⟩
  · exact .inl hm
  · rw [hw] at hc
    obtain ⟨hb, p, rfl⟩ := eq_param_of_writeReg_changes_params (s := turnTaken s) hc
    exact .inr ⟨hm, hb, p, d, rest, hprog⟩
  · exact absurd (runPending_params hp hrun) hc

theorem step_changes_coefs {s t : State} (h : step s = .next t) (hc : t.coefs ≠ s.coefs) : ResetMoves s ∨
    (EngineMoves s ∧ statusBusy s.status = true) ∨
    (HostMoves s ∧ statusBusy s.status = false ∧
      ∃ i d rest, s.host.program = .wr (Reg.coef i).index d :: rest) := by
  rcases step_changes (f := State.coefs) (fun _ _ => rfl) (fun _ _ => rfl) h hc with
    ⟨hm, -⟩ | ⟨hm, r, d, rest, hprog, hw⟩ | ⟨hm, hb, -⟩
  · exact .inl hm
  · rw [hw] at hc
    obtain ⟨hb, i, rfl⟩ := eq_coef_of_writeReg_changes_coefs (s := turnTaken s) hc
    exact .inr (.inr ⟨hm, hb, i, d, rest, hprog⟩)
  · exact .inr (.inl ⟨hm, hb⟩)

/-- QFLAGS, CODE and BYTE: what the engine alone writes. -/
def results (s : State) : Word × PerSlot Code × PerSlot Packed := (s.qflags, s.codes, s.bytes)

theorem results_writeReg (r : Reg) (d : BusData) (s : State) : results (writeReg r d s) = results s := by
  obtain ⟨hq, hcode, hbyte⟩ := writeReg_keeps_results (r := r) (d := d) (s := s)
  simp [results, hq, hcode, hbyte]

theorem step_changes_results {s t : State} (h : step s = .next t) (hc : results t ≠ results s) :
    ResetMoves s ∨ (EngineMoves s ∧ statusBusy s.status = true) := by
  rcases step_changes (f := results) (fun _ _ => rfl) (fun _ _ => rfl) h hc with
    ⟨hm, -⟩ | ⟨-, r, d, -, -, hw⟩ | ⟨hm, hb, -⟩
  · exact .inl hm
  · exact absurd (hw.trans (results_writeReg r d _)) hc
  · exact .inr ⟨hm, hb⟩

/-- Settles O22: QFLAGS, CODE and BYTE change together, the others each for itself. -/
theorem onlyTheNamedAgentsWriteEachRegister : Obligations.OnlyTheNamedAgentsWriteEachRegister := by
  intro s t h
  refine ⟨step_changes_params h, step_changes_coefs h, fun hc => step_changes_results h fun heq => ?_⟩
  simp only [results, Prod.mk.injEq] at heq
  obtain ⟨hq, hcode, hbyte⟩ := heq
  simp [hq, hcode, hbyte] at hc

end Sys2Proof.Laws
end

section
/-! A completion from two states that agree in PEND, CODE and BYTE (10_state.md R36, R38). -/

namespace Sys2Proof.Laws

open Sys2Proof.Machine

/-- What was written on the way from `s` to `u` was written on the way from `s'` to `u'`. -/
structure SameWrites (s s' u u' : State) : Prop where
  codes : u'.codes = u.codes
  bytes : u'.bytes = u.bytes
  coefs : u.coefs ≠ s.coefs → u'.coefs = u.coefs
  flags : ∀ j, getSlotFlags j u.qflags ≠ getSlotFlags j s.qflags →
    getSlotFlags j u'.qflags = getSlotFlags j u.qflags

/-- The same writes, and the same report at the end. -/
structure SameCompletion (s s' t t' : State) : Prop extends SameWrites s s' t t' where
  err : statusErr t'.status = statusErr t.status
  cause : statusCause t'.status = statusCause t.status
  index : statusIndex t'.status = statusIndex t.status

section

variable {s s' u u' : State}

theorem sameWrites_refl (hcodes : s'.codes = s.codes) (hbytes : s'.bytes = s.bytes) : SameWrites s s' s s' :=
  ⟨hcodes, hbytes, fun hc => absurd rfl hc, fun _ hc => absurd rfl hc⟩

theorem SameWrites.withCoefs (h : SameWrites s s' u u') (c : PerSlot Binary64) :
    SameWrites s s' (u.withCoefs c) (u'.withCoefs c) :=
  ⟨h.codes, h.bytes, fun _ => rfl, h.flags⟩

theorem SameWrites.writeFlags (h : SameWrites s s' u u') (i : Slot) (c : Binary64) :
    SameWrites s s' (writeFlags i c u) (writeFlags i c u') := by
  refine ⟨h.codes, h.bytes, h.coefs, fun j hj => ?_⟩
  by_cases hji : j = i
  · subst hji
    simp
  · simp only [writeFlags_qflags, getSlotFlags_setSlotFlags_other hji] at hj ⊢
    exact h.flags j hj

theorem SameWrites.writeAllFlags (h : SameWrites s s' u u') (c : PerSlot Binary64) :
    SameWrites s s' (writeAllFlags c u) (writeAllFlags c u') :=
  ⟨h.codes, h.bytes, h.coefs, fun j _ => by simp⟩

theorem SameWrites.writePacked (h : SameWrites s s' u u') (l : Layout) (i : Slot) (c : Binary64) :
    SameWrites s s' (writePacked l i c u) (writePacked l i c u') :=
  ⟨by simp [h.codes], by simp [h.bytes], h.coefs, h.flags⟩

theorem SameWrites.writeAllPacked (h : SameWrites s s' u u') (l : Layout) (c : PerSlot Binary64) :
    SameWrites s s' (writeAllPacked l c u) (writeAllPacked l c u') :=
  ⟨rfl, rfl, h.coefs, h.flags⟩

theorem SameWrites.completed (h : SameWrites s s' u u') (e : Bool) (c x : BitVec 3) :
    SameCompletion s s' (completed e c x u) (completed e c x u') :=
  ⟨⟨h.codes, h.bytes, h.coefs, h.flags⟩, by simp [Laws.completed], by simp [Laws.completed], by simp [Laws.completed]⟩

theorem SameWrites.completeOk (h : SameWrites s s' u u') : SameCompletion s s' (completeOk u) (completeOk u') :=
  h.completed false 0#3 0#3

theorem SameWrites.raiseCmdError (h : SameWrites s s' u u') (e : Cause) (x : BitVec 3) :
    SameCompletion s s' (raiseCmdError e x u) (raiseCmdError e x u') :=
  h.completed true (causeCode e) x

/-- A check's finding ends a command in strict mode only. -/
theorem check_passes_or_fails {α : Type} (m : Mode) (found : Option α) :
    (m = .reference ∨ found = none) ∨ (m = .strict ∧ ∃ e, found = some e) := by
  cases m with
  | reference => exact .inl (.inl rfl)
  | strict =>
    cases found with
    | none => exact .inl (.inr rfl)
    | some e => exact .inr ⟨rfl, e, rfl⟩

theorem SameWrites.quantizeSlot (h : SameWrites s s' s s') (i : Slot) (l : Layout) (m : Mode) (c : Binary64) :
    SameCompletion s s' (quantizeSlot i l m c s) (quantizeSlot i l m c s') := by
  rcases check_passes_or_fails m (quantCause c) with hok | ⟨rfl, e, he⟩
  · rw [quantizeSlot_ok hok, quantizeSlot_ok hok]
    exact ((h.writeFlags i c).writePacked l i c).completeOk
  · rw [quantizeSlot_strict_error he, quantizeSlot_strict_error he]
    exact (h.writeFlags i c).raiseCmdError e _

/-- What is stored besides the set must itself be stored alike in both states. -/
theorem SameWrites.quantizeSet {store : State → State} (h : SameWrites s s' s s') (l : Layout) (m : Mode)
    (c : PerSlot Binary64) (hstore : ∀ {u u'}, SameWrites s s' u u' → SameWrites s s' (store u) (store u')) :
    SameCompletion s s' (quantizeSet l m c store s) (quantizeSet l m c store s') := by
  rcases check_passes_or_fails m (firstFailing c) with hok | ⟨rfl, ⟨i, e⟩, he⟩
  · rw [quantizeSet_ok hok, quantizeSet_ok hok]
    exact ((hstore (h.writeAllFlags c)).writeAllPacked l c).completeOk
  · rw [quantizeSet_strict_error he, quantizeSet_strict_error he]
    exact (h.writeAllFlags c).raiseCmdError e _

theorem SameWrites.ifParamsValid {w w' : State} (h : SameWrites s s' s s') (m : Mode) (p : Params)
    (hw : SameCompletion s s' w w') : SameCompletion s s' (ifParamsValid m p s w) (ifParamsValid m p s' w') := by
  rcases check_passes_or_fails m (firstInvalidParam p) with hok | ⟨rfl, bad, hbad⟩
  · rw [ifParamsValid_ok hok, ifParamsValid_ok hok]
    exact hw
  · rw [ifParamsValid_strict_error hbad, ifParamsValid_strict_error hbad]
    exact h.raiseCmdError _ _

/-- Each command does the same work on both states, its operands being taken from PEND. -/
theorem SameWrites.exec {p : Snapshot} (h : SameWrites s s' s s') (i : Instr) (hp : s.pend = some p)
    (hp' : s'.pend = some p) :
    ∃ t t', exec i s = .next t ∧ exec i s' = .next t' ∧ SameCompletion s s' t t' := by
  cases i with
  | nop => exact ⟨_, _, exec_nop hp, exec_nop hp', h.completeOk⟩
  | quant1 slot l m =>
    cases hslot : slotOfField? slot with
    | none =>
      have hrange := slotOfField?_eq_none.mp hslot
      exact ⟨_, _, exec_quant1_illegal hp hrange, exec_quant1_illegal hp' hrange, h.raiseCmdError _ _⟩
    | some j =>
      have hnum := slotOfField?_eq_some.mp hslot
      exact ⟨_, _, exec_quant1 hp hnum, exec_quant1 hp' hnum, h.quantizeSlot j l m _⟩
  | qset l m => exact ⟨_, _, exec_qset hp, exec_qset hp', h.quantizeSet l m _ id⟩
  | derive m => exact ⟨_, _, exec_derive hp, exec_derive hp', h.ifParamsValid m _ (h.withCoefs _).completeOk⟩
  | dpack l m =>
    exact ⟨_, _, exec_dpack hp, exec_dpack hp',
      h.ifParamsValid m _ (h.quantizeSet l m _ fun hu => hu.withCoefs _)⟩

end

/-- Settles O32: each operation of a completion keeps the two runs writing the same. -/
theorem completionDependsOnPendAlone : Obligations.CompletionDependsOnPendAlone := by
  intro i s s' t hpend hcodes hbytes h
  obtain ⟨p, hp⟩ := exec_pend h
  obtain ⟨u, t', hu, ht', hsame⟩ := (sameWrites_refl hcodes hbytes).exec i hp (hpend.trans hp)
  cases h.symm.trans hu
  exact ⟨t', ht', hsame.codes, hsame.bytes, hsame.coefs, hsame.flags, hsame.err, hsame.cause, hsame.index⟩

end Sys2Proof.Laws
end

section
/-! The register map, and what a read or a write of each register does (20_memory.md R51 to R54, 70_reset_and_hazards.md
R195, R196). -/

namespace Sys2Proof.Laws

open Sys2Proof.Machine Sys2Proof.Safety

/-! The map. -/

theorem regOfIndex?_eq_some_iff (idx : RegIndex) (r : Reg) : regOfIndex? idx = some r ↔ r.index = idx where
  mp := index_of_regOfIndex?
  mpr h := h ▸ regOfIndex?_index r

/-- The mapped numbers lie outside the unmapped ranges; an index that is none of them (the last case) lies in one. -/
theorem regOfIndex?_eq_none_iff (idx : RegIndex) : regOfIndex? idx = none ↔ Unmapped idx := by
  unfold regOfIndex? Unmapped
  split
  case h_33 => simp only [imp_false, true_iff] at *; omega
  all_goals simp only [reduceCtorEq, false_iff]; omega

/-- Settles O3: the map and its inverse agree on every register, and the numbers are read off the definitions. -/
theorem registerMapIsOneToOne : Obligations.RegisterMapIsOneToOne := by
  refine ⟨regOfIndex?_eq_some_iff, regOfIndex?_eq_none_iff, ⟨rfl, rfl, rfl, rfl, rfl⟩, ⟨rfl, rfl, rfl⟩,
    ⟨rfl, rfl, rfl, rfl⟩, rfl, rfl, rfl, fun p => ?param, fun i => ?coef, fun i => ?code, fun i k => ?byte⟩
  case param => cases p <;> rfl
  case coef => cases i <;> rfl
  case code => cases i <;> rfl
  case byte => cases i <;> cases k <;> rfl

/-! An access that names no register. -/

theorem busRead_unmapped {idx : RegIndex} (h : Unmapped idx) (s : State) : busRead idx s = (.busError, 0#64) := by
  simp only [busRead, (regOfIndex?_eq_none_iff idx).mpr h]

theorem busWrite_unmapped {idx : RegIndex} (h : Unmapped idx) (d : BusData) (s : State) :
    busWrite idx d s = (.busError, s) := by
  simp only [busWrite, (regOfIndex?_eq_none_iff idx).mpr h]

/-- A host read, mapped or not, moves on the host alone. -/
theorem hostExec_rd (idx : RegIndex) (name : String) (rest : List HostInstr) (s : State) :
    ∃ h, hostExec (.rd idx name) rest s = s.withHost h := ⟨_, rfl⟩

theorem hostExec_wr (idx : RegIndex) (d : BusData) (rest : List HostInstr) (s : State) :
    hostExec (.wr idx d) rest s = hostDone rest ⟨.wr idx d, (busWrite idx d s).1, 0#64⟩ (busWrite idx d s).2 := rfl

/-- Settles O4: both accesses answer the bus error, and the host records it. -/
theorem unmappedAccessIsABusErrorAndChangesNothing : Obligations.UnmappedAccessIsABusErrorAndChangesNothing := by
  intro idx d s rest name h
  refine ⟨busRead_unmapped h s, busWrite_unmapped h d s, hostExec_rd idx name rest s, ?_⟩
  rw [hostExec_wr, busWrite_unmapped h]
  exact ⟨_, rfl⟩

/-! Writes. -/

theorem onlyWerr_setWerr (b : Bool) (s : State) : OnlyWerr b s (s.withStatus (setWerr b s.status)) where
  rest := rfl
  werr := statusWerr_setWerr b s.status
  busy := statusBusy_setWerr b s.status
  done := statusDone_setWerr b s.status
  err := statusErr_setWerr b s.status
  cause := statusCause_setWerr b s.status
  index := statusIndex_setWerr b s.status
  reserved := statusReserved_setWerr b s.status

theorem writeReg_status_of_bit3 {d : BusData} (h : d.getLsbD 3 = true) (s : State) :
    writeReg .status d s = s.withStatus (setWerr false s.status) := by
  simp only [writeReg, h, if_true]

theorem writeReg_status_of_not_bit3 {d : BusData} (h : d.getLsbD 3 = false) (s : State) :
    writeReg .status d s = s := by
  simp only [writeReg, h, Bool.false_eq_true, if_false]

theorem writeReg_of_not_writable {r : Reg} (h : ¬ Writable r) (d : BusData) (s : State) : writeReg r d s = s := by
  cases r with
  | qflags => rfl
  | code i => rfl
  | byte i k => rfl
  | _ => exact absurd trivial h

theorem writeReg_of_busy {r : Reg} (hw : Writable r) (hr : r ≠ .status) (d : BusData) {s : State}
    (hb : s.busy = true) : writeReg r d s = s.withStatus (setWerr true s.status) := by
  cases r with
  | cmd => exact unlessBusy_busy hb
  | param p => exact unlessBusy_busy hb
  | coef i => exact unlessBusy_busy hb
  | status => exact absurd rfl hr
  | _ => exact hw.elim

theorem writeReg_cmd_of_idle (d : BusData) {s : State} (hb : s.busy = false) :
    writeReg .cmd d s = accept (d.extractLsb' 0 32) s := unlessBusy_idle hb

theorem writeReg_param_of_idle (p : ParamName) (d : BusData) {s : State} (hb : s.busy = false) :
    writeReg (.param p) d s = s.withParams (s.params.set p d) := unlessBusy_idle hb

theorem writeReg_coef_of_idle (i : Slot) (d : BusData) {s : State} (hb : s.busy = false) :
    writeReg (.coef i) d s = s.withCoefs (s.coefs.set i d) := unlessBusy_idle hb

/-- A write of a register answers OK and does what `writeReg` says. -/
theorem busWrite_of_writeReg {r : Reg} {d : BusData} {s t : State} (h : writeReg r d s = t) :
    busWrite r.index d s = (.ok, t) := by
  rw [busWrite_index, h]

/-- Settles O6: each clause is one rule for `writeReg`. -/
theorem busWriteStoresDropsOrIgnores : Obligations.BusWriteStoresDropsOrIgnores := by
  intro s d
  refine ⟨fun idx h => busWrite_unmapped h d s, fun hb => busWrite_of_writeReg (writeReg_cmd_of_idle d hb),
    fun r hr hb => ?dropped, fun h3 => ?cleared, fun h3 => busWrite_of_writeReg (writeReg_status_of_not_bit3 h3 s),
    fun p hb => ?param, fun i hb => ?coef, fun r hr => busWrite_of_writeReg (writeReg_of_not_writable ?ignored d s)⟩
  case dropped =>
    obtain ⟨hw, hne⟩ : Writable r ∧ r ≠ .status := by
      rcases hr with rfl | ⟨p, rfl⟩ | ⟨i, rfl⟩ <;> exact ⟨trivial, nofun⟩
    exact ⟨_, busWrite_of_writeReg (writeReg_of_busy hw hne d hb), onlyWerr_setWerr true s⟩
  case cleared => exact ⟨_, busWrite_of_writeReg (writeReg_status_of_bit3 h3 s), onlyWerr_setWerr false s⟩
  case param =>
    exact ⟨_, busWrite_of_writeReg (writeReg_param_of_idle p d hb), rfl, params_get_set_same _ _ _,
      fun n hn => params_get_set_other _ _ hn⟩
  case coef =>
    exact ⟨_, busWrite_of_writeReg (writeReg_coef_of_idle i d hb), rfl, get_set_same _ _ _,
      fun j hj => get_set_other _ _ hj⟩
  case ignored => rcases hr with rfl | ⟨i, rfl⟩ | ⟨i, k, rfl⟩ <;> exact id

/-! Reads. -/

/-- Zero-extension to the bus adds no bit. -/
theorem getLsbD_setWidth_bus (w : Word) (b : Nat) : (w.setWidth 64).getLsbD b = w.getLsbD b := by
  rw [BitVec.getLsbD_setWidth]
  rcases Nat.lt_or_ge b 32 with h | h
  · simp [show b < 64 by omega]
  · simp [BitVec.getLsbD_of_ge w b h]

theorem extractLsb'_setWidth_bus (w : Word) (lo len : Nat) :
    (w.setWidth 64).extractLsb' lo len = getField lo len w := by
  ext j hj
  simp only [getField, BitVec.getElem_extractLsb', getLsbD_setWidth_bus]

theorem getLsbD_of_statusReserved {w : Word} (h : statusReserved w = 0#22) {b : Nat} (hb : b = 7 ∨ 11 ≤ b) :
    w.getLsbD b = false := by
  have hbit (j : Nat) : (getField 11 21 w ++ getField 7 1 w).getLsbD j = false := by
    rw [← statusReserved, h, BitVec.getLsbD_zero]
  rcases hb with rfl | hb
  · have h0 := hbit 0
    rw [BitVec.getLsbD_append, if_pos (by omega)] at h0
    simpa [getField] using h0
  · rcases Nat.lt_or_ge b 32 with h32 | h32
    · have hpos := hbit (b - 10)
      rw [BitVec.getLsbD_append, if_neg (by omega)] at hpos
      simpa [getField, show b - 10 - 1 < 21 by omega, show 11 + (b - 10 - 1) = b by omega] using hpos
    · exact BitVec.getLsbD_of_ge w b h32

theorem getLsbD_of_qflagsReserved {w : Word} (h : qflagsReserved w = 0#12) {b : Nat} (hb : 20 ≤ b) :
    w.getLsbD b = false := by
  rcases Nat.lt_or_ge b 32 with h32 | h32
  · have hbit : (getField 20 12 w).getLsbD (b - 20) = false := by
      rw [← qflagsReserved, h, BitVec.getLsbD_zero]
    simpa [getField, show b - 20 < 12 by omega, show 20 + (b - 20) = b by omega] using hbit
  · exact BitVec.getLsbD_of_ge w b h32

theorem slotFlagBits_bits (f : SlotFlags) :
    (slotFlagBits f).getLsbD 0 = f.neg ∧ (slotFlagBits f).getLsbD 1 = f.rng ∧
    (slotFlagBits f).getLsbD 2 = f.ovf ∧ (slotFlagBits f).getLsbD 3 = f.nf := by
  obtain ⟨neg, rng, ovf, nf⟩ := f
  revert neg rng ovf nf
  decide

/-- The registers that hold results (10_state.md R20). -/
def IsResult (r : Reg) : Prop := r = .qflags ∨ (∃ i, r = .code i) ∨ ∃ i k, r = .byte i k

/-- What a result register reads is a matter of QFLAGS, CODE and BYTE alone. -/
theorem busRead_eq_of_results {r : Reg} (hr : IsResult r) {s t : State} (h : results t = results s) :
    busRead r.index t = busRead r.index s := by
  simp only [results, Prod.mk.injEq] at h
  obtain ⟨hq, hcode, hbyte⟩ := h
  rw [busRead_index, busRead_index]
  rcases hr with rfl | ⟨i, rfl⟩ | ⟨i, k, rfl⟩
  · simp only [readReg, hq]
  · simp only [readReg, hcode]
  · simp only [readReg, hbyte]

theorem runPending_not_busy {p : Snapshot} {s t : State} (hp : s.pend = some p) (h : runPending p s = .next t) :
    t.busy = false := by
  obtain ⟨u, e, c, x, rfl, -, -, -⟩ := runPending_cases hp h
  exact statusBusy_setReport false true e c x u.status

/-- Only a reset and a completion change a result, and both end the command in progress. -/
theorem results_of_step_still_busy {s t : State} (h : step s = .next t) (hb : t.busy = true) :
    results t = results s := by
  by_contra hc
  rcases step_changes (f := results) (fun _ _ => rfl) (fun _ _ => rfl) h hc with
    ⟨-, rfl⟩ | ⟨-, r, d, -, -, hw⟩ | ⟨-, -, p, hp, hrun⟩
  · exact absurd hb (by simp [State.busy, statusBusy])
  · exact hc (hw.trans (results_writeReg r d _))
  · exact absurd hb (by simp [runPending_not_busy hp hrun])

/-- Settles O5: the register map gives what each index reads, the fields are those of the register's word, and no step
that leaves the command in progress changes a result. -/
theorem busReadReturnsTheRegisterZeroExtended : Obligations.BusReadReturnsTheRegisterZeroExtended := by
  intro s
  have hstatus : busRead 0x01#8 s = (.ok, s.status.setWidth 64) := busRead_index .status s
  have hqflags : busRead 0x02#8 s = (.ok, s.qflags.setWidth 64) := busRead_index .qflags s
  refine ⟨fun idx h => busRead_unmapped h s, busRead_index .cmd s, hstatus, hqflags,
    fun p => busRead_index (.param p) s, fun i => busRead_index (.coef i) s, fun i => busRead_index (.code i) s,
    fun i k => ?byte, fun ⟨hres, _⟩ b hb => ?statusReserved, fun ⟨_, hres⟩ b hb => ?qflagsReserved, ?statusFields,
    fun i => ?qflagsFields, slotFlagBits_bits, fun idx name rest => hostExec_rd idx name rest s,
    fun w t r hr => ⟨busRead_eq_of_results hr rfl, fun _ hstep hb =>
      busRead_eq_of_results hr (results_of_step_still_busy hstep hb)⟩⟩
  case byte =>
    rw [← Nat.add_assoc]
    exact busRead_index (.byte i k) s
  case statusReserved =>
    rw [hstatus, getLsbD_setWidth_bus]
    exact getLsbD_of_statusReserved hres hb
  case qflagsReserved =>
    rw [hqflags, getLsbD_setWidth_bus]
    exact getLsbD_of_qflagsReserved hres hb
  case statusFields =>
    rw [hstatus]
    exact ⟨getLsbD_setWidth_bus _ _, getLsbD_setWidth_bus _ _, getLsbD_setWidth_bus _ _, getLsbD_setWidth_bus _ _,
      extractLsb'_setWidth_bus _ _ _, extractLsb'_setWidth_bus _ _ _⟩
  case qflagsFields =>
    rw [hqflags]
    exact extractLsb'_setWidth_bus _ _ _

end Sys2Proof.Laws
end

section
/-! What a step is, by the agent whose turn it is (Machine/Step.lean, log 2). -/

namespace Sys2Proof.Laws

open Sys2Proof.Machine Sys2Proof.Safety

section

variable {s : State}

theorem turnTaken_of_cons {x : Turn} {rest : List Turn} (h : s.turns = x :: rest) :
    turnTaken s = s.withTurns rest := by
  rw [turnTaken, h, List.tail_cons]

theorem engineTurn_of_idle (h : s.busy = false) : engineTurn s = .next s := by
  simp only [engineTurn, h, Bool.false_eq_true, if_false]

theorem step_of_wait (h : s.turns.head? = some .wait) : step s = .next (turnTaken s) := by
  obtain ⟨rest, hs⟩ := List.head?_eq_some_iff.mp h
  simp only [step, hs, turnTaken_of_cons hs]

theorem step_of_resetMoves (h : ResetMoves s) : step s = .next (resetEvent (turnTaken s)) := by
  obtain ⟨rest, hs⟩ := List.head?_eq_some_iff.mp h
  simp only [step, hs, turnTaken_of_cons hs]

theorem step_of_engine_idle (h : s.turns.head? = some .engine) (hb : s.busy = false) :
    step s = .next (turnTaken s) := by
  obtain ⟨rest, hs⟩ := List.head?_eq_some_iff.mp h
  simp only [step, hs, turnTaken_of_cons hs]
  exact engineTurn_of_idle hb

theorem step_of_hostMoves (h : HostMoves s) : step s = .next (hostTurn (turnTaken s)) := by
  rcases h with h | ⟨hs, hb⟩
  · obtain ⟨rest, hs⟩ := List.head?_eq_some_iff.mp h
    simp only [step, hs, turnTaken_of_cons hs]
  · simp only [step, hs, hb, turnTaken_of_nil hs, Bool.false_eq_true, if_false]

theorem hostTurn_of_nil (h : s.host.program = []) : hostTurn s = s := by
  simp only [hostTurn, h]

theorem hostTurn_of_cons {i : HostInstr} {rest : List HostInstr} (h : s.host.program = i :: rest) :
    hostTurn s = hostExec i rest s := by
  simp only [hostTurn, h]

end

/-- Settles O15: one rule for each agent's turn. -/
theorem eachTurnIsItsAgentsMove : Obligations.EachTurnIsItsAgentsMove := by
  intro s
  refine ⟨step_of_wait, step_of_engine_idle, step_of_resetMoves, resetEvent_host s, resetEvent_turns s,
    fun hm hnil => ?nothingLeft, fun i rest hm hcons => ?next⟩
  case nothingLeft => rw [step_of_hostMoves hm, hostTurn_of_nil (s := turnTaken s) hnil]
  case next => rw [step_of_hostMoves hm, hostTurn_of_cons (s := turnTaken s) hcons]

end Sys2Proof.Laws
end

section
/-! Decoding and encoding of command words, field by field (30_encoding.md R70 to R78). -/

namespace Sys2Proof.Laws

open Sys2Proof.Machine Sys2Proof.Safety

/-! A word is its five fields. -/

theorem eq_append_fields (w : CmdWord) : w = reservedField w ++ slotField w ++ BitVec.ofBool (strictField w) ++
    BitVec.ofBool (layoutField w) ++ opField w := by
  simp only [reservedField, slotField, strictField, layoutField, opField]
  ext i hi
  grind

@[simp] theorem slotField_cmdWord (slot : BitVec 3) (strict layout : BitVec 1) (op : BitVec 3) :
    slotField (cmdWord slot strict layout op) = slot := by
  revert slot strict layout op
  decide +kernel

@[simp] theorem ofBool_strictField_cmdWord (slot : BitVec 3) (strict layout : BitVec 1) (op : BitVec 3) :
    BitVec.ofBool (strictField (cmdWord slot strict layout op)) = strict := by
  revert slot strict layout op
  decide +kernel

@[simp] theorem ofBool_layoutField_cmdWord (slot : BitVec 3) (strict layout : BitVec 1) (op : BitVec 3) :
    BitVec.ofBool (layoutField (cmdWord slot strict layout op)) = layout := by
  revert slot strict layout op
  decide +kernel

@[simp] theorem opField_cmdWord (slot : BitVec 3) (strict layout : BitVec 1) (op : BitVec 3) :
    opField (cmdWord slot strict layout op) = op := by
  revert slot strict layout op
  decide +kernel

/-- A word has the format of R70 with given fields exactly when its fields are those and bits 31:8 are 0. -/
theorem cmdWord_eq_iff {slot : BitVec 3} {strict layout : BitVec 1} {op : BitVec 3} {w : CmdWord} :
    cmdWord slot strict layout op = w ↔ reservedField w = 0#24 ∧ opField w = op ∧ slotField w = slot ∧
      BitVec.ofBool (strictField w) = strict ∧ BitVec.ofBool (layoutField w) = layout where
  mp h := by
    subst h
    exact ⟨ReservedZero.reservedField_cmdWord _ _ _ _, opField_cmdWord _ _ _ _, slotField_cmdWord _ _ _ _,
      ofBool_strictField_cmdWord _ _ _ _, ofBool_layoutField_cmdWord _ _ _ _⟩
  mpr := by
    rintro ⟨hr, rfl, rfl, rfl, rfl⟩
    rw [cmdWord, ← hr]
    exact (eq_append_fields w).symm

/-! The bits of LAYOUT and STRICT (R72, R73). -/

theorem ofBool_eq_zero_iff {b : Bool} : BitVec.ofBool b = 0#1 ↔ b = false := by
  cases b <;> decide

theorem ofBool_eq_layoutBit_iff {b : Bool} {l : Layout} : BitVec.ofBool b = layoutBit l ↔ (b = true ↔ l = .nibble) := by
  cases b <;> cases l <;> decide

theorem ofBool_eq_modeBit_iff {b : Bool} {m : Mode} : BitVec.ofBool b = modeBit m ↔ (b = true ↔ m = .strict) := by
  cases b <;> cases m <;> decide

theorem layoutOfBit_eq_iff {b : Bool} {l : Layout} : layoutOfBit b = l ↔ BitVec.ofBool b = layoutBit l := by
  cases b <;> cases l <;> decide

theorem modeOfBit_eq_iff {b : Bool} {m : Mode} : modeOfBit b = m ↔ BitVec.ofBool b = modeBit m := by
  cases b <;> cases m <;> decide

/-! Decoding, by the value of OP (R77). -/

theorem op_cases (op : BitVec 3) :
    op = 0b000#3 ∨ op = 0b001#3 ∨ op = 0b010#3 ∨ op = 0b011#3 ∨ op = 0b100#3 ∨ 5 ≤ op.toNat := by
  revert op
  decide

section

variable {w : CmdWord} (hr : reservedField w = 0#24)
include hr

theorem decode_nop (ho : opField w = 0b000#3) :
    decode w = if slotField w = 0#3 ∧ strictField w = false ∧ layoutField w = false then .command .nop
      else .illegal .mustBeZero := by
  simp [decode, hr, ho]

theorem decode_quant1 (ho : opField w = 0b001#3) :
    decode w = if (slotField w).toNat ≤ 4 then
        .command (.quant1 (slotField w) (layoutOfBit (layoutField w)) (modeOfBit (strictField w)))
      else .illegal .slotOutOfRange := by
  simp [decode, hr, ho]

theorem decode_qset (ho : opField w = 0b010#3) :
    decode w = if slotField w = 0#3 then .command (.qset (layoutOfBit (layoutField w)) (modeOfBit (strictField w)))
      else .illegal .mustBeZero := by
  simp [decode, hr, ho]

theorem decode_derive (ho : opField w = 0b011#3) :
    decode w = if slotField w = 0#3 ∧ layoutField w = false then .command (.derive (modeOfBit (strictField w)))
      else .illegal .mustBeZero := by
  simp [decode, hr, ho]

theorem decode_dpack (ho : opField w = 0b100#3) :
    decode w = if slotField w = 0#3 then .command (.dpack (layoutOfBit (layoutField w)) (modeOfBit (strictField w)))
      else .illegal .mustBeZero := by
  simp [decode, hr, ho]

theorem decode_reservedOp (ho : 5 ≤ (opField w).toNat) : decode w = .illegal .reservedOp := by
  have hne (k : BitVec 3) (hk : k.toNat < 5) : opField w ≠ k := by
    rintro rfl
    omega
  simp [decode, hr, hne]

end

/-! Decoding and encoding are inverse. -/

theorem encode_of_decode {w : CmdWord} {i : Instr} (h : decode w = .command i) : i.WellFormed ∧ encode i = w := by
  have hr := reserved_of_command h
  rcases op_cases (opField w) with ho | ho | ho | ho | ho | ho
  · rw [decode_nop hr ho] at h
    split at h <;> cases h
    next hz =>
      obtain ⟨hs, ht, hl⟩ := hz
      exact ⟨rfl, cmdWord_eq_iff.mpr ⟨hr, ho, hs, by rw [ht]; rfl, by rw [hl]; rfl⟩⟩
  · rw [decode_quant1 hr ho] at h
    split at h <;> cases h
    next hs =>
      exact ⟨decide_eq_true hs, cmdWord_eq_iff.mpr ⟨hr, ho, rfl, modeOfBit_eq_iff.mp rfl, layoutOfBit_eq_iff.mp rfl⟩⟩
  · rw [decode_qset hr ho] at h
    split at h <;> cases h
    next hs => exact ⟨rfl, cmdWord_eq_iff.mpr ⟨hr, ho, hs, modeOfBit_eq_iff.mp rfl, layoutOfBit_eq_iff.mp rfl⟩⟩
  · rw [decode_derive hr ho] at h
    split at h <;> cases h
    next hz =>
      obtain ⟨hs, hl⟩ := hz
      exact ⟨rfl, cmdWord_eq_iff.mpr ⟨hr, ho, hs, modeOfBit_eq_iff.mp rfl, ofBool_eq_zero_iff.mpr hl⟩⟩
  · rw [decode_dpack hr ho] at h
    split at h <;> cases h
    next hs => exact ⟨rfl, cmdWord_eq_iff.mpr ⟨hr, ho, hs, modeOfBit_eq_iff.mp rfl, layoutOfBit_eq_iff.mp rfl⟩⟩
  · rw [decode_reservedOp hr ho] at h
    cases h

theorem decode_encode {i : Instr} (h : i.WellFormed) : decode (encode i) = .command i := by
  cases i with
  | nop => decide
  | quant1 slot l m =>
    obtain ⟨hr, ho, hs, ht, hl⟩ := cmdWord_eq_iff.mp (rfl : encode (.quant1 slot l m) = _)
    rw [decode_quant1 hr ho, hs, modeOfBit_eq_iff.mpr ht, layoutOfBit_eq_iff.mpr hl, if_pos (of_decide_eq_true h)]
  | qset l m =>
    obtain ⟨hr, ho, hs, ht, hl⟩ := cmdWord_eq_iff.mp (rfl : encode (.qset l m) = _)
    rw [decode_qset hr ho, modeOfBit_eq_iff.mpr ht, layoutOfBit_eq_iff.mpr hl, if_pos hs]
  | derive m =>
    obtain ⟨hr, ho, hs, ht, hl⟩ := cmdWord_eq_iff.mp (rfl : encode (.derive m) = _)
    rw [decode_derive hr ho, modeOfBit_eq_iff.mpr ht, if_pos ⟨hs, ofBool_eq_zero_iff.mp hl⟩]
  | dpack l m =>
    obtain ⟨hr, ho, hs, ht, hl⟩ := cmdWord_eq_iff.mp (rfl : encode (.dpack l m) = _)
    rw [decode_dpack hr ho, modeOfBit_eq_iff.mpr ht, layoutOfBit_eq_iff.mpr hl, if_pos hs]

/-- Settles O8: each legal word is the encoding of what it decodes to, and each encoding decodes to its command. -/
theorem decodingInvertsEncoding : Obligations.DecodingInvertsEncoding := by
  intro w i
  refine ⟨encode_of_decode, ?_⟩
  rintro ⟨hwf, rfl⟩
  exact decode_encode hwf

/-! The match and mask rows (R77). -/

/-- A row's match has OP alone set, and its mask keeps bits 31:8 and OP: what else the mask keeps must be 0. -/
theorem and_mask_eq_match_iff {w mask : CmdWord} {op : BitVec 3} (hr : reservedField mask = BitVec.allOnes 24)
    (ho : opField mask = BitVec.allOnes 3) :
    w &&& mask = cmdWord 0#3 0#1 0#1 op ↔ reservedField w = 0#24 ∧ opField w = op ∧
      slotField w &&& slotField mask = 0#3 ∧ (strictField w && strictField mask) = false ∧
      (layoutField w && layoutField mask) = false := by
  have hres : reservedField (w &&& mask) = reservedField w := by
    rw [reservedField, BitVec.extractLsb'_and, ← reservedField, ← reservedField, hr, BitVec.and_allOnes]
  have hop : opField (w &&& mask) = opField w := by
    rw [opField, BitVec.extractLsb'_and, ← opField, ← opField, ho, BitVec.and_allOnes]
  have hslot : slotField (w &&& mask) = slotField w &&& slotField mask := BitVec.extractLsb'_and
  have hstrict : strictField (w &&& mask) = (strictField w && strictField mask) := BitVec.getLsbD_and
  have hlayout : layoutField (w &&& mask) = (layoutField w && layoutField mask) := BitVec.getLsbD_and
  rw [eq_comm, cmdWord_eq_iff, hres, hop, hslot, hstrict, hlayout, ofBool_eq_zero_iff, ofBool_eq_zero_iff]

section

variable (w : CmdWord)

theorem nop_row_iff : w &&& 0xFFFFFFFF#32 = 0x00000000#32 ↔ w = 0#32 := by
  rw [show 0xFFFFFFFF#32 = BitVec.allOnes 32 from rfl, BitVec.and_allOnes]

theorem quant1_row_iff : w &&& 0xFFFFFF07#32 = cmdWord 0#3 0#1 0#1 0b001#3 ↔
    reservedField w = 0#24 ∧ opField w = 0b001#3 := by
  rw [and_mask_eq_match_iff rfl rfl]
  simp [slotField, strictField, layoutField]

/-- The mask of QSET and DPACK. -/
theorem set_row_iff (op : BitVec 3) : w &&& 0xFFFFFFE7#32 = cmdWord 0#3 0#1 0#1 op ↔
    reservedField w = 0#24 ∧ opField w = op ∧ slotField w = 0#3 := by
  rw [and_mask_eq_match_iff rfl rfl, show slotField 0xFFFFFFE7#32 = BitVec.allOnes 3 from rfl, BitVec.and_allOnes]
  simp [strictField, layoutField]

theorem derive_row_iff : w &&& 0xFFFFFFEF#32 = cmdWord 0#3 0#1 0#1 0b011#3 ↔
    reservedField w = 0#24 ∧ opField w = 0b011#3 ∧ slotField w = 0#3 ∧ layoutField w = false := by
  rw [and_mask_eq_match_iff rfl rfl, show slotField 0xFFFFFFEF#32 = BitVec.allOnes 3 from rfl, BitVec.and_allOnes]
  simp [strictField, layoutField]

/-! Which words decode to each command, by their fields. -/

theorem decode_eq_nop_iff : decode w = .command .nop ↔ w = 0#32 := by
  rw [decodingInvertsEncoding, and_iff_right (show Instr.WellFormed .nop from rfl), eq_comm]
  rfl

theorem decode_eq_quant1_iff (slot : BitVec 3) (l : Layout) (m : Mode) : decode w = .command (.quant1 slot l m) ↔
    (reservedField w = 0#24 ∧ opField w = 0b001#3) ∧ slotField w = slot ∧ slot.toNat ≤ 4 ∧
      (layoutField w = true ↔ l = .nibble) ∧ (strictField w = true ↔ m = .strict) := by
  rw [decodingInvertsEncoding, encode, cmdWord_eq_iff, ofBool_eq_modeBit_iff, ofBool_eq_layoutBit_iff,
    Instr.WellFormed, Instr.wellFormed, decide_eq_true_iff]
  tauto

theorem decode_eq_qset_iff (l : Layout) (m : Mode) : decode w = .command (.qset l m) ↔
    (reservedField w = 0#24 ∧ opField w = 0b010#3 ∧ slotField w = 0#3) ∧
      (layoutField w = true ↔ l = .nibble) ∧ (strictField w = true ↔ m = .strict) := by
  rw [decodingInvertsEncoding, encode, cmdWord_eq_iff, ofBool_eq_modeBit_iff, ofBool_eq_layoutBit_iff,
    and_iff_right (show Instr.WellFormed (.qset l m) from rfl)]
  tauto

theorem decode_eq_derive_iff (m : Mode) : decode w = .command (.derive m) ↔
    (reservedField w = 0#24 ∧ opField w = 0b011#3 ∧ slotField w = 0#3 ∧ layoutField w = false) ∧
      (strictField w = true ↔ m = .strict) := by
  rw [decodingInvertsEncoding, encode, cmdWord_eq_iff, ofBool_eq_modeBit_iff, ofBool_eq_zero_iff,
    and_iff_right (show Instr.WellFormed (.derive m) from rfl)]
  tauto

theorem decode_eq_dpack_iff (l : Layout) (m : Mode) : decode w = .command (.dpack l m) ↔
    (reservedField w = 0#24 ∧ opField w = 0b100#3 ∧ slotField w = 0#3) ∧
      (layoutField w = true ↔ l = .nibble) ∧ (strictField w = true ↔ m = .strict) := by
  rw [decodingInvertsEncoding, encode, cmdWord_eq_iff, ofBool_eq_modeBit_iff, ofBool_eq_layoutBit_iff,
    and_iff_right (show Instr.WellFormed (.dpack l m) from rfl)]
  tauto

end

/-! A CMD write while idle accepts the word on the low half of the bus. -/

theorem extractLsb'_setWidth_cmdWord (w : CmdWord) : (w.setWidth 64).extractLsb' 0 32 = w := by
  rw [extractLsb'_setWidth_bus, getField, BitVec.extractLsb'_eq_self]

theorem busWrite_cmd_of_idle (w : CmdWord) {s : State} (hb : s.busy = false) :
    busWrite 0x00#8 (w.setWidth 64) s = (.ok, accept w s) := by
  refine busWrite_of_writeReg (r := .cmd) ?_
  rw [writeReg_cmd_of_idle _ hb, extractLsb'_setWidth_cmdWord]

/-- Settles O9: a row and the decoding of its command say the same of the fields. -/
theorem decodingSelectsTheMatchAndMaskRow : Obligations.DecodingSelectsTheMatchAndMaskRow := by
  intro w
  refine ⟨fun s hb => ⟨⟨w, s.params, s.coefs⟩, ?accepted, rfl⟩, ?nop, fun slot l m => ?quant1, fun l m => ?qset,
    fun m => ?derive, fun l m => ?dpack⟩
  case accepted => rw [busWrite_cmd_of_idle w hb, accept_pend]
  case nop => rw [decode_eq_nop_iff, nop_row_iff]
  case quant1 => exact (decode_eq_quant1_iff w slot l m).trans (and_congr_left' (quant1_row_iff w).symm)
  case qset => exact (decode_eq_qset_iff w l m).trans (and_congr_left' (set_row_iff w 0b010#3).symm)
  case derive => exact (decode_eq_derive_iff w m).trans (and_congr_left' (derive_row_iff w).symm)
  case dpack => exact (decode_eq_dpack_iff w l m).trans (and_congr_left' (set_row_iff w 0b100#3).symm)

end Sys2Proof.Laws
end

section
/-! Illegal words, and what completes with ILLEGAL_CMD (30_encoding.md R74, R75, R78, 42_pipeline.md R154). -/

namespace Sys2Proof.Laws

open Sys2Proof.Machine Sys2Proof.Safety

/-! Which words are illegal. -/

/-- Bits 7:3 are SLOT, STRICT and LAYOUT. -/
theorem bits7to3_eq_zero_iff (w : CmdWord) :
    w.extractLsb' 3 5 = 0#5 ↔ slotField w = 0#3 ∧ strictField w = false ∧ layoutField w = false := by
  have hfields : w.extractLsb' 3 5 = slotField w ++ BitVec.ofBool (strictField w) ++ BitVec.ofBool (layoutField w) := by
    simp only [slotField, strictField, layoutField]
    ext i hi
    grind
  rw [hfields]
  generalize slotField w = s, strictField w = t, layoutField w = l
  revert s t l
  decide

theorem ite_command_eq_illegal_iff {c : Prop} [Decidable c] {i : Instr} {why : IllegalReason} :
    (∃ e, (if c then Decoded.command i else .illegal why) = .illegal e) ↔ ¬ c := by
  split <;> simp [*]

/-- The list of R78, by the value of OP. -/
theorem decode_illegal_iff (w : CmdWord) : (∃ why, decode w = .illegal why) ↔
    reservedField w ≠ 0#24 ∨ 5 ≤ (opField w).toNat ∨ ((opField w).toNat = 1 ∧ 5 ≤ (slotField w).toNat) ∨
    ((opField w).toNat = 0 ∧ w.extractLsb' 3 5 ≠ 0#5) ∨
    (((opField w).toNat = 2 ∨ (opField w).toNat = 4) ∧ slotField w ≠ 0#3) ∨
    ((opField w).toNat = 3 ∧ (slotField w ≠ 0#3 ∨ layoutField w = true)) := by
  by_cases hr : reservedField w = 0#24
  case neg => simp [hr, decode_of_reserved hr]
  rcases op_cases (opField w) with ho | ho | ho | ho | ho | ho
  · simp [decode_nop hr ho, ite_command_eq_illegal_iff, hr, ho, bits7to3_eq_zero_iff]
  · simp [decode_quant1 hr ho, ite_command_eq_illegal_iff, hr, ho, Nat.lt_iff_add_one_le]
  · simp [decode_qset hr ho, ite_command_eq_illegal_iff, hr, ho]
  · simp [decode_derive hr ho, ite_command_eq_illegal_iff, hr, ho, imp_iff_not_or]
  · simp [decode_dpack hr ho, ite_command_eq_illegal_iff, hr, ho]
  · simp [decode_reservedOp hr ho, ho]

/-! A completion with ILLEGAL_CMD. -/

theorem finishedErr_raiseCmdError (e : Cause) (x : BitVec 3) (s : State) :
    FinishedErr (causeCode e) x s (raiseCmdError e x s) := by
  constructor <;> simp

/-- The report, with CAUSE 1 and INDEX 0, is all that ILLEGAL_CMD changes. -/
theorem raise_illegalCmd_frame {s t : State} (ht : t = raiseCmdError .illegalCmd 0#3 s) :
    FinishedErr 1#3 0#3 s t ∧ t.qflags = s.qflags ∧ SameData s t ∧ SameSurroundings s t := by
  subst ht
  exact ⟨finishedErr_raiseCmdError .illegalCmd 0#3 s, rfl, ⟨rfl, rfl, rfl⟩, ⟨rfl, rfl, rfl⟩⟩

theorem runPending_of_illegal {p : Snapshot} {s : State} {why : IllegalReason} (hp : s.pend = some p)
    (hd : decode p.word = .illegal why) : runPending p s = .next (raiseCmdError .illegalCmd 0#3 s) := by
  simp only [runPending, hd, completeIllegal_some hp]

/-- Settles O10: the list is decoding's, by the value of OP, and an illegal word does no more than raise the error. -/
theorem illegalWordsCompleteWithIllegalCmdOnly : Obligations.IllegalWordsCompleteWithIllegalCmdOnly := by
  intro w
  refine ⟨decode_illegal_iff w, fun why hd => ⟨fun s hb => ?accepted, fun s p hp hw => ?completes⟩⟩
  case accepted =>
    rw [busWrite_cmd_of_idle w hb, State.busy, accept_status, statusBusy_setReport]
  case completes =>
    subst hw
    exact ⟨_, runPending_of_illegal hp hd, raise_illegalCmd_frame rfl⟩

/-- Settles O25: a slot above 4 names none, and the term does no more than raise the error (log 10). -/
theorem quant1OfNoSlotCompletesAsIllegal : Obligations.Quant1OfNoSlotCompletesAsIllegal := by
  intro s p slot l m hp hslot
  exact ⟨_, exec_quant1_illegal hp hslot, raise_illegalCmd_frame rfl⟩

/-! Bits that are not read, or must not be set. -/

theorem reservedField_ne_zero_of_bit {w : CmdWord} {b : Nat} (hb : 8 ≤ b) (hw : w.getLsbD b = true) :
    reservedField w ≠ 0#24 := by
  intro hr
  have hlt : b < 32 := BitVec.lt_of_getLsbD hw
  have hbit : (reservedField w).getLsbD (b - 8) = w.getLsbD b := by
    simp [reservedField, show b - 8 < 24 by omega, show 8 + (b - 8) = b by omega]
  simp [hr, hw] at hbit

theorem extractLsb'_eq_of_low_bits {d d' : BusData} (h : ∀ b, b < 32 → d.getLsbD b = d'.getLsbD b) :
    d.extractLsb' 0 32 = d'.extractLsb' 0 32 := by
  apply BitVec.eq_of_getLsbD_eq
  intro b hb
  simpa [hb] using h b hb

/-- A CMD write reads its data through bits 31:0 alone. -/
theorem busWrite_cmd (d : BusData) (s : State) :
    busWrite 0x00#8 d s = (.ok, unlessBusy s (accept (d.extractLsb' 0 32) s)) := busWrite_index .cmd d s

/-- Settles O11, from the reserved field of the word and the one field of the bus data that a CMD write reads. -/
theorem reservedWordBitsAreIllegalAndHighBusBitsIgnored :
    Obligations.ReservedWordBitsAreIllegalAndHighBusBitsIgnored := by
  refine ⟨fun w ⟨b, hb, hw⟩ => ⟨_, decode_of_reserved (reservedField_ne_zero_of_bit hb hw)⟩, fun s d d' h => ?_⟩
  rw [busWrite_cmd, busWrite_cmd, extractLsb'_eq_of_low_bits h]

/-- Settles O12: a legal word is the encoding of its command; of the two illegal ones, one names no slot and the other
has a reserved bit set. -/
theorem sampleWordsDecode : Obligations.SampleWordsDecode := by
  have legal {w : CmdWord} (i : Instr) (hwf : i.WellFormed) (hw : encode i = w) : decode w = .command i :=
    (decodingInvertsEncoding w i).mpr ⟨hwf, hw⟩
  refine ⟨legal _ rfl rfl, legal _ rfl rfl, legal _ rfl rfl, legal _ rfl rfl, legal _ rfl rfl, legal _ rfl rfl, ?_,
    decode_of_reserved (by decide)⟩
  rw [decode_quant1 rfl rfl]
  rfl

end Sys2Proof.Laws
end

section
/-! What the host's instructions and each command change (30_encoding.md R80, R82). -/

namespace Sys2Proof.Laws

open Sys2Proof.Machine Sys2Proof.Safety

/-! The host's instructions. -/

section

variable (s : State) (rest : List HostInstr)

theorem hostExec_rd_eq (idx : RegIndex) (name : String) : hostExec (.rd idx name) rest s =
    s.withHost ⟨rest, s.host.log ++ [⟨.rd idx name, (busRead idx s).1, (busRead idx s).2⟩]⟩ := rfl

theorem hostExec_wr_eq (idx : RegIndex) (d : BusData) : hostExec (.wr idx d) rest s =
    (busWrite idx d s).2.withHost ⟨rest, s.host.log ++ [⟨.wr idx d, (busWrite idx d s).1, 0#64⟩]⟩ := by
  rw [hostExec_wr, hostDone, (busWrite_surroundings idx d s).1]

theorem hostExec_wait :
    hostExec .wait rest s = if s.busy = true then s else s.withHost ⟨rest, s.host.log⟩ := by
  simp only [hostExec, busRead_status_bit0]

end

/-- Settles O16: each instruction's equation, with the bus error as the response where no register is named. -/
theorem hostInstructionsAccessTheBusOnce : Obligations.HostInstructionsAccessTheBusOnce := by
  intro s rest
  refine ⟨fun idx name => ⟨_, hostExec_rd_eq s rest idx name, rfl, rfl, rfl⟩,
    fun idx d => ⟨_, hostExec_wr_eq s rest idx d, rfl, rfl, rfl⟩, fun idx d name h => ⟨?rd, ?wr⟩,
    fun hb => ?busy, fun hb => ?idle⟩
  case rd => rw [hostExec_rd_eq, busRead_unmapped h]
  case wr => rw [hostExec_wr_eq, busWrite_unmapped h]
  case busy => rw [hostExec_wait, if_pos hb]
  case idle => rw [hostExec_wait, if_neg (ne_true_of_eq_false hb)]

/-! What each command leaves unchanged. -/

/-- What every command leaves unchanged: of STATUS it writes the report alone, of QFLAGS no reserved bit. -/
theorem exec_frame {i : Instr} {s t : State} (h : exec i s = .next t) :
    SameSurroundings s t ∧ statusWerr t.status = statusWerr s.status ∧
    statusReserved t.status = statusReserved s.status ∧ qflagsReserved t.qflags = qflagsReserved s.qflags := by
  rcases exec_cases h with ⟨u, rfl, hf, -⟩ | ⟨u, e, x, rfl, hf, -⟩
  · exact ⟨⟨hf.params, hf.host, hf.turns⟩, by simp [hf.status], by simp [hf.status], hf.reserved⟩
  · exact ⟨⟨hf.params, hf.host, hf.turns⟩, by simp [hf.status], by simp [hf.status], hf.reserved⟩

/-- Nothing of slot `j` has changed. -/
structure SameSlot (j : Slot) (s t : State) : Prop where
  code : t.codes.get j = s.codes.get j
  bytes : t.bytes.get j = s.bytes.get j
  flags : getSlotFlags j t.qflags = getSlotFlags j s.qflags

section

variable {s : State} {l : Layout} {m : Mode}

theorem quantizeSlot_coefs (i : Slot) (c : Binary64) : (quantizeSlot i l m c s).coefs = s.coefs := by
  rcases check_passes_or_fails m (quantCause c) with hok | ⟨rfl, e, he⟩
  · rw [quantizeSlot_ok hok]
    rfl
  · rw [quantizeSlot_strict_error he]
    rfl

theorem sameSlot_quantizeSlot {i j : Slot} (h : j ≠ i) (c : Binary64) : SameSlot j s (quantizeSlot i l m c s) := by
  have hflags := getSlotFlags_setSlotFlags_other h (quantFlags c) s.qflags
  rcases check_passes_or_fails m (quantCause c) with hok | ⟨rfl, e, he⟩
  · rw [quantizeSlot_ok hok]
    exact ⟨get_set_other _ _ h, get_set_other _ _ h, hflags⟩
  · rw [quantizeSlot_strict_error he]
    exact ⟨rfl, rfl, hflags⟩

theorem quantizeSet_coefs (c : PerSlot Binary64) : (quantizeSet l m c id s).coefs = s.coefs := by
  rcases check_passes_or_fails m (firstFailing c) with hok | ⟨rfl, ⟨i, e⟩, he⟩
  · rw [quantizeSet_ok hok]
    rfl
  · rw [quantizeSet_strict_error he]
    rfl

theorem ifParamsValid_completeOk_results (p : Params) (c : PerSlot Binary64) :
    results (ifParamsValid m p s (completeOk (s.withCoefs c))) = results s := by
  rcases check_passes_or_fails m (firstInvalidParam p) with hok | ⟨rfl, bad, hbad⟩
  · rw [ifParamsValid_ok hok]
    rfl
  · rw [ifParamsValid_strict_error hbad]
    rfl

variable {t : State} {p : Snapshot} (hp : s.pend = some p)
include hp

theorem exec_nop_frame (h : exec .nop s = .next t) : t.qflags = s.qflags ∧ SameData s t := by
  rw [exec_nop hp] at h
  cases h
  exact ⟨rfl, rfl, rfl, rfl⟩

theorem exec_quant1_frame {slot : BitVec 3} (h : exec (.quant1 slot l m) s = .next t) :
    t.coefs = s.coefs ∧ ∀ j, slotNum j ≠ slot.toNat → SameSlot j s t := by
  cases hslot : slotOfField? slot with
  | none =>
    rw [exec_quant1_illegal hp (slotOfField?_eq_none.mp hslot)] at h
    cases h
    exact ⟨rfl, fun _ _ => ⟨rfl, rfl, rfl⟩⟩
  | some i =>
    have hnum := slotOfField?_eq_some.mp hslot
    rw [exec_quant1 hp hnum] at h
    cases h
    refine ⟨quantizeSlot_coefs i _, fun j hj => sameSlot_quantizeSlot ?_ _⟩
    rintro rfl
    exact hj hnum.symm

theorem exec_qset_frame (h : exec (.qset l m) s = .next t) : t.coefs = s.coefs := by
  rw [exec_qset hp] at h
  cases h
  exact quantizeSet_coefs _

theorem exec_derive_frame (h : exec (.derive m) s = .next t) : results t = results s := by
  rw [exec_derive hp] at h
  cases h
  exact ifParamsValid_completeOk_results _ _

end

/-- Settles O31: the frame every command has, and that of each command. -/
theorem commandsChangeOnlyTheirRegisters : Obligations.CommandsChangeOnlyTheirRegisters := by
  intro i s t h
  obtain ⟨p, hp⟩ := exec_pend h
  obtain ⟨hsurr, hwerr, hres, hqres⟩ := exec_frame h
  refine ⟨hsurr, hwerr, hres, hqres, ?_⟩
  cases i with
  | nop => exact exec_nop_frame hp h
  | quant1 slot l m =>
    obtain ⟨hcoefs, hother⟩ := exec_quant1_frame hp h
    exact ⟨hcoefs, fun j hj => ⟨(hother j hj).code, (hother j hj).bytes, (hother j hj).flags⟩⟩
  | qset l m => exact exec_qset_frame hp h
  | derive m => simpa only [results, Prod.mk.injEq] using exec_derive_frame hp h
  | dpack l m => trivial

end Sys2Proof.Laws
end

section
/-! The assembler reads back the line it writes for a word (30_encoding.md R81). -/

namespace Sys2Proof.Laws

open Sys2Proof.Machine

/-! Suffixes and slots. -/

@[simp] theorem dropPrefix?_append (p t : List Char) : dropPrefix? p (p ++ t) = some t := by
  induction p with
  | nil => simp [dropPrefix?]
  | cons c p ih => simp [dropPrefix?, ih]

@[simp] theorem parseLayout_append (l : Layout) (t : List Char) : parseLayout (layoutSuffix l ++ t) = (l, t) := by
  cases l with
  | direct => simp only [parseLayout, dropPrefix?_append]
  | nibble => rfl

@[simp] theorem parseMode_append (m : Mode) (t : List Char) : parseMode (modeSuffix m ++ t) = (m, t) := by
  cases m with
  | reference => simp only [parseMode, dropPrefix?_append]
  | strict => rfl

@[simp] theorem parseMode_modeSuffix (m : Mode) : parseMode (modeSuffix m) = (m, []) := by
  simpa using parseMode_append m []

@[simp] theorem parseSlot_slotName (i : Slot) : parseSlot (slotName i) = some i := by
  cases i <;> decide

/-! A mnemonic and its operands. -/

theorem parseOperands_quant1 (l : Layout) (m : Mode) (i : Slot) :
    parseOperands "QUANT1".toList (layoutSuffix l ++ (modeSuffix m ++ ' ' :: slotName i)) =
      some (.quant1 (slotIndex i) l m) := by
  simp [parseOperands]

theorem parseOperands_qset (l : Layout) (m : Mode) :
    parseOperands "QSET".toList (layoutSuffix l ++ modeSuffix m) = some (.qset l m) := by
  simp [parseOperands]

theorem parseOperands_derive (m : Mode) : parseOperands "DERIVE".toList (modeSuffix m) = some (.derive m) := by
  simp [parseOperands]

theorem parseOperands_dpack (l : Layout) (m : Mode) :
    parseOperands "DPACK".toList (layoutSuffix l ++ modeSuffix m) = some (.dpack l m) := by
  simp [parseOperands]

/-- The mnemonics in the order the assembler tries them: a line of one of them is read by it when those before it do
not begin the line. -/
theorem assemble_of_mnemonic {before after : List (List Char)} {mnemonic t : List Char} {i : Instr}
    (hlist : ["NOP".toList, "QUANT1".toList, "QSET".toList, "DERIVE".toList, "DPACK".toList] =
      before ++ mnemonic :: after)
    (hskip : before.all (fun x => (dropPrefix? x (mnemonic ++ t)).isNone) = true)
    (h : parseOperands mnemonic t = some i) : assemble (mnemonic ++ t) = some i := by
  refine List.findSome?_eq_some_iff.mpr ⟨before, mnemonic, after, hlist, ?_, fun x hx => ?_⟩
  · rw [dropPrefix?_append, Option.bind_some, h]
  · rw [Option.isNone_iff_eq_none.mp (List.all_eq_true.mp hskip x hx), Option.bind_none]

theorem asmText_quant1 {slot : BitVec 3} {i : Slot} (h : slotOfField? slot = some i) (l : Layout) (m : Mode) :
    asmText (.quant1 slot l m) = "QUANT1".toList ++ (layoutSuffix l ++ (modeSuffix m ++ ' ' :: slotName i)) := by
  unfold asmText
  simp only [h, List.append_assoc]

theorem asmText_qset (l : Layout) (m : Mode) :
    asmText (.qset l m) = "QSET".toList ++ (layoutSuffix l ++ modeSuffix m) := List.append_assoc _ _ _

theorem asmText_derive (m : Mode) : asmText (.derive m) = "DERIVE".toList ++ modeSuffix m := rfl

theorem asmText_dpack (l : Layout) (m : Mode) :
    asmText (.dpack l m) = "DPACK".toList ++ (layoutSuffix l ++ modeSuffix m) := List.append_assoc _ _ _

theorem exists_slot_of_wellFormed {slot : BitVec 3} {l : Layout} {m : Mode} (h : Instr.WellFormed (.quant1 slot l m)) :
    ∃ i, slotOfField? slot = some i := by
  have hle : slot.toNat ≤ 4 := of_decide_eq_true h
  refine Option.ne_none_iff_exists'.mp fun hnone => ?_
  have hge := slotOfField?_eq_none.mp hnone
  omega

theorem assemble_asmText {i : Instr} (h : i.WellFormed) : assemble (asmText i) = some i := by
  cases i with
  | nop => decide
  | quant1 slot l m =>
    obtain ⟨j, hslot⟩ := exists_slot_of_wellFormed h
    rw [asmText_quant1 hslot, ← slotIndex_of_field (slotOfField?_eq_some.mp hslot)]
    exact assemble_of_mnemonic (before := ["NOP".toList]) rfl rfl (parseOperands_quant1 l m j)
  | qset l m =>
    rw [asmText_qset]
    exact assemble_of_mnemonic (before := ["NOP".toList, "QUANT1".toList]) rfl rfl (parseOperands_qset l m)
  | derive m =>
    rw [asmText_derive]
    exact assemble_of_mnemonic (before := ["NOP".toList, "QUANT1".toList, "QSET".toList]) rfl rfl
      (parseOperands_derive m)
  | dpack l m =>
    rw [asmText_dpack]
    exact assemble_of_mnemonic (before := ["NOP".toList, "QUANT1".toList, "QSET".toList, "DERIVE".toList]) rfl rfl
      (parseOperands_dpack l m)

/-! Words written as numbers. -/

/-- No mnemonic begins with a dot. -/
theorem assemble_dot (t : List Char) : assemble ('.' :: t) = none := rfl

theorem assemble_dotWord (t : List Char) : assemble (".word 0x".toList ++ t) = none :=
  assemble_dot ("word 0x".toList ++ t)

theorem hexValue?_hexDigit : ∀ n < 16, hexValue? (hexDigit n) = some n := by decide

theorem toNat_eq_nibbles (b : Byte) : b.toNat = 16 * (b.extractLsb' 4 4).toNat + (b.extractLsb' 0 4).toNat := by
  simp only [BitVec.extractLsb'_toNat, Nat.shiftRight_eq_div_pow]
  omega

/-- Two digits are read as the byte they write. -/
theorem parseHex_hex2 (n acc : Nat) (b : Byte) (t : List Char) :
    parseHex (n + 2) acc (hex2 b ++ t) = parseHex n (256 * acc + b.toNat) t := by
  have hdigit (x : BitVec 4) : hexValue? (hexDigit x.toNat) = some x.toNat := hexValue?_hexDigit _ x.isLt
  have hsum : 16 * (16 * acc + (b.extractLsb' 4 4).toNat) + (b.extractLsb' 0 4).toNat = 256 * acc + b.toNat := by
    rw [toNat_eq_nibbles b]
    omega
  simp only [hex2, List.cons_append, List.nil_append, parseHex, hdigit, Option.bind_some, hsum]

theorem parseHex_four_bytes (a b c d : Byte) : parseHex 8 0 (hex2 a ++ (hex2 b ++ (hex2 c ++ hex2 d))) =
    some (256 * (256 * (256 * a.toNat + b.toNat) + c.toNat) + d.toNat) := by
  rw [← List.append_nil (hex2 d), parseHex_hex2 6, parseHex_hex2 4, parseHex_hex2 2, parseHex_hex2 0, Nat.mul_zero,
    Nat.zero_add]
  rfl

theorem toNat_eq_bytes (w : CmdWord) : 256 * (256 * (256 * (w.extractLsb' 24 8).toNat + (w.extractLsb' 16 8).toNat) +
    (w.extractLsb' 8 8).toNat) + (w.extractLsb' 0 8).toNat = w.toNat := by
  simp only [BitVec.extractLsb'_toNat, Nat.shiftRight_eq_div_pow]
  omega

theorem assembleWord_of_command {t : List Char} {i : Instr} (h : assemble t = some i) :
    assembleWord t = some (encode i) := by
  simp only [assembleWord, h]

theorem assembleWord_of_no_command {t : List Char} (h : assemble t = none) :
    assembleWord t = ((dropPrefix? ".word 0x".toList t).bind (parseHex 8 0)).map (BitVec.ofNat 32) := by
  simp only [assembleWord, h]

theorem wordText_eq_append (w : CmdWord) : wordText w = ".word 0x".toList ++ (hex2 (w.extractLsb' 24 8) ++
    (hex2 (w.extractLsb' 16 8) ++ (hex2 (w.extractLsb' 8 8) ++ hex2 (w.extractLsb' 0 8)))) := by
  unfold wordText
  rw [List.append_assoc, List.append_assoc, List.append_assoc]

theorem assembleWord_wordText (w : CmdWord) : assembleWord (wordText w) = some w := by
  rw [wordText_eq_append, assembleWord_of_no_command (assemble_dotWord _), dropPrefix?_append, Option.bind_some,
    parseHex_four_bytes, toNat_eq_bytes, Option.map_some, BitVec.ofNat_toNat, BitVec.setWidth_eq]

/-- Settles O13: a legal word's line is its command's, an illegal word's its digits. -/
theorem assemblingAWordsLineGivesTheWord : Obligations.AssemblingAWordsLineGivesTheWord := by
  intro w
  cases hd : decode w with
  | command i =>
    obtain ⟨hwf, hw⟩ := encode_of_decode hd
    simp only [wordLine, hd, assembleWord_of_command (assemble_asmText hwf), hw]
  | illegal why => simp only [wordLine, hd, assembleWord_wordText]

end Sys2Proof.Laws
end

section
/-! DERIVE, and what DERIVE and DPACK share: the check of the parameters and the derived set (40_derive.md R100, R103,
R107, R108). -/

namespace Sys2Proof.Laws

open Sys2Proof.Machine Sys2Proof.Safety

/-! The check of the parameters (R107). -/

theorem finitePositive_iff {x : Binary64} : finitePositive x = true ↔ isFinite x = true ∧ 0 < val x := by
  rw [finitePositive, Bool.and_eq_true]
  exact and_congr_right fgt_zero_iff

/-- What R107 asks of a parameter, in terms of its value. -/
def ValidParam (p : Params) (n : ParamName) : Prop := isFinite (p.get n) = true ∧ (n = .gain ∨ 0 < val (p.get n))

section

variable {p : Params}

theorem validParam_gain_iff : ValidParam p .gain ↔ isFinite p.gain = true := by
  simp [ValidParam, Params.get]

theorem validParam_iff_finitePositive {n : ParamName} (hn : n ≠ .gain) :
    ValidParam p n ↔ finitePositive (p.get n) = true := by
  simp [ValidParam, finitePositive_iff, hn]

theorem validParam_freq_iff : ValidParam p .freq ↔ finitePositive p.freq = true :=
  validParam_iff_finitePositive (by decide)

theorem validParam_rate_iff : ValidParam p .rate ↔ finitePositive p.rate = true :=
  validParam_iff_finitePositive (by decide)

theorem validParam_q_iff : ValidParam p .q ↔ finitePositive p.q = true :=
  validParam_iff_finitePositive (by decide)

theorem firstInvalidParam_eq_none (h : ∀ n, ValidParam p n) : firstInvalidParam p = none := by
  simp [firstInvalidParam, validParam_gain_iff.mp (h _), validParam_freq_iff.mp (h _), validParam_rate_iff.mp (h _),
    validParam_q_iff.mp (h _)]

/-- An invalid parameter with none before it in the order of 10_state.md R29 is the first. -/
theorem firstInvalidParam_eq_some {n : ParamName} (hn : ¬ ValidParam p n)
    (hbelow : ∀ k, paramNum k < paramNum n → ValidParam p k) : firstInvalidParam p = some n := by
  unfold firstInvalidParam
  cases n with
  | gain => simp [mt validParam_gain_iff.mpr hn]
  | freq =>
    have hgain := validParam_gain_iff.mp (hbelow .gain (by decide))
    simp [hgain, mt validParam_freq_iff.mpr hn]
  | rate =>
    have hgain := validParam_gain_iff.mp (hbelow .gain (by decide))
    have hfreq := validParam_freq_iff.mp (hbelow .freq (by decide))
    simp [hgain, hfreq, mt validParam_rate_iff.mpr hn]
  | q =>
    have hgain := validParam_gain_iff.mp (hbelow .gain (by decide))
    have hfreq := validParam_freq_iff.mp (hbelow .freq (by decide))
    have hrate := validParam_rate_iff.mp (hbelow .rate (by decide))
    simp [hgain, hfreq, hrate, mt validParam_q_iff.mpr hn]

end

/-! The completion of DERIVE and DPACK. -/

theorem finishedOk_completeOk {s u : State} (h : u.status = s.status) : FinishedOk s (completeOk u) := by
  constructor <;> simp [h]

/-- Quantization has causes of its own. -/
theorem statusCause_quantizeSet_ne (l : Layout) (m : Mode) (c : PerSlot Binary64) (f : State → State) (s : State) :
    statusCause (quantizeSet l m c f s).status ≠ 2#3 := by
  rcases check_passes_or_fails m (firstFailing c) with hok | ⟨rfl, ⟨i, e⟩, he⟩
  · simp [quantizeSet_ok hok]
  · have hcode := quantCause_code (firstFailing_eq_some.mp he).1
    rw [quantizeSet_strict_error he, raiseCmdError_status, statusCause_setReport]
    rcases hcode with h | h | h <;> rw [h] <;> decide

section

variable {s : State} {x : Snapshot} {i : Instr} {m : Mode}

/-- Both commands check the parameters before work that never reports cause 2. -/
theorem exec_eq_ifParamsValid (hx : s.pend = some x) (hi : i = .derive m ∨ ∃ l, i = .dpack l m) :
    ∃ work, exec i s = .next (ifParamsValid m x.params s work) ∧ statusCause work.status ≠ 2#3 := by
  rcases hi with rfl | ⟨l, rfl⟩
  · exact ⟨_, exec_derive hx, by simp⟩
  · exact ⟨_, exec_dpack hx, statusCause_quantizeSet_ne _ _ _ _ _⟩

/-- In reference mode both commands store the derived set. -/
theorem exec_reference_stores_derive (hx : s.pend = some x)
    (hi : i = .derive .reference ∨ ∃ l, i = .dpack l .reference) :
    ∃ t, exec i s = .next t ∧ t.coefs = derive Config.mathFns x.params := by
  rcases hi with rfl | ⟨l, rfl⟩
  · exact ⟨_, exec_derive hx, by rw [ifParamsValid_ok (.inl rfl)]; rfl⟩
  · exact ⟨_, exec_dpack hx, by rw [ifParamsValid_ok (.inl rfl), quantizeSet_ok (.inl rfl)]; rfl⟩

end

/-- Settles O27: the check of the parameters passes or fails, and DERIVE completes or reports. -/
theorem deriveWritesTheCoefficients : Obligations.DeriveWritesTheCoefficients := by
  intro s p m hp
  refine ⟨by cases m <;> decide, _, exec_derive hp, ?_⟩
  rcases check_passes_or_fails m (firstInvalidParam p.params) with hok | ⟨rfl, bad, hbad⟩
  · rw [ifParamsValid_ok hok]
    refine ⟨⟨rfl, rfl, rfl⟩, rfl, rfl, rfl, fun bad hm hbad => ?_, fun _ => ⟨?_, rfl⟩⟩
    · simp [hm, hbad] at hok
    · exact finishedOk_completeOk rfl
  · rw [ifParamsValid_strict_error hbad]
    refine ⟨⟨rfl, rfl, rfl⟩, rfl, rfl, rfl, fun bad' _ hbad' => ?_, fun hok => ?_⟩
    · obtain rfl : bad = bad' := Option.some.inj (hbad.symm.trans hbad')
      exact ⟨finishedErr_raiseCmdError .invalidParam (paramIndex bad) s, rfl⟩
    · simp [hbad] at hok

theorem paramIndex_toNat (n : ParamName) : (paramIndex n).toNat = paramNum n := by cases n <;> rfl

/-- Settles O45: the check goes through the parameters in the order of their numbers, and only its failure in strict
mode reports cause 2. -/
theorem firstInvalidParameterIsTheLowestIndexFailing : Obligations.FirstInvalidParameterIsTheLowestIndexFailing := by
  intro p ok hok
  obtain rfl : ok = ValidParam p := funext fun n => propext (hok n)
  refine ⟨firstInvalidParam_eq_none, fun n => firstInvalidParam_eq_some, fun s x i m hx hxp hi => ?_⟩
  subst hxp
  obtain ⟨work, hexec, hwork⟩ := exec_eq_ifParamsValid hx hi
  refine ⟨_, hexec, ?_⟩
  rcases check_passes_or_fails m (firstInvalidParam x.params) with hpass | ⟨rfl, bad, hbad⟩
  · rw [ifParamsValid_ok hpass]
    exact ⟨⟨fun h => absurd h hwork, fun ⟨hm, hne⟩ => by simp [hm, hne] at hpass⟩,
      fun n hm hn => by simp [hm, hn] at hpass⟩
  · rw [ifParamsValid_strict_error hbad, raiseCmdError_status, statusCause_setReport, statusIndex_setReport]
    refine ⟨⟨fun _ => ⟨rfl, by simp [hbad]⟩, fun _ => rfl⟩, fun n _ hn => ?_⟩
    rw [Option.some.inj (hn.symm.trans hbad), paramIndex_toNat]

/-- Settles O46: b1 and a1 are one quotient, stored in two slots. -/
theorem derivedB1AndA1AreBitIdentical : Obligations.DerivedB1AndA1AreBitIdentical := by
  refine ⟨fun f p => rfl, fun s p hp => ?_⟩
  obtain ⟨t, ht, hcoefs⟩ := exec_reference_stores_derive hp (.inl rfl)
  exact ⟨t, ht, by rw [hcoefs]; rfl⟩

/-- Settles O57: the snapshot holds what the bus read at acceptance, and the completion stores its derivation. -/
theorem deriveComputesTheFormulaAsParenthesized : Obligations.DeriveComputesTheFormulaAsParenthesized := by
  refine ⟨fun f p a omega alpha a0 ha homega halpha ha0 => ?formula, fun s w i c hi hc => ?bus⟩
  case formula =>
    subst ha homega halpha ha0
    exact ⟨rfl, rfl, rfl, rfl, rfl⟩
  case bus =>
    obtain ⟨t, ht, hcoefs⟩ := exec_reference_stores_derive (accept_pend w s) hi
    obtain rfl : t.coefs = c := hcoefs.trans hc.symm
    exact ⟨t, ht, busRead_index (.coef .b0) t, busRead_index (.coef .b1) t, busRead_index (.coef .b2) t,
      busRead_index (.coef .a1) t, busRead_index (.coef .a2) t⟩

end Sys2Proof.Laws
end

section
/-! The derivation where an operand is a zero, an infinity or a NaN (40_derive.md R101, R102, R104, R105, R109). -/

namespace Sys2Proof.Laws

open Sys2Proof.Machine

/-! Zeros. -/

theorem eq_zero_of_isZero {x : Binary64} (h : isZero x = true) (hs : fsign x = false) : x = Lit.zero :=
  (eq_of_isZero h).resolve_right fun hx => by rw [hx] at hs; exact absurd hs (by decide)

theorem isNaN_of_isZero {x : Binary64} (h : isZero x = true) : isNaN x = false :=
  isNaN_of_isFinite (isFinite_of_isZero h)

/-! Products. -/

theorem fmul_comm (x y : Binary64) : fmul x y = fmul y x := by
  simp only [fmul, Bool.or_comm, Nat.mul_comm (units x), bne_comm (a := fsign x)]

theorem zero_fmul_of_pos {x : Binary64} (hf : isFinite x = true) (hs : fsign x = false) :
    fmul Lit.zero x = Lit.zero := by
  have hz := zero_fmul (z := Lit.zero) (by decide) hf
  refine eq_zero_of_isZero hz ?_
  rw [fsign_fmul (isNaN_of_isZero hz), hs]
  decide

theorem posInf_fmul_of_pos {x : Binary64} (h : fgt x Lit.zero = true) : fmul Lit.posInf x = Lit.posInf := by
  obtain ⟨hs, hn, hz⟩ := fgt_zero_cases h
  rw [fmul_inf (by decide) hn (.inl (by decide)) (by decide) hz, hs]
  decide

theorem isFinite_inf_fmul {x y : Binary64} (hx : isInf x = true) : isFinite (fmul x y) = false := by
  cases hn : isNaN y with
  | true => rw [fmul_of_isNaN (.inr hn)]; decide
  | false =>
    cases hz : isZero y with
    | true => rw [(fmul_inf_zero hx hz).1]; decide
    | false =>
      rw [fmul_inf (isNaN_of_isInf hx) hn (.inl hx) (isZero_of_isInf hx) hz]
      cases fsign x != fsign y <;> decide

/-- A product of a finite number other than zero and one that is no NaN is no NaN. -/
theorem isNaN_fmul_of_isFinite_right {x y : Binary64} (hx : isNaN x = false) (hy : isFinite y = true)
    (hzy : isZero y = false) : isNaN (fmul x y) = false := by
  cases hi : isInf x with
  | true =>
    rw [fmul_inf hx (isNaN_of_isFinite hy) (.inl hi) (isZero_of_isInf hi) hzy, isNaN_withSign le_rfl]
  | false => rw [fmul_finite (isFinite_of hx hi) hy, isNaN_withSign (roundUnits_le _ _)]

theorem units_fneg (x : Binary64) : units (fneg x) = units x := by rw [units_eq, fmag_fneg, ← units_eq]

theorem fneg_withSign {neg : Bool} {m : Nat} (h : m < 2 ^ 63) : fneg (withSign neg m) = withSign (!neg) m :=
  binary64_ext (by simp) (by rw [fmag_fneg, fmag_withSign h, fmag_withSign h])

/-- A sign goes through a product whose other operand is finite and no zero. -/
theorem fneg_fmul {x y : Binary64} (hx : isFinite x = true) (hzx : isZero x = false) (hy : isNaN y = false) :
    fmul (fneg x) y = fneg (fmul x y) := by
  have hsign : (fsign (fneg x) != fsign y) = !(fsign x != fsign y) := by rw [fsign_fneg, Bool.not_bne]
  cases hi : isInf y with
  | true =>
    have hn : isNaN (fneg x) = false := by rw [isNaN_fneg, isNaN_of_isFinite hx]
    have hz : isZero (fneg x) = false := by rw [isZero, fmag_fneg]; exact hzx
    rw [fmul_inf hn hy (.inr hi) hz (isZero_of_isInf hi),
      fmul_inf (isNaN_of_isFinite hx) hy (.inr hi) hzx (isZero_of_isInf hi), fneg_withSign infMag_lt, hsign]
  | false =>
    rw [fmul_finite (by rwa [isFinite_fneg]) (isFinite_of hy hi), fmul_finite hx (isFinite_of hy hi), units_fneg,
      fneg_withSign (roundUnits_lt _ _), hsign]

theorem negTwo_fmul {x : Binary64} (hx : isNaN x = false) : fmul Lit.negTwo x = fneg (fmul Lit.two x) :=
  fneg_fmul (x := Lit.two) (by decide) (by decide) hx

/-- A ratio of at least one unit is not rounded to zero. -/
theorem roundUnits_pos {num den : Nat} (hd : 0 < den) (h : den ≤ num) : 0 < roundUnits num den := by
  by_contra hpos
  have hzero : roundUnits num den = 0 := by omega
  have hnear := (roundUnits_nearest hd (by rw [hzero]; decide) 1).1
  rw [hzero, unitsOfMag_zero, show unitsOfMag 1 = 1 by decide, Nat.cast_zero, Nat.cast_one, zero_mul, one_mul] at hnear
  have hle : (den : Int) ≤ num := by exact_mod_cast h
  have hd' : (0 : Int) < den := by exact_mod_cast hd
  rw [abs_of_nonpos (by linarith), abs_of_nonpos (by linarith)] at hnear
  linarith

/-- Multiplying by a number of at least 1.0 does not underflow. -/
theorem isZero_fmul_of_one_le {x y : Binary64} (hx : isFinite x = true) (hone : units Lit.one ≤ units x)
    (hy : isNaN y = false) (hz : isZero y = false) : isZero (fmul x y) = false := by
  rw [← Bool.not_eq_true, isZero_iff]
  cases hi : isInf y with
  | true =>
    have hzx : isZero x = false := by
      have hpos : 0 < units x := lt_of_lt_of_le (units_pos (by decide)) hone
      rw [← Bool.not_eq_true, isZero_iff]
      intro hm
      rw [units_eq, hm, unitsOfMag_zero] at hpos
      exact lt_irrefl 0 hpos
    rw [fmul_inf (isNaN_of_isFinite hx) hy (.inr hi) hzx hz, fmag_withSign infMag_lt]
    decide
  | false =>
    have hle : units Lit.one ≤ units x * units y := le_trans hone (Nat.le_mul_of_pos_right _ (units_pos hz))
    rw [fmul_finite hx (isFinite_of hy hi), fmag_withSign (roundUnits_lt _ _), ← units_one]
    exact (roundUnits_pos (units_pos (by decide)) hle).ne'

/-! Quotients and sums. -/

theorem zero_fdiv_of_pos {x : Binary64} (h : fgt x Lit.zero = true) : fdiv Lit.zero x = Lit.zero := by
  obtain ⟨hs, hn, hz⟩ := fgt_zero_cases h
  have hq := zero_fdiv (z := Lit.zero) (by decide) hn hz
  refine eq_zero_of_isZero hq ?_
  rw [fsign_fdiv (isNaN_of_isZero hq), hs]
  decide

theorem fdiv_zero_of_pos {x : Binary64} (h : fgt x Lit.zero = true) : fdiv x Lit.zero = Lit.posInf := by
  obtain ⟨hs, hn, hz⟩ := fgt_zero_cases h
  rw [fdiv_zero_right hn hz (by decide), hs]
  decide

theorem fdiv_posInf_of_not_isFinite {x : Binary64} (h : isFinite x = false) :
    fdiv x Lit.posInf = Config.canonicalNaN := by
  rcases not_isFinite h with hn | ⟨hi, -⟩
  · exact fdiv_of_isNaN (.inl hn)
  · exact fdiv_inf_inf hi (by decide)

theorem one_fadd_of_isZero {x : Binary64} (h : isZero x = true) : fadd Lit.one x = Lit.one := by
  rcases eq_of_isZero h with rfl | rfl <;> decide +kernel

theorem one_fsub_of_isZero {x : Binary64} (h : isZero x = true) : fsub Lit.one x = Lit.one := by
  rcases eq_of_isZero h with rfl | rfl <;> decide +kernel

theorem isFinite_one_fadd {x : Binary64} (h : isFinite x = false) : isFinite (fadd Lit.one x) = false := by
  rcases not_isFinite h with hn | ⟨hi, -⟩
  · rw [fadd_of_isNaN (.inr hn)]
    decide
  · rw [fadd_inf_right (by decide) hi, h]

theorem isFinite_one_fsub {x : Binary64} (h : isFinite x = false) : isFinite (fsub Lit.one x) = false := by
  rcases not_isFinite h with hn | ⟨-, hn⟩
  · rw [fsub_of_isNaN (.inr hn)]
    decide
  · rw [fsub_eq_fadd_fneg hn, isFinite_one_fadd (by rwa [isFinite_fneg])]

/-! The derivation is a function of A, alpha and Cos(omega). -/

/-- The coefficients of 40_derive.md R100, from the A and the alpha and with `c` for Cos(omega). -/
def coefsOf (a alpha c : Binary64) : PerSlot Binary64 where
  b0 := fdiv (fadd Lit.one (fmul alpha a)) (fadd Lit.one (fdiv alpha a))
  b1 := fdiv (fmul Lit.negTwo c) (fadd Lit.one (fdiv alpha a))
  b2 := fdiv (fsub Lit.one (fmul alpha a)) (fadd Lit.one (fdiv alpha a))
  a1 := fdiv (fmul Lit.negTwo c) (fadd Lit.one (fdiv alpha a))
  a2 := fdiv (fsub Lit.one (fdiv alpha a)) (fadd Lit.one (fdiv alpha a))

theorem derive_eq_coefsOf (f : MathFns) (p : Params) :
    derive f p = coefsOf (deriveA f p) (deriveAlpha f p) (f.cos (deriveOmega p)) := rfl

theorem coefsOf_of_isNaN_alpha {alpha : Binary64} (h : isNaN alpha = true) (a c : Binary64) :
    coefsOf a alpha c = .all Config.canonicalNaN := by
  have ha0 : fadd Lit.one (fdiv alpha a) = Config.canonicalNaN := by
    rw [fdiv_of_isNaN (.inl h), fadd_of_isNaN (.inr isNaN_canonicalNaN)]
  simp only [coefsOf, ha0, fdiv_of_isNaN (.inr isNaN_canonicalNaN)]

theorem coefsOf_of_isZero_alpha {a alpha : Binary64} (h : isZero alpha = true) (ha : isFinite a = true)
    (hza : isZero a = false) (c : Binary64) :
    coefsOf a alpha c = ⟨Lit.one, fmul Lit.negTwo c, Lit.one, fmul Lit.negTwo c, Lit.one⟩ := by
  have hquot : isZero (fdiv alpha a) = true := zero_fdiv h (isNaN_of_isFinite ha) hza
  have hprod : isZero (fmul alpha a) = true := zero_fmul h ha
  simp only [coefsOf, one_fadd_of_isZero hquot, one_fadd_of_isZero hprod, one_fsub_of_isZero hquot,
    one_fsub_of_isZero hprod, fdiv_one fmul_canonical, fdiv_self (x := Lit.one) (by decide) (by decide)]

/-- With A infinite alpha / A vanishes, and 0 * A is a NaN. -/
theorem coefsOf_of_posInf_a (c : Binary64) : coefsOf Lit.posInf Lit.zero c =
    ⟨Config.canonicalNaN, fmul Lit.negTwo c, Config.canonicalNaN, fmul Lit.negTwo c, Lit.one⟩ := by
  have hquot : fdiv Lit.zero Lit.posInf = Lit.zero := by decide
  have hprod : fmul Lit.zero Lit.posInf = Config.canonicalNaN := by decide
  have ha0 : fadd Lit.one Lit.zero = Lit.one := one_fadd_of_isZero (by decide)
  have ha2 : fsub Lit.one Lit.zero = Lit.one := one_fsub_of_isZero (by decide)
  simp only [coefsOf, hquot, hprod, ha0, ha2, fadd_of_isNaN (.inr isNaN_canonicalNaN),
    fsub_of_isNaN (.inr isNaN_canonicalNaN), fdiv_of_isNaN (.inl isNaN_canonicalNaN), fdiv_one fmul_canonical,
    fdiv_self (x := Lit.one) (by decide) (by decide)]

/-- With alpha infinite a0 is, which leaves nothing of b1 and a1 but the sign, and makes the others inf / inf. -/
theorem coefsOf_of_posInf_alpha {a c : Binary64} (ha : isFinite a = true) (hs : fsign a = false)
    (hc : fgt c Lit.zero = true) (hc2 : isFinite (fmul Lit.two c) = true) : coefsOf a Lit.posInf c =
      ⟨Config.canonicalNaN, Lit.negZero, Config.canonicalNaN, Lit.negZero, Config.canonicalNaN⟩ := by
  obtain ⟨hsc, hnc, -⟩ := fgt_zero_cases hc
  have hquot : fdiv Lit.posInf a = Lit.posInf := by
    rw [fdiv_inf_left (by decide) ha, hs]
    decide
  have ha0 : fadd Lit.one Lit.posInf = Lit.posInf := by decide
  have hprod : isFinite (fmul Lit.posInf a) = false := isFinite_inf_fmul (by decide)
  have hfin : isFinite (fmul Lit.negTwo c) = true := by rw [negTwo_fmul hnc, isFinite_fneg, hc2]
  have hb1 : fdiv (fmul Lit.negTwo c) Lit.posInf = Lit.negZero := by
    rw [fdiv_inf_right hfin (by decide), fsign_fmul (isNaN_of_isFinite hfin), hsc]
    decide
  simp only [coefsOf, hquot, ha0, hb1, fdiv_posInf_of_not_isFinite (isFinite_one_fadd hprod),
    fdiv_posInf_of_not_isFinite (isFinite_one_fsub hprod),
    fdiv_posInf_of_not_isFinite (isFinite_one_fsub (x := Lit.posInf) (by decide))]

/-! Doubling (R101, R102). -/

/-- Settles O50: the double is computed, and -2.0 is 2.0 with the other sign. -/
theorem doublingIsExactAndSymmetricInSign : Obligations.DoublingIsExactAndSymmetricInSign := by
  have htwoPi : fmul Lit.two Config.pi64 = 0x401921FB54442D18#64 := by decide +kernel
  have hunits : units 0x401921FB54442D18#64 = 2 * units Config.pi64 := by decide +kernel
  refine ⟨htwoPi, ?_, fun x => negTwo_fmul⟩
  rw [htwoPi, val, val, signedUnits, signedUnits, if_neg (by decide), if_neg (by decide), hunits,
    Nat.cast_mul, Nat.cast_ofNat, Int.cast_mul, Int.cast_ofNat, mul_div_assoc]

/-! No gain (R104). -/

/-- Settles O47: A is 1.0, by which neither a quotient nor a product of alpha changes. -/
theorem noGainGivesUnitB0AndEqualB2A2 : Obligations.NoGainGivesUnitB0AndEqualB2A2 := by
  intro f p hgain hpow hpow'
  have hA : deriveA f p = Lit.one := by
    rcases hgain with h | h
    · rw [deriveA, h, show fdiv Lit.zero Lit.forty = Lit.zero by decide +kernel, hpow]
    · rw [deriveA, h, show fdiv Lit.negZero Lit.forty = Lit.negZero by decide +kernel, hpow']
  have hquot : fdiv (deriveAlpha f p) Lit.one = deriveAlpha f p := fdiv_one fdiv_canonical
  have hprod : fmul (deriveAlpha f p) Lit.one = deriveAlpha f p := fmul_one fdiv_canonical
  rw [derive_eq_coefsOf, coefsOf, hA, hquot, hprod]
  exact ⟨rfl, rfl, rfl, rfl, rfl, rfl, fdiv_self⟩

/-! A zero frequency (R105). -/

section

variable {f : MathFns} {p : Params} (hfreq : p.freq = Lit.zero) (hrate : fgt p.rate Lit.zero = true)
include hfreq hrate

theorem deriveOmega_of_zero_freq : deriveOmega p = Lit.zero := by
  rw [deriveOmega, hfreq, show fmul (fmul Lit.two Config.pi64) Lit.zero = Lit.zero by decide +kernel,
    zero_fdiv_of_pos hrate]

/-- At frequency zero alpha is 0 / ((2A)q). -/
theorem deriveAlpha_of_zero_freq (hsin : f.sin Lit.zero = Lit.zero) :
    deriveAlpha f p = fdiv Lit.zero (fmul (fmul Lit.two (deriveA f p)) p.q) := by
  rw [deriveAlpha, deriveOmega_of_zero_freq hfreq hrate, hsin]

end

/-- Settles O48: alpha is 0 / ((2A)q), a zero. -/
theorem zeroFrequencyGivesThePassThroughSet : Obligations.ZeroFrequencyGivesThePassThroughSet := by
  intro f p hfreq _ hrate hq hA hzA hzprod hzq hsin hcos
  have hdouble : isNaN (fmul Lit.two (deriveA f p)) = false := isNaN_fmul_of_isFinite_right (by decide) hA hzA
  have halpha : isZero (deriveAlpha f p) = true := by
    rw [deriveAlpha_of_zero_freq hfreq hrate hsin]
    exact zero_fdiv (by decide) (isNaN_fmul_of_isFinite_right hdouble hq hzq) hzprod
  rw [derive_eq_coefsOf, deriveOmega_of_zero_freq hfreq hrate, hcos, coefsOf_of_isZero_alpha halpha hA hzA,
    show fmul Lit.negTwo Lit.one = Lit.negTwo from fmul_one (by decide)]

/-- Refutes O49: with A = Q = 2^-600 the product (2A)q underflows, alpha is 0 / 0, and b0 is a NaN (log 14). -/
theorem not_zeroFrequencyRuleAsWordedForEveryAAndQ : ¬ Obligations.ZeroFrequencyRuleAsWordedForEveryAAndQ := by
  intro h
  have hset := h ⟨fun _ _ => 0x1A70000000000000#64, fun _ => Lit.zero, fun _ => Lit.one⟩
    ⟨Lit.zero, Lit.zero, Lit.one, 0x1A70000000000000#64⟩
    rfl (by decide) (by decide) (by decide) (by decide) (by decide) (by decide) rfl rfl
  rw [derive_eq_coefsOf, coefsOf_of_isNaN_alpha] at hset
  · exact absurd (congrArg PerSlot.b0 hset) (by decide)
  case h => decide +kernel

/-! Degenerate parameters (R109). -/

section

variable {f : MathFns} {p : Params}

/-- A rate of zero makes omega infinite. -/
theorem deriveOmega_of_zero_rate (hrate : p.rate = Lit.zero) (hfreq : fgt p.freq Lit.zero = true) :
    deriveOmega p = Lit.posInf := by
  obtain ⟨hs, hn, hz⟩ := fgt_zero_cases hfreq
  have htwoPi : fmul Lit.two Config.pi64 = 0x401921FB54442D18#64 := by decide +kernel
  have hprodNaN : isNaN (fmul 0x401921FB54442D18#64 p.freq) = false := by
    rw [fmul_comm]
    exact isNaN_fmul_of_isFinite_right hn (by decide) (by decide)
  have hprodZero : isZero (fmul 0x401921FB54442D18#64 p.freq) = false :=
    isZero_fmul_of_one_le (by decide) (by decide +kernel) hn hz
  rw [deriveOmega, htwoPi, hrate, fdiv_zero_right hprodNaN hprodZero (by decide), fsign_fmul hprodNaN, hs]
  decide

/-- An infinite A makes alpha zero. -/
theorem deriveAlpha_of_posInf_a (hA : deriveA f p = Lit.posInf) (hq : fgt p.q Lit.zero = true)
    (hfin : isFinite (f.sin (deriveOmega p)) = true) (hsin : fgt (f.sin (deriveOmega p)) Lit.zero = true) :
    deriveAlpha f p = Lit.zero := by
  rw [deriveAlpha, hA, show fmul Lit.two Lit.posInf = Lit.posInf by decide, posInf_fmul_of_pos hq,
    fdiv_inf_right hfin (by decide), (fgt_zero_cases hsin).1]
  decide

/-- A product (2A)q of zero makes alpha infinite. -/
theorem deriveAlpha_of_zero_product (hprod : fmul (fmul Lit.two (deriveA f p)) p.q = Lit.zero)
    (hsin : fgt (f.sin (deriveOmega p)) Lit.zero = true) : deriveAlpha f p = Lit.posInf := by
  rw [deriveAlpha, hprod, fdiv_zero_of_pos hsin]

end

/-- Settles O51: alpha is a NaN, a zero, or in the last two cases an infinity. -/
theorem degenerateParametersGiveTheListedCoefficients : Obligations.DegenerateParametersGiveTheListedCoefficients := by
  intro f p
  refine ⟨fun hrate hfreq hsin _ => ?zeroRate, fun hA hq hfin hsin => ?infiniteA,
    fun hA hqfin hq hsin _ hcos hcos2 => ?zeroA, fun hq hAfin hA hA2 hsin _ hcos hcos2 => ?zeroQ⟩
  case zeroRate =>
    have halpha : isNaN (deriveAlpha f p) = true := by
      rw [deriveAlpha, deriveOmega_of_zero_rate hrate hfreq, fdiv_of_isNaN (.inl hsin), isNaN_canonicalNaN]
    rw [derive_eq_coefsOf, coefsOf_of_isNaN_alpha halpha]
  case infiniteA =>
    rw [derive_eq_coefsOf, deriveAlpha_of_posInf_a hA hq hfin hsin, hA, coefsOf_of_posInf_a]
  case zeroA =>
    have hprod : fmul (fmul Lit.two (deriveA f p)) p.q = Lit.zero := by
      rw [hA, show fmul Lit.two Lit.zero = Lit.zero by decide +kernel, zero_fmul_of_pos hqfin (fgt_zero_cases hq).1]
    rw [derive_eq_coefsOf, deriveAlpha_of_zero_product hprod hsin, hA,
      coefsOf_of_posInf_alpha (by decide) (by decide) hcos hcos2]
  case zeroQ =>
    have hsA := (fgt_zero_cases hA).1
    have hprod : fmul (fmul Lit.two (deriveA f p)) p.q = Lit.zero := by
      rw [hq, fmul_comm]
      refine zero_fmul_of_pos hA2 ?_
      rw [fsign_fmul (isNaN_of_isFinite hA2), hsA]
      decide
    rw [derive_eq_coefsOf, deriveAlpha_of_zero_product hprod hsin, coefsOf_of_posInf_alpha hAfin hsA hcos hcos2]

end Sys2Proof.Laws
end

section
/-! The two byte layouts of a code and their inverses (41_quantize.md R124 to R126, 43_serialize.md R165, R166). -/

namespace Sys2Proof.Laws

open Sys2Proof.Machine

/-- The direct layout loses nothing: its bytes are the code, most significant first. -/
theorem unpackDirect_layoutDirect (k : Code) : unpackDirect (layoutDirect k) = k := by
  rw [unpackDirect, layoutDirect, BitVec.extractLsb'_append_extractLsb'_eq_extractLsb' (by rfl),
    BitVec.extractLsb'_append_extractLsb'_eq_extractLsb' (by rfl)]
  exact BitVec.extractLsb'_eq_self

/-! Nibbles. -/

theorem highNibble_append (a b : BitVec 4) : BitVec.extractLsb' (n := 8) 4 4 (a ++ b) = a :=
  BitVec.extractLsb'_append_eq_left

theorem lowNibble_append (a b : BitVec 4) : BitVec.extractLsb' (n := 8) 0 4 (a ++ b) = b :=
  BitVec.extractLsb'_append_eq_right

theorem eq_append_nibbles (k : Code) : k = k.extractLsb' 20 4 ++ k.extractLsb' 16 4 ++ k.extractLsb' 12 4 ++
    k.extractLsb' 8 4 ++ k.extractLsb' 4 4 ++ k.extractLsb' 0 4 := by
  iterate 5 rw [BitVec.extractLsb'_append_extractLsb'_eq_extractLsb' (by rfl)]
  exact BitVec.extractLsb'_eq_self.symm

/-- The mask of R126 clears the nibble of bits 19:16 and keeps the others. -/
theorem and_nibbleMask (k : Code) : k &&& 0xF0FFFF#24 = k.extractLsb' 20 4 ++ 0#4 ++ k.extractLsb' 12 4 ++
    k.extractLsb' 8 4 ++ k.extractLsb' 4 4 ++ k.extractLsb' 0 4 := by
  have hmask : 0xF0FFFF#24 = BitVec.allOnes 4 ++ 0#4 ++ BitVec.allOnes 4 ++ BitVec.allOnes 4 ++ BitVec.allOnes 4 ++
      BitVec.allOnes 4 := by decide
  refine (congrArg₂ (· &&& ·) (eq_append_nibbles k) hmask).trans ?_
  iterate 5 rw [BitVec.and_append]
  simp only [BitVec.and_allOnes, BitVec.and_zero]

/-- The nibble layout carries every nibble but that of bits 19:16. -/
theorem unpackNibble_layoutNibble (k : Code) : unpackNibble (layoutNibble k) = k &&& 0xF0FFFF#24 := by
  rw [and_nibbleMask, unpackNibble, layoutNibble]
  iterate 2 rw [highNibble_append]
  iterate 3 rw [lowNibble_append]

/-- A field that the mask keeps whole. -/
theorem extractLsb'_and_of_allOnes {k mask : Code} {lo len : Nat} (h : mask.extractLsb' lo len = BitVec.allOnes len) :
    (k &&& mask).extractLsb' lo len = k.extractLsb' lo len := by
  rw [BitVec.extractLsb'_and, h, BitVec.and_allOnes]

theorem layoutNibble_and_nibbleMask (k : Code) : layoutNibble (k &&& 0xF0FFFF#24) = layoutNibble k := by
  unfold layoutNibble
  iterate 5 rw [extractLsb'_and_of_allOnes rfl]

/-- Settles O42: each byte is a field of the code, or two nibbles of it. -/
theorem layoutsPlaceTheBitsOfTheCode : Obligations.LayoutsPlaceTheBitsOfTheCode := by
  intro k b hb
  refine ⟨?_, ?_, ?_, ?_, ?_, ?_⟩
  case refine_1 | refine_2 | refine_3 => simp [layoutDirect, hb]
  all_goals
    rw [layoutNibble, BitVec.getLsbD_append]
    split
    case isTrue h => simp [h]
    case isFalse h => simp [show b - 4 < 4 by omega]

/-- Settles O44: the reassemblies are inverses up to the mask, so bytes agree exactly when what they carry does. -/
theorem nibbleBytesCarryAllBitsButNineteenToSixteen : Obligations.NibbleBytesCarryAllBitsButNineteenToSixteen := by
  refine ⟨fun k k' => ⟨fun h => ?_, fun h => ?_⟩, fun k => highNibble_append _ _, by decide +kernel,
    by decide +kernel, fun k k' => (Function.LeftInverse.injective unpackDirect_layoutDirect).eq_iff,
    fun k => ⟨unpackDirect_layoutDirect k, unpackNibble_layoutNibble k⟩⟩
  · rw [← unpackNibble_layoutNibble, h, unpackNibble_layoutNibble]
  · rw [← layoutNibble_and_nibbleMask, h, layoutNibble_and_nibbleMask]

end Sys2Proof.Laws
end

section
/-! Quantization of one coefficient in exact arithmetic (41_quantize.md R120 to R123, R127 to R131). -/

namespace Sys2Proof.Laws

open Sys2Proof.Machine

/-! The code from the raw value (R121, R122). -/

theorem quantCode_toNat (c : Binary64) : ((quantCode c).toNat : Int) = quantRaw c % 2 ^ 24 := by
  rw [quantCode, BitVec.toNat_ofInt]
  exact Int.toNat_of_nonneg (Int.emod_nonneg _ (by norm_num))

/-- A magnitude of 0 gives the code 0 on both branches: raw is 0 or 2^24. -/
theorem quantCode_of_quantMagnitude_eq_zero {c : Binary64} (h : quantMagnitude c = 0) : quantCode c = 0#24 := by
  rw [quantCode, quantRaw, h]
  split <;> rfl

/-! Coefficients that are not finite (R123). -/

theorem quantMagnitude_of_not_isFinite {c : Binary64} (h : isFinite c = false) : quantMagnitude c = 0 := by
  simp [quantMagnitude, h]

theorem quantCause_of_not_isFinite {c : Binary64} (h : isFinite c = false) : quantCause c = some .nonfiniteCoef := by
  simp [quantCause, h]

theorem quantFlags_of_isNaN {c : Binary64} (h : isNaN c = true) :
    (quantFlags c).neg = true ∧ (quantFlags c).rng = false ∧ (quantFlags c).ovf = false := by
  simp [quantFlags, outOfSignedRange, fgt, flt, fge, fle, h, isNaN_fabs h]

theorem quantFlags_of_isInf {c : Binary64} (h : isInf c = true) :
    (quantFlags c).ovf = true ∧ (quantFlags c).rng = true := by
  rcases eq_of_isInf h with rfl | rfl <;> decide

/-- Of the numbers that are not finite, +infinity alone takes the positive branch. -/
theorem neg_eq_false_iff_of_not_isFinite {c : Binary64} (h : isFinite c = false) :
    (quantFlags c).neg = false ↔ c = Lit.posInf := by
  constructor
  · intro hneg
    rcases not_isFinite h with hn | ⟨hi, -⟩
    · simp [(quantFlags_of_isNaN hn).1] at hneg
    · refine (eq_of_isInf hi).resolve_right ?_
      rintro rfl
      exact absurd hneg (by decide)
  · rintro rfl
    decide

/-! Finite coefficients. -/

section

variable {c : Binary64} (h : isFinite c = true)
include h

theorem neg_iff : (quantFlags c).neg = true ↔ ¬ 0 < val c := by
  rw [← fgt_zero_iff h, quantFlags, Bool.not_eq_true', Bool.not_eq_true]

theorem ovf_iff : (quantFlags c).ovf = true ↔ 16 ≤ |val c| := fge_fabs_sixteen_iff h

theorem rng_iff : (quantFlags c).rng = true ↔ 8 ≤ val c ∨ val c ≤ -(8 + 1 / 2 ^ 20) := outOfSignedRange_iff h

theorem nf_of_isFinite : (quantFlags c).nf = false := by simp [quantFlags, h]

theorem fle_zero_iff : fle c Lit.zero = true ↔ val c ≤ 0 := by
  rw [fle_iff h (by decide), val_zero]

/-- The magnitude over 2^20 is the absolute value cut off after 20 binary places (R128). -/
theorem quantMagnitude_bounds : (quantMagnitude c : Rat) / 2 ^ 20 ≤ |val c| ∧
    |val c| < ((quantMagnitude c : Rat) + 1) / 2 ^ 20 := by
  have hs : (quantMagnitude c : Rat) = (⌊|val c| * 2 ^ 20⌋ : Rat) := by
    rw [← quantMagnitude_eq_floor h, Int.cast_natCast]
  rw [hs, div_le_iff₀ (by positivity), lt_div_iff₀ (by positivity)]
  exact ⟨Int.floor_le _, Int.lt_floor_add_one _⟩

/-! The flags in terms of the magnitude (R127). -/

theorem ovf_iff_quantMagnitude : (quantFlags c).ovf = true ↔ 2 ^ 24 ≤ quantMagnitude c := by
  rw [ovf_iff h, le_quantMagnitude_iff h]
  norm_num
  constructor <;> intro hv <;> linarith

theorem rng_iff_of_pos (hv : 0 < val c) : (quantFlags c).rng = true ↔ 2 ^ 23 ≤ quantMagnitude c := by
  rw [rng_iff h, le_quantMagnitude_iff h, abs_of_pos hv]
  norm_num
  constructor
  · rintro (h8 | h8) <;> linarith
  · intro h8
    left
    linarith

theorem rng_iff_of_nonpos (hv : val c ≤ 0) : (quantFlags c).rng = true ↔ 2 ^ 23 < quantMagnitude c := by
  rw [rng_iff h, ← Nat.succ_le_iff, le_quantMagnitude_iff h, abs_of_nonpos hv]
  norm_num
  constructor
  · rintro (h8 | h8) <;> linarith
  · intro h8
    right
    linarith

/-! The strict check (R131). -/

theorem quantCause_of_overflow (hv : 16 ≤ |val c|) : quantCause c = some .quantOverflow := by
  simp [quantCause, h, (fge_fabs_sixteen_iff h).mpr hv]

theorem quantCause_of_signedRange (hv : |val c| < 16) (hr : 8 ≤ val c ∨ val c ≤ -(8 + 1 / 2 ^ 20)) :
    quantCause c = some .signedRange := by
  have hovf : ¬ fge (fabs c) Lit.sixteen = true := by rwa [fge_fabs_sixteen_iff h, not_le]
  rw [quantCause, if_neg (by simp [h]), if_neg hovf, if_pos ((outOfSignedRange_iff h).mpr hr)]

theorem quantCause_of_inRange (hlow : -(8 + 1 / 2 ^ 20) < val c) (hhigh : val c < 8) : quantCause c = none := by
  have hovf : ¬ fge (fabs c) Lit.sixteen = true := by
    rw [fge_fabs_sixteen_iff h, not_le, abs_lt]
    norm_num at hlow
    constructor <;> linarith
  have hrng : ¬ outOfSignedRange c = true := by
    rw [outOfSignedRange_iff h]
    exact not_or.mpr ⟨not_le.mpr hhigh, not_le.mpr hlow⟩
  rw [quantCause, if_neg (by simp [h]), if_neg hovf, if_neg hrng]

/-! Magnitudes below one step of 2^-20 (R130). -/

theorem quantMagnitude_of_tiny (hv : |val c| < 1 / 2 ^ 20) : quantMagnitude c = 0 := by
  by_contra hne
  have hone := (le_quantMagnitude_iff h 1).mp (Nat.one_le_iff_ne_zero.mpr hne)
  rw [lt_div_iff₀ (by positivity)] at hv
  exact absurd hone (by simpa using hv)

theorem rng_of_abs_lt_eight (hv : |val c| < 8) : (quantFlags c).rng = false := by
  rw [abs_lt] at hv
  rw [← Bool.not_eq_true, rng_iff h, not_or]
  norm_num
  constructor <;> linarith

/-- Only NEG can be set: overflow would be out of range too. -/
theorem quantFlags_of_tiny (hv : |val c| < 1 / 2 ^ 20) :
    quantFlags c = ⟨!fgt c Lit.zero, false, false, false⟩ := by
  have hrng := rng_of_abs_lt_eight h (hv.trans (by norm_num))
  have hovf : (quantFlags c).ovf = false := by
    rw [← Bool.not_eq_true]
    intro ho
    simp [rng_of_ovf ho] at hrng
  calc quantFlags c = ⟨!fgt c Lit.zero, (quantFlags c).rng, (quantFlags c).ovf, (quantFlags c).nf⟩ := rfl
    _ = _ := by rw [hrng, hovf, nf_of_isFinite h]

end

/-! The value a code denotes (R129). -/

/-- The coefficient truncated toward zero to a whole number of steps of 2^-20. -/
def truncated (c : Binary64) : Rat :=
  if 0 < val c then (⌊|val c| * 2 ^ 20⌋ : Rat) / 2 ^ 20 else -((⌊|val c| * 2 ^ 20⌋ : Rat) / 2 ^ 20)

/-- The code denotes the number that raw is congruent to in the range of 24-bit two's complement. -/
theorem toInt_quantCode {c : Binary64} {r : Int} (hraw : quantRaw c = r ∨ quantRaw c = r + 2 ^ 24)
    (hlow : -2 ^ 23 ≤ r) (hhigh : r < 2 ^ 23) : (quantCode c).toInt = r := by
  have hmod : (quantRaw c).bmod (2 ^ 24) = r.bmod (2 ^ 24) := by
    rcases hraw with hraw | hraw
    · rw [hraw]
    · rw [hraw]
      exact Int.add_bmod_right _ _
  rw [quantCode, BitVec.toInt_ofInt, hmod, Int.bmod_eq_of_le_mul_two] <;> omega

section

variable {c : Binary64} (h : isFinite c = true)
include h

theorem truncated_of_pos (hv : 0 < val c) : truncated c = (quantMagnitude c : Rat) / 2 ^ 20 := by
  rw [truncated, if_pos hv, ← quantMagnitude_eq_floor h, Int.cast_natCast]

theorem truncated_of_nonpos (hv : val c ≤ 0) : truncated c = -((quantMagnitude c : Rat) / 2 ^ 20) := by
  rw [truncated, if_neg (not_lt.mpr hv), ← quantMagnitude_eq_floor h, Int.cast_natCast]

theorem quantRaw_of_pos (hv : 0 < val c) : quantRaw c = quantMagnitude c := by
  rw [quantRaw, if_pos ((fgt_zero_iff h).mpr hv)]

theorem quantRaw_of_nonpos (hv : val c ≤ 0) : quantRaw c = 2 ^ 24 - quantMagnitude c := by
  rw [quantRaw, if_neg (mt (fgt_zero_iff h).mp (not_lt.mpr hv))]

theorem truncated_spec : |val c - truncated c| < 1 / 2 ^ 20 ∧ |truncated c| ≤ |val c| := by
  obtain ⟨hlow, hhigh⟩ := quantMagnitude_bounds h
  have hpos : 0 ≤ (quantMagnitude c : Rat) / 2 ^ 20 := by positivity
  rw [add_div] at hhigh
  rcases lt_or_ge 0 (val c) with hv | hv
  · rw [truncated_of_pos h hv, abs_of_nonneg hpos]
    rw [abs_of_pos hv] at *
    exact ⟨abs_lt.mpr ⟨by linarith, by linarith⟩, hlow⟩
  · rw [truncated_of_nonpos h hv, abs_neg, abs_of_nonneg hpos]
    rw [abs_of_nonpos hv] at *
    exact ⟨abs_lt.mpr ⟨by linarith, by linarith⟩, hlow⟩

theorem fixval_quantCode_of_inRange (hr : (quantFlags c).rng = false) : fixval (quantCode c) = truncated c := by
  rw [← Bool.not_eq_true] at hr
  rcases lt_or_ge 0 (val c) with hv | hv
  · rw [rng_iff_of_pos h hv] at hr
    have hraw := quantRaw_of_pos h hv
    rw [fixval, toInt_quantCode (.inl hraw) (by omega) (by omega), truncated_of_pos h hv, Int.cast_natCast]
  · rw [rng_iff_of_nonpos h hv] at hr
    have hraw : quantRaw c = -(quantMagnitude c : Int) + 2 ^ 24 := by
      rw [quantRaw_of_nonpos h hv]
      ring
    rw [fixval, toInt_quantCode (.inr hraw) (by omega) (by omega), truncated_of_nonpos h hv, Int.cast_neg,
      Int.cast_natCast, neg_div]

/-- Out of range the denoted value is 16 away, on the side of the wrong sign. -/
theorem fixval_quantCode_of_outOfRange (hr : (quantFlags c).rng = true) (ho : (quantFlags c).ovf = false) :
    fixval (quantCode c) = if 0 < val c then truncated c - 16 else truncated c + 16 := by
  rw [← Bool.not_eq_true, ovf_iff_quantMagnitude h, not_le] at ho
  rcases lt_or_ge 0 (val c) with hv | hv
  · rw [rng_iff_of_pos h hv] at hr
    have hraw : quantRaw c = ((quantMagnitude c : Int) - 2 ^ 24) + 2 ^ 24 := by
      rw [quantRaw_of_pos h hv]
      ring
    rw [fixval, toInt_quantCode (.inr hraw) (by omega) (by omega), if_pos hv, truncated_of_pos h hv]
    push_cast
    ring
  · rw [rng_iff_of_nonpos h hv] at hr
    have hraw := quantRaw_of_nonpos h hv
    rw [fixval, toInt_quantCode (.inl hraw) (by omega) (by omega), if_neg (not_lt.mpr hv), truncated_of_nonpos h hv]
    push_cast
    ring

/-- Below 16, where nothing overflows, the denoted value is near exactly in range. -/
theorem near_fixval_iff_inRange (hv : |val c| < 16) :
    |val c - fixval (quantCode c)| < 1 / 2 ^ 20 ↔ (quantFlags c).rng = false := by
  obtain ⟨hnear, -⟩ := truncated_spec h
  refine ⟨fun hfix => ?_, fun hr => by rwa [fixval_quantCode_of_inRange h hr]⟩
  by_contra hr
  have ho : (quantFlags c).ovf = false := by rwa [← Bool.not_eq_true, ovf_iff h, not_le]
  rw [fixval_quantCode_of_outOfRange h (by simpa using hr) ho] at hfix
  rw [abs_lt] at hnear hfix
  norm_num at hnear hfix
  split at hfix <;> linarith [hnear.1, hnear.2, hfix.1, hfix.2]

end

/-! The product with 2^20 (R128). -/

theorem abs_val_lt_two_pow_iff (c : Binary64) (k : Nat) : |val c| < 2 ^ k ↔ units c < 2 ^ (k + 1074) := by
  rw [abs_val, div_lt_iff₀ (by positivity), ← pow_add, ← Nat.cast_lt (α := Rat), Nat.cast_pow, Nat.cast_ofNat]

theorem units_fabs (c : Binary64) : units (fabs c) = units c := by rw [units_eq, fmag_fabs, ← units_eq]

theorem val_withSign_false {m : Nat} (hm : m < 2 ^ 63) : val (withSign false m) = (unitsOfMag m : Rat) / 2 ^ 1074 := by
  rw [val, signedUnits_eq, fsign_withSign, fmag_withSign hm, if_neg Bool.false_ne_true, Int.cast_natCast]

theorem significand_lt (c : Binary64) : significand c < 2 ^ 53 := by
  have hf := ffrac_lt c
  unfold significand
  split <;> omega

section

variable {c : Binary64} {den : Nat} (hd : 0 < den)
include hd

/-- Scaling by 2^20 keeps the significand, so that nothing is rounded while the exponent field holds the result. -/
theorem roundUnits_scaled_of_lt (hv : |val c| < 2 ^ 1004) : roundUnits (units c * 2 ^ 20 * den) den < infMag ∧
    unitsOfMag (roundUnits (units c * 2 ^ 20 * den) den) = units c * 2 ^ 20 := by
  rw [abs_val_lt_two_pow_iff] at hv
  refine roundUnits_scaled (k := scale c + 20) (K := 2045) hd (significand_lt c) ?_ ?_ le_rfl
  · rw [units, pow_add, Nat.mul_assoc]
  · calc units c * 2 ^ 20 < 2 ^ (1004 + 1074) * 2 ^ 20 := Nat.mul_lt_mul_of_pos_right hv (Nat.two_pow_pos 20)
      _ = 2 ^ (53 + 2045) := by rw [← pow_add]

theorem roundUnits_scaled_of_ge (hv : 2 ^ 1004 ≤ |val c|) : roundUnits (units c * 2 ^ 20 * den) den = infMag := by
  rw [← not_lt, abs_val_lt_two_pow_iff, not_lt] at hv
  rw [roundUnits_inf_iff _ hd, Nat.mul_comm]
  refine Nat.mul_le_mul_right _ ?_
  calc (2 ^ 54 - 1) * 2 ^ 2044 ≤ 2 ^ 54 * 2 ^ 2044 := Nat.mul_le_mul_right _ (by norm_num)
    _ = 2 ^ (1004 + 1074) * 2 ^ 20 := by rw [← pow_add, ← pow_add]
    _ ≤ units c * 2 ^ 20 := Nat.mul_le_mul_right _ hv

end

section

variable {c : Binary64} (h : isFinite c = true)
include h

theorem fmul_fabs_two_pow_20 : fmul (fabs c) 0x4130000000000000#64 =
    withSign false (roundUnits (units c * 2 ^ 20 * 2 ^ 1074) (2 ^ 1074)) := by
  have hunits : units 0x4130000000000000#64 = 2 ^ 20 * 2 ^ 1074 := by decide +kernel
  rw [fmul_finite (isFinite_fabs h) (by decide), fsign_fabs, units_fabs, hunits, Nat.mul_assoc]
  rfl

theorem fmul_fabs_two_pow_20_exact (hv : |val c| < 2 ^ 1004) :
    isFinite (fmul (fabs c) 0x4130000000000000#64) = true ∧
    val (fmul (fabs c) 0x4130000000000000#64) = |val c| * 2 ^ 20 := by
  obtain ⟨hlt, hunits⟩ := roundUnits_scaled_of_lt (Nat.two_pow_pos 1074) hv
  have hword := hlt.trans infMag_lt
  rw [fmul_fabs_two_pow_20 h]
  refine ⟨?_, ?_⟩
  · rw [isFinite_iff, fmag_withSign hword]
    exact hlt
  · rw [val_withSign_false hword, hunits, abs_val, Nat.cast_mul, Nat.cast_pow, Nat.cast_ofNat, mul_div_right_comm]

theorem fmul_fabs_two_pow_20_infinite (hv : 2 ^ 1004 ≤ |val c|) :
    fmul (fabs c) 0x4130000000000000#64 = Lit.posInf := by
  rw [fmul_fabs_two_pow_20 h, roundUnits_scaled_of_ge (Nat.two_pow_pos 1074) hv]
  decide

end

/-! The statements. -/

/-- Settles O35: for a finite coefficient by the floor and the comparisons of values; a NaN or an infinity has the
magnitude 0. -/
theorem quantizationIsExactFloorAndWrap : Obligations.QuantizationIsExactFloorAndWrap := by
  refine fun c => ⟨fun h => ⟨quantMagnitude_eq_floor h, fgt_zero_iff h, neg_iff h, ovf_iff h, rng_iff h,
    nf_of_isFinite h, fun hs => ?overflow⟩, rfl, quantCode_toNat c, fun h => ?notFinite⟩
  case overflow => exact quantCause_of_overflow h ((ovf_iff h).mp ((ovf_iff_quantMagnitude h).mpr hs))
  case notFinite =>
    have hs := quantMagnitude_of_not_isFinite h
    exact ⟨hs, quantCode_of_quantMagnitude_eq_zero hs, by simp [quantFlags, h], neg_eq_false_iff_of_not_isFinite h⟩

/-- Settles O36: the product keeps its significand below 2^1004 and overflows from there on. -/
theorem theScaledMagnitudeIsTheFloorOfTheExactProduct :
    Obligations.TheScaledMagnitudeIsTheFloorOfTheExactProduct := by
  refine fun c h => ⟨fun hv => ?exact, fun hv => ⟨fmul_fabs_two_pow_20_infinite h hv, (ovf_iff h).mpr ?ovf⟩,
    quantMagnitude_bounds h⟩
  case exact =>
    obtain ⟨hfin, hval⟩ := fmul_fabs_two_pow_20_exact h hv
    exact ⟨hfin, hval, by rw [hval, quantMagnitude_eq_floor h]⟩
  case ovf =>
    calc (16 : Rat) = 2 ^ 4 := by norm_num
      _ ≤ 2 ^ 1004 := pow_le_pow_right₀ (by norm_num) (by norm_num)
      _ ≤ |val c| := hv

/-- Settles O37: RNG by the sign of the value. -/
theorem flagsAreTheirConditionsOnTheScaledMagnitude : Obligations.FlagsAreTheirConditionsOnTheScaledMagnitude := by
  refine fun c => ⟨rfl, rfl, rfl, rfl, ovf_iff_quantMagnitude, fun h => ?_, rng_of_ovf, quantFlags_of_isInf,
    fun hn => ⟨(quantFlags_of_isNaN hn).2.2, (quantFlags_of_isNaN hn).2.1⟩⟩
  rw [fgt_zero_iff h, fle_zero_iff h]
  rcases lt_or_ge 0 (val c) with hv | hv
  · simp [rng_iff_of_pos h hv, hv, not_le.mpr hv]
  · simp [rng_iff_of_nonpos h hv, hv, not_lt.mpr hv]

/-- Settles O38: in range the code denotes the truncated value, out of range that value 16 away. -/
theorem codesDenoteTheTruncatedValueExactlyInRange : Obligations.CodesDenoteTheTruncatedValueExactlyInRange := by
  refine fun c h => ⟨fun hr => ?inRange, fun hr ho => ?outOfRange, fun hv => ?roundTrip⟩
  case inRange =>
    have hfix := fixval_quantCode_of_inRange h hr
    exact ⟨hfix, hfix ▸ truncated_spec h⟩
  case outOfRange =>
    rw [fixval_quantCode_of_outOfRange h hr ho, truncated]
    split
    · rfl
    · ring
  case roundTrip => rw [unpackDirect_layoutDirect, near_fixval_iff_inRange h hv]

/-- Settles O40: below one step of 2^-20 the magnitude is 0, and the flags are those of a number in range. -/
theorem zeroAndTinyCoefficientsDifferInNegOnly : Obligations.ZeroAndTinyCoefficientsDifferInNegOnly := by
  refine ⟨fun c h hc => ?negative, fun c h hpos hv => ?positive⟩
  case negative =>
    obtain ⟨hlow, hv⟩ : -1 / 2 ^ 20 < val c ∧ val c ≤ 0 := by
      rcases hc with rfl | rfl | ⟨hlow, hneg⟩
      · norm_num [val_zero]
      · norm_num [show Lit.negZero = fneg Lit.zero by decide, val_fneg, val_zero]
      · exact ⟨hlow, hneg.le⟩
    have htiny : |val c| < 1 / 2 ^ 20 := by
      rw [abs_of_nonpos hv]
      linarith
    have hs := quantMagnitude_of_tiny h htiny
    have hcode := quantCode_of_quantMagnitude_eq_zero hs
    have hneg : fgt c Lit.zero = false := by rwa [← Bool.not_eq_true, fgt_zero_iff h, not_lt]
    refine ⟨?_, hs, ?_, hcode, fun l => ?_⟩
    · rw [quantFlags_of_tiny h htiny, hneg]
      rfl
    · rw [quantRaw_of_nonpos h hv, hs]
      rfl
    · rw [hcode]
      cases l <;> decide
  case positive =>
    have htiny : |val c| < 1 / 2 ^ 20 := by rwa [abs_of_pos hpos]
    rw [quantFlags_of_tiny h htiny, (fgt_zero_iff h).mpr hpos]
    exact ⟨rfl, quantCode_of_quantMagnitude_eq_zero (quantMagnitude_of_tiny h htiny)⟩

end Sys2Proof.Laws
end

section
/-! QUANT1 and QSET: what they write and report (41_quantize.md R131 to R134). -/

namespace Sys2Proof.Laws

open Sys2Proof.Machine Sys2Proof.Safety

theorem finishedErr_of_status {s u : State} (h : u.status = s.status) (e : Cause) (x : BitVec 3) :
    FinishedErr (causeCode e) x s (raiseCmdError e x u) := by
  constructor <;> simp [h]

/-- A set passes the strict check exactly when each of its slots does. -/
theorem firstFailing_eq_none_iff {c : PerSlot Binary64} :
    firstFailing c = none ↔ ∀ i, quantCause (c.get i) = none := by
  refine ⟨fun h i => ?_, firstFailing_eq_none⟩
  have hmem : i ∈ allSlots := by cases i <;> decide
  simpa using List.findSome?_eq_none_iff.mp h i hmem

section

variable (i : Slot) (l : Layout) (m : Mode) (c : Binary64) (cs : PerSlot Binary64) (s : State)

/-! The flags are written in both modes. -/

theorem quantizeSlot_qflags : (quantizeSlot i l m c s).qflags = setSlotFlags i (quantFlags c) s.qflags := by
  rcases check_passes_or_fails m (quantCause c) with hok | ⟨rfl, e, he⟩
  · rw [quantizeSlot_ok hok]
    rfl
  · rw [quantizeSlot_strict_error he]
    rfl

theorem quantizeSet_qflags : (quantizeSet l m cs id s).qflags = setAllFlags (cs.map quantFlags) s.qflags := by
  rcases check_passes_or_fails m (firstFailing cs) with hok | ⟨rfl, ⟨j, e⟩, he⟩
  · rw [quantizeSet_ok hok]
    rfl
  · rw [quantizeSet_strict_error he]
    rfl

/-! The report. -/

theorem statusErr_quantizeSlot_iff :
    statusErr (quantizeSlot i l m c s).status = false ↔ m = .reference ∨ quantCause c = none := by
  rcases check_passes_or_fails m (quantCause c) with hok | ⟨rfl, e, he⟩
  · simp [quantizeSlot_ok hok, hok]
  · simp [quantizeSlot_strict_error he, he]

theorem statusErr_quantizeSet_iff :
    statusErr (quantizeSet l m cs id s).status = false ↔ m = .reference ∨ firstFailing cs = none := by
  rcases check_passes_or_fails m (firstFailing cs) with hok | ⟨rfl, ⟨j, e⟩, he⟩
  · simp [quantizeSet_ok hok, hok]
  · simp [quantizeSet_strict_error he, he]

theorem statusCause_quantizeSlot_strict :
    statusCause (quantizeSlot i l .strict c s).status = (quantCause c).elim 0#3 causeCode := by
  cases hc : quantCause c with
  | none => simp [quantizeSlot_ok (.inr hc)]
  | some e => simp [quantizeSlot_strict_error hc]

end

/-- A QSET that ends without an error leaves the code and the bytes of each slot's own coefficient. -/
theorem exec_qset_slot {s t : State} {p : Snapshot} {l : Layout} {m : Mode} (hp : s.pend = some p)
    (ht : exec (.qset l m) s = .next t) (herr : statusErr t.status = false) (i : Slot) :
    t.codes.get i = quantCode (p.coefs.get i) ∧ t.bytes.get i = packCode l (quantCode (p.coefs.get i)) := by
  rw [exec_qset hp] at ht
  cases ht
  rw [quantizeSet_ok ((statusErr_quantizeSet_iff l m p.coefs s).mp herr)]
  exact ⟨get_map _ _ i, get_map _ _ i⟩

/-- So does a QUANT1 of that slot. -/
theorem exec_quant1_slot {s t : State} {p : Snapshot} {slot : BitVec 3} {i : Slot} {l : Layout} {m : Mode}
    (hp : s.pend = some p) (hslot : slot.toNat = slotNum i) (ht : exec (.quant1 slot l m) s = .next t)
    (herr : statusErr t.status = false) :
    t.codes.get i = quantCode (p.coefs.get i) ∧ t.bytes.get i = packCode l (quantCode (p.coefs.get i)) := by
  rw [exec_quant1 hp hslot] at ht
  cases ht
  rw [quantizeSlot_ok ((statusErr_quantizeSlot_iff i l m (p.coefs.get i) s).mp herr)]
  exact ⟨get_set_same _ i _, get_set_same _ i _⟩

/-- Settles O24: the strict check of the slot fails and is reported, or passes and the slot is written. -/
theorem quant1QuantizesItsSlot : Obligations.Quant1QuantizesItsSlot := by
  intro s p slot i l m hp hslot
  have hexec := exec_quant1 (l := l) (m := m) hp hslot
  obtain ⟨hsurr, -, -, hqres⟩ := exec_frame hexec
  refine ⟨(quant1_row_iff _).mpr ⟨ReservedZero.reservedField_cmdWord _ _ _ _, opField_cmdWord _ _ _ _⟩, _, hexec,
    hsurr, quantizeSlot_coefs i _, ?flags, fun j hj => (sameSlot_quantizeSlot hj _).flags, hqres,
    fun e hm he => ?error, fun hok => ?ok⟩
  case flags => rw [quantizeSlot_qflags, getSlotFlags_setSlotFlags_same]
  case error =>
    subst hm
    rw [quantizeSlot_strict_error he, slotIndex_of_field hslot]
    exact ⟨finishedErr_of_status (writeFlags_status ..) e slot, rfl, rfl, rfl⟩
  case ok =>
    obtain ⟨hcode, hbytes⟩ := exec_quant1_slot hp hslot hexec ((statusErr_quantizeSlot_iff ..).mpr hok)
    refine ⟨?_, hcode, hbytes.trans (by cases l <;> rfl), fun j hj => ?_⟩
    · rw [quantizeSlot_ok hok]
      exact finishedOk_completeOk rfl
    · exact ⟨(sameSlot_quantizeSlot hj _).code, (sameSlot_quantizeSlot hj _).bytes⟩

/-- Settles O26: the strict check of the set fails at its lowest failing slot, or passes and every slot is written. -/
theorem qsetQuantizesTheWholeSet : Obligations.QsetQuantizesTheWholeSet := by
  intro s p l m hp
  have hexec := exec_qset (l := l) (m := m) hp
  obtain ⟨hsurr, -, -, hqres⟩ := exec_frame hexec
  refine ⟨by cases l <;> cases m <;> decide, _, hexec, hsurr, quantizeSet_coefs _, fun i => ?flags, hqres,
    fun i e hm he hlow => ?error, fun hall => ?ok⟩
  case flags => rw [quantizeSet_qflags, getSlotFlags_setAllFlags, get_map]
  case error =>
    subst hm
    rw [quantizeSet_strict_error (firstFailing_eq_some.mpr ⟨he, hlow⟩)]
    exact ⟨finishedErr_of_status (writeAllFlags_status ..) e (slotIndex i), rfl, rfl, rfl⟩
  case ok =>
    have hok : m = .reference ∨ firstFailing p.coefs = none := hall.imp_right firstFailing_eq_none
    refine ⟨?_, fun i => ?_⟩
    · rw [quantizeSet_ok hok]
      exact finishedOk_completeOk rfl
    · obtain ⟨hcode, hbytes⟩ := exec_qset_slot hp hexec ((statusErr_quantizeSet_iff ..).mpr hok) i
      exact ⟨hcode, hbytes.trans (by cases l <;> rfl)⟩

/-- Settles O34: without an error, a slot holds the code of its own coefficient and the bytes of that code. -/
theorem slotsAreQuantizedIndependently : Obligations.SlotsAreQuantizedIndependently := by
  refine ⟨fun s s' t t' p p' i l m m' hp hp' hc ht ht' herr herr' => ?two, fun s p slot i l m hp hslot => ?quant1⟩
  case two =>
    obtain ⟨hcode, hbytes⟩ := exec_qset_slot hp ht herr i
    obtain ⟨hcode', hbytes'⟩ := exec_qset_slot hp' ht' herr' i
    rw [hcode, hbytes, hcode', hbytes', hc]
    exact ⟨rfl, rfl⟩
  case quant1 =>
    have ht := exec_qset (l := l) (m := m) hp
    have hu := exec_quant1 (l := l) (m := m) hp hslot
    refine ⟨_, _, ht, hu, fun hm => ?_, fun herr => ?_, fun herr herr' => ?_, fun herr => ?_⟩
    · exact ⟨(statusErr_quantizeSet_iff ..).mpr (.inl hm), (statusErr_quantizeSlot_iff ..).mpr (.inl hm)⟩
    · rcases check_passes_or_fails m (firstFailing p.coefs) with hok | ⟨rfl, ⟨j, e⟩, he⟩
      · rw [(statusErr_quantizeSet_iff ..).mpr hok] at herr
        cases herr
      · rw [quantizeSet_strict_error he]
        exact ⟨rfl, rfl, rfl⟩
    · obtain ⟨hcode, hbytes⟩ := exec_qset_slot hp ht herr i
      obtain ⟨hcode', hbytes'⟩ := exec_quant1_slot hp hslot hu herr'
      exact ⟨hcode.trans hcode'.symm, hbytes.trans hbytes'.symm⟩
    · rw [statusErr_quantizeSet_iff, firstFailing_eq_none_iff] at herr
      exact (statusErr_quantizeSlot_iff ..).mpr (herr.imp_right fun hall => hall i)

/-- Settles O41: CAUSE is the code of the check's answer, and the answer is by the case of the value. -/
theorem strictCauseIsTheFirstThatApplies : Obligations.StrictCauseIsTheFirstThatApplies := by
  refine ⟨fun c => ⟨quantCause_of_not_isFinite, quantCause_of_overflow, quantCause_of_signedRange,
    quantCause_of_inRange⟩, ⟨rfl, rfl, rfl, rfl, rfl⟩, fun s p slot i l c hp hslot hc => ?_⟩
  subst hc
  refine ⟨_, exec_quant1 hp hslot, ?_⟩
  rw [statusCause_quantizeSlot_strict]
  exact ⟨fun h => by rw [quantCause_of_not_isFinite h]; rfl, fun h hv => by rw [quantCause_of_overflow h hv]; rfl,
    fun h hv hr => by rw [quantCause_of_signedRange h hv hr]; rfl,
    fun h hlow hhigh => by rw [quantCause_of_inRange h hlow hhigh]; rfl⟩

end Sys2Proof.Laws
end

section
/-! Acceptance of a word, and what the engine's step runs (42_pipeline.md R150, R151, R154, log 2, 3). -/

namespace Sys2Proof.Laws

open Sys2Proof.Machine Sys2Proof.Safety

/-! Acceptance. -/

/-- The report acceptance writes: a command is in progress, and the last one's report is gone. -/
theorem accept_report (w : CmdWord) (s : State) :
    statusBusy (accept w s).status = true ∧ statusDone (accept w s).status = false ∧
    statusErr (accept w s).status = false ∧ statusCause (accept w s).status = 0#3 ∧
    statusIndex (accept w s).status = 0#3 ∧ statusWerr (accept w s).status = statusWerr s.status ∧
    statusReserved (accept w s).status = statusReserved s.status := by
  simp

/-- Settles O7: an idle machine accepts the written word, a busy one only sets WERR. -/
theorem acceptanceTakesTheSnapshotAndClearsTheReport : Obligations.AcceptanceTakesTheSnapshotAndClearsTheReport := by
  intro s d
  rw [busWrite_cmd]
  refine ⟨fun hb => ?idle, fun hb => ?busy⟩
  case idle =>
    rw [unlessBusy_idle hb]
    obtain ⟨hbusy, hdone, herr, hcause, hindex, hwerr, hres⟩ := accept_report (d.extractLsb' 0 32) s
    exact ⟨_, _, rfl, accept_pend _ s, rfl, rfl, rfl, hbusy, hdone, herr, hcause, hindex, hwerr, hres, rfl,
      ⟨rfl, rfl, rfl⟩, ⟨rfl, rfl, rfl⟩⟩
  case busy => rw [unlessBusy_busy hb, withStatus_pend]

/-! The engine's step. -/

section

variable {s : State} {p : Snapshot}

theorem step_of_engineMoves (h : EngineMoves s) : step s = engineTurn (turnTaken s) := by
  rcases h with h | ⟨hs, hb⟩
  · obtain ⟨rest, hs⟩ := List.head?_eq_some_iff.mp h
    simp only [step, hs, turnTaken_of_cons hs]
  · simp only [step, hs, hb, turnTaken_of_nil hs, if_true]

theorem engineTurn_of_pending (hb : s.busy = true) (hp : s.pend = some p) : engineTurn s = runPending p s := by
  simp only [engineTurn, hb, hp, if_true]

theorem step_of_pending (h : EngineMoves s) (hb : s.busy = true) (hp : s.pend = some p) :
    step s = runPending p (turnTaken s) :=
  (step_of_engineMoves h).trans (engineTurn_of_pending hb hp)

theorem runPending_of_command {i : Instr} (hd : decode p.word = .command i) : runPending p s = exec i s := by
  simp only [runPending, hd]

end

/-! A placed word. -/

section

variable (s : State) (w : Nat)

/-- 32 bits of the placed number are the command word. -/
theorem withFetchWord_eq : s.withFetchWord 32 w =
    (accept (BitVec.ofNat 32 w) s).withTurns (if s.turns = [] then [] else .engine :: s.turns) := by
  have hword : BitVec.ofNat 32 (w % 2 ^ 32) = BitVec.ofNat 32 w := by
    apply BitVec.eq_of_toNat_eq
    simp
  rw [State.withFetchWord, hword]

theorem busy_withFetchWord : (s.withFetchWord 32 w).busy = true := by
  rw [withFetchWord_eq, State.busy, withTurns_status, accept_status, statusBusy_setReport]

theorem pend_withFetchWord : (s.withFetchWord 32 w).pend = some ⟨BitVec.ofNat 32 w, s.params, s.coefs⟩ := by
  rw [withFetchWord_eq, withTurns_pend, accept_pend]

theorem turns_withFetchWord :
    (s.withFetchWord 32 w).turns = if s.turns = [] then [] else .engine :: s.turns := by
  rw [withFetchWord_eq, withTurns_turns]

theorem engineMoves_withFetchWord : EngineMoves (s.withFetchWord 32 w) := by
  rw [EngineMoves, turns_withFetchWord, busy_withFetchWord]
  by_cases h : s.turns = [] <;> simp [h]

theorem turnTaken_withFetchWord :
    turnTaken (s.withFetchWord 32 w) = (accept (BitVec.ofNat 32 w) s).withTurns s.turns := by
  have htail : (s.withFetchWord 32 w).turns.tail = s.turns := by
    rw [turns_withFetchWord]
    by_cases h : s.turns = [] <;> simp [h]
  rw [turnTaken, htail, withFetchWord_eq]
  rfl

end

/-- Settles O14: the engine's step runs the pending word, and a placed word is pending with the engine to move. -/
theorem stepRunsTheDecodedCommand : Obligations.StepRunsTheDecodedCommand := by
  refine ⟨fun s p i hm hb hp hd => ?command, fun s p why hm hb hp hd => ?illegal, fun s w i hd => ?placed⟩
  case command => rw [step_of_pending hm hb hp, runPending_of_command hd]
  case illegal => rw [step_of_pending hm hb hp, runPending_of_illegal (s := turnTaken s) hp hd]
  case placed =>
    have hrun := step_of_pending (engineMoves_withFetchWord s w) (busy_withFetchWord s w) (pend_withFetchWord s w)
    rw [hrun, turnTaken_withFetchWord]
    exact runPending_of_command hd

end Sys2Proof.Laws
end

section
/-! NOP and DPACK, and what every command writes or leaves (42_pipeline.md R152, R153, R155, 60_exceptions.md R182). -/

namespace Sys2Proof.Laws

open Sys2Proof.Machine Sys2Proof.Safety

/-- Settles O23: NOP is the completion alone. -/
theorem nopCompletesWithNoEffectOnData : Obligations.NopCompletesWithNoEffectOnData :=
  ⟨decode_eq_nop_iff, fun _ _ hp =>
    ⟨_, exec_nop hp, finishedOk_completeOk rfl, rfl, ⟨rfl, rfl, rfl⟩, ⟨rfl, rfl, rfl⟩⟩⟩

/-! The shared operations, whatever else a command stores. -/

section

variable {l : Layout} {m : Mode} {c : PerSlot Binary64} {store : State → State} {s : State}

theorem quantizeSet_withCoefs_qflags (x : PerSlot Binary64) :
    (quantizeSet l m c (State.withCoefs · x) s).qflags = setAllFlags (c.map quantFlags) s.qflags := by
  rcases check_passes_or_fails m (firstFailing c) with hok | ⟨rfl, ⟨i, e⟩, he⟩
  · rw [quantizeSet_ok hok]
    rfl
  · rw [quantizeSet_strict_error he]
    rfl

/-- A strict run that ends without an error does what reference mode does. -/
theorem quantizeSet_eq_reference (herr : statusErr (quantizeSet l m c store s).status = false) :
    quantizeSet l m c store s = quantizeSet l .reference c store s := by
  rcases check_passes_or_fails m (firstFailing c) with hok | ⟨rfl, ⟨i, e⟩, he⟩
  · rw [quantizeSet_ok hok, quantizeSet_ok (.inl rfl)]
  · simp [quantizeSet_strict_error he] at herr

theorem statusErr_quantizeSet_reference : statusErr (quantizeSet l .reference c store s).status = false := by
  simp [quantizeSet_ok (.inl rfl)]

theorem quantizeSlot_eq_reference {i : Slot} {x : Binary64}
    (herr : statusErr (quantizeSlot i l m x s).status = false) :
    quantizeSlot i l m x s = quantizeSlot i l .reference x s := by
  rw [quantizeSlot_ok ((statusErr_quantizeSlot_iff ..).mp herr), quantizeSlot_ok (.inl rfl)]

theorem ifParamsValid_reference (p : Params) (work : State) : ifParamsValid .reference p s work = work :=
  ifParamsValid_ok (.inl rfl)

theorem ifParamsValid_eq_work {p : Params} {work : State}
    (herr : statusErr (ifParamsValid m p s work).status = false) : ifParamsValid m p s work = work := by
  rcases check_passes_or_fails m (firstInvalidParam p) with hok | ⟨rfl, bad, hbad⟩
  · exact ifParamsValid_ok hok
  · simp [ifParamsValid_strict_error hbad] at herr

end

/-! DPACK. -/

/-- In reference mode DPACK writes the flags, the coefficients and the packed set. -/
theorem exec_dpack_reference {s : State} {p : Snapshot} {l : Layout} (hp : s.pend = some p) :
    exec (.dpack l .reference) s = .next (completeOk (writeAllPacked l (derive Config.mathFns p.params)
      ((writeAllFlags (derive Config.mathFns p.params) s).withCoefs (derive Config.mathFns p.params)))) := by
  rw [exec_dpack hp, ifParamsValid_reference, quantizeSet_ok (.inl rfl)]

/-- Settles O28: the parameters fail their check, or the derived set is quantized as QSET quantizes its own. -/
theorem dpackDerivesAndQuantizesTheSet : Obligations.DpackDerivesAndQuantizesTheSet := by
  intro s p l m c hp hc
  have hexec := exec_dpack (l := l) (m := m) hp
  rw [← hc] at hexec
  obtain ⟨hsurr, -, -, hqres⟩ := exec_frame hexec
  refine ⟨(set_row_iff _ 0b100#3).mpr ((decode_eq_dpack_iff _ l m).mp (decode_encode rfl)).1, _, hexec, hsurr,
    fun bad hm hbad => ?invalid, fun hvalid => ?valid⟩
  case invalid =>
    subst hm
    rw [ifParamsValid_strict_error hbad]
    exact ⟨finishedErr_raiseCmdError .invalidParam (paramIndex bad) s, rfl, rfl, rfl, rfl⟩
  case valid =>
    rw [ifParamsValid_ok hvalid] at hqres ⊢
    refine ⟨fun i => ?flags, hqres, fun i e hm he hlow => ?error, fun hall => ?ok⟩
    case flags => rw [quantizeSet_withCoefs_qflags, getSlotFlags_setAllFlags, get_map]
    case error =>
      subst hm
      rw [quantizeSet_strict_error (firstFailing_eq_some.mpr ⟨he, hlow⟩)]
      exact ⟨finishedErr_of_status (writeAllFlags_status ..) e (slotIndex i), rfl, rfl, rfl⟩
    case ok =>
      rw [quantizeSet_ok (hall.imp_right firstFailing_eq_none)]
      exact ⟨finishedOk_completeOk rfl, rfl, fun i => ⟨get_map _ _ i, (get_map _ _ i).trans (by cases l <;> rfl)⟩⟩

/-- Nothing of a report remains once another is written. -/
@[simp] theorem setReport_setReport (b d e b' d' e' : Bool) (c x c' x' : BitVec 3) (w : Word) :
    setReport b d e c x (setReport b' d' e' c' x' w) = setReport b d e c x w := by
  apply status_ext <;> simp

/-- Settles O33: the acceptance between DERIVE and QSET hands on the derived set, and its report is written over. -/
theorem referenceDpackIsDeriveThenQset : Obligations.ReferenceDpackIsDeriveThenQset := by
  intro s p l hp
  refine ⟨_, _, _, exec_dpack_reference hp, exec_derive hp, exec_qset (accept_pend _ _), ?_⟩
  rw [ifParamsValid_reference, quantizeSet_ok (.inl rfl)]
  apply state_ext
  case h1 => simp
  all_goals rfl

/-! All or nothing. -/

/-- A command that ends in an error has changed the report, PEND and, for a quantization cause, the flags. -/
theorem exec_error_frame {i : Instr} {s t : State} (h : exec i s = .next t) (herr : statusErr t.status = true) :
    t = ((s.withStatus t.status).withPend none).withQflags t.qflags ∧
    (t.qflags ≠ s.qflags → statusCause t.status = 3#3 ∨ statusCause t.status = 4#3 ∨ statusCause t.status = 5#3) := by
  rcases exec_cases h with ⟨u, rfl, -, -⟩ | ⟨u, e, x, rfl, hf, hcoefs, hcodes, hbytes, -, hq⟩
  · simp at herr
  · refine ⟨state_ext rfl rfl hf.params hcoefs hcodes hbytes rfl hf.host hf.turns, fun hne => ?_⟩
    rw [raiseCmdError_status, statusCause_setReport]
    exact hq hne

/-- The same command in reference mode. -/
def inReference : Instr → Instr
  | .nop => .nop
  | .quant1 slot l _ => .quant1 slot l .reference
  | .qset l _ => .qset l .reference
  | .derive _ => .derive .reference
  | .dpack l _ => .dpack l .reference

/-- In reference mode no command ends in an error, and what one leaves without an error is what it leaves there. -/
theorem exec_inReference {i : Instr} {s t : State} {p : Snapshot} (hwf : i.WellFormed) (hp : s.pend = some p)
    (h : exec i s = .next t) :
    ∃ u, exec (inReference i) s = .next u ∧ statusErr u.status = false ∧ (statusErr t.status = false → t = u) := by
  cases i with
  | nop =>
    rw [exec_nop hp] at h
    cases h
    exact ⟨_, exec_nop hp, by simp, fun _ => rfl⟩
  | quant1 slot l m =>
    obtain ⟨j, hj⟩ := exists_slot_of_wellFormed hwf
    have hnum := slotOfField?_eq_some.mp hj
    rw [exec_quant1 hp hnum] at h
    cases h
    exact ⟨_, exec_quant1 hp hnum, (statusErr_quantizeSlot_iff ..).mpr (.inl rfl), quantizeSlot_eq_reference⟩
  | qset l m =>
    rw [exec_qset hp] at h
    cases h
    exact ⟨_, exec_qset hp, statusErr_quantizeSet_reference, quantizeSet_eq_reference⟩
  | derive m =>
    rw [exec_derive hp] at h
    cases h
    refine ⟨_, exec_derive hp, ?_⟩
    rw [ifParamsValid_reference]
    exact ⟨by simp, ifParamsValid_eq_work⟩
  | dpack l m =>
    rw [exec_dpack hp] at h
    cases h
    refine ⟨_, exec_dpack hp, ?_⟩
    rw [ifParamsValid_reference]
    refine ⟨statusErr_quantizeSet_reference, fun herr => ?_⟩
    have hwork := ifParamsValid_eq_work herr
    rw [hwork] at herr ⊢
    exact quantizeSet_eq_reference herr

/-- A DERIVE that ends without an error leaves the derived set. -/
theorem exec_derive_result {s t : State} {p : Snapshot} {m : Mode} (hp : s.pend = some p)
    (h : exec (.derive m) s = .next t) (herr : statusErr t.status = false) :
    t.coefs = derive Config.mathFns p.params := by
  rw [exec_derive hp] at h
  cases h
  rw [ifParamsValid_eq_work herr]
  rfl

/-- So does a DPACK, and with it the code and the bytes of each of its coefficients. -/
theorem exec_dpack_result {s t : State} {p : Snapshot} {l : Layout} {m : Mode} (hp : s.pend = some p)
    (h : exec (.dpack l m) s = .next t) (herr : statusErr t.status = false) :
    t.coefs = derive Config.mathFns p.params ∧ ∀ j, t.codes.get j = quantCode (t.coefs.get j) ∧
      t.bytes.get j = packCode l (quantCode (t.coefs.get j)) := by
  obtain ⟨u, hu, -, htu⟩ := exec_inReference rfl hp h
  obtain rfl := htu herr
  cases (exec_dpack_reference hp).symm.trans hu
  exact ⟨rfl, fun j => ⟨get_map _ _ j, get_map _ _ j⟩⟩

/-- Settles O30: an error leaves all data, and each command's full result is what it leaves without one. -/
theorem commandsAreAllOrNothing : Obligations.CommandsAreAllOrNothing := by
  intro i s t p hwf hp h
  refine ⟨exec_error_frame h, fun herr => ?result, ?reference⟩
  case reference =>
    have href := exec_inReference hwf hp h
    cases i <;> exact href
  case result =>
    cases i with
    | nop => exact exec_nop_frame hp h
    | quant1 slot l m =>
      obtain ⟨j, hj⟩ := exists_slot_of_wellFormed hwf
      have hnum := slotOfField?_eq_some.mp hj
      obtain ⟨hcode, hbytes⟩ := exec_quant1_slot hp hnum h herr
      exact ⟨j, hnum.symm, hcode, hbytes.trans (by cases l <;> rfl)⟩
    | qset l m =>
      intro j
      obtain ⟨hcode, hbytes⟩ := exec_qset_slot hp h herr j
      exact ⟨hcode, hbytes.trans (by cases l <;> rfl)⟩
    | derive m => exact exec_derive_result hp h herr
    | dpack l m =>
      obtain ⟨hcoefs, hslots⟩ := exec_dpack_result hp h herr
      refine ⟨hcoefs, fun j => ?_⟩
      obtain ⟨hcode, hbytes⟩ := hslots j
      exact ⟨hcode, hbytes.trans (by cases l <;> rfl)⟩

end Sys2Proof.Laws
end

section
/-! The inverse layouts, and the values that survive the round trip through the bytes (43_serialize.md R165 to R167). -/

namespace Sys2Proof.Laws

open Sys2Proof.Machine

/-! Bytes and codes put together from their parts. -/

theorem byte_eq_append_nibbles (b : Byte) : b = b.extractLsb' 4 4 ++ b.extractLsb' 0 4 := by
  rw [BitVec.extractLsb'_append_extractLsb'_eq_extractLsb' (by rfl)]
  exact BitVec.extractLsb'_eq_self.symm

/-- A field above the low part is a field of the high part. -/
theorem extractLsb'_append_of_high {v w start len : Nat} {hi : BitVec v} {lo : BitVec w} {field : BitVec len}
    (h : hi.extractLsb' start len = field) : (hi ++ lo).extractLsb' (start + w) len = field := by
  rw [BitVec.extractLsb'_append_eq_of_le (Nat.le_add_left _ _), Nat.add_sub_cancel, h]

theorem layoutDirect_append (a b c : Byte) : layoutDirect (a ++ b ++ c) = ⟨a, b, c⟩ := by
  have ha : BitVec.extractLsb' (n := 24) 16 8 (a ++ b ++ c) = a :=
    extractLsb'_append_of_high BitVec.extractLsb'_append_eq_left
  have hb : BitVec.extractLsb' (n := 24) 8 8 (a ++ b ++ c) = b :=
    extractLsb'_append_of_high BitVec.extractLsb'_append_eq_right
  have hc : BitVec.extractLsb' (n := 24) 0 8 (a ++ b ++ c) = c := BitVec.extractLsb'_append_eq_right
  rw [layoutDirect, ha, hb, hc]

theorem layoutNibble_append (a b c d e f : BitVec 4) :
    layoutNibble (a ++ b ++ c ++ d ++ e ++ f) = ⟨0#4 ++ e, f ++ c, d ++ a⟩ := by
  have ha : BitVec.extractLsb' (n := 24) 20 4 (a ++ b ++ c ++ d ++ e ++ f) = a := by
    iterate 4 refine extractLsb'_append_of_high ?_
    exact BitVec.extractLsb'_append_eq_left
  have hc : BitVec.extractLsb' (n := 24) 12 4 (a ++ b ++ c ++ d ++ e ++ f) = c := by
    iterate 3 refine extractLsb'_append_of_high ?_
    exact BitVec.extractLsb'_append_eq_right
  have hd : BitVec.extractLsb' (n := 24) 8 4 (a ++ b ++ c ++ d ++ e ++ f) = d := by
    iterate 2 refine extractLsb'_append_of_high ?_
    exact BitVec.extractLsb'_append_eq_right
  have he : BitVec.extractLsb' (n := 24) 4 4 (a ++ b ++ c ++ d ++ e ++ f) = e :=
    extractLsb'_append_of_high BitVec.extractLsb'_append_eq_right
  have hf : BitVec.extractLsb' (n := 24) 0 4 (a ++ b ++ c ++ d ++ e ++ f) = f := BitVec.extractLsb'_append_eq_right
  rw [layoutNibble, ha, hc, hd, he, hf]

theorem layoutDirect_unpackDirect (y : Packed) : layoutDirect (unpackDirect y) = y :=
  layoutDirect_append y.byte0 y.byte1 y.byte2

/-- The bytes come back but for the high nibble of the first, which the layout clears. -/
theorem layoutNibble_unpackNibble (y : Packed) :
    layoutNibble (unpackNibble y) = ⟨0#4 ++ y.byte0.extractLsb' 0 4, y.byte1, y.byte2⟩ := by
  rw [unpackNibble, layoutNibble_append, ← byte_eq_append_nibbles, ← byte_eq_append_nibbles]

theorem layoutNibble_unpackNibble_of_highNibble {y : Packed} (h : y.byte0.extractLsb' 4 4 = 0#4) :
    layoutNibble (unpackNibble y) = y := by
  rw [layoutNibble_unpackNibble, ← h, ← byte_eq_append_nibbles]

/-- Settles O43: a code is its three bytes, and in the nibble layout five of its six nibbles. -/
theorem unpackingInvertsTheLayouts : Obligations.UnpackingInvertsTheLayouts := by
  refine ⟨unpackDirect_layoutDirect, layoutDirect_unpackDirect, unpackNibble_layoutNibble,
    ⟨0x080000#24, 0#24, by decide, by decide⟩, fun _ => layoutNibble_unpackNibble_of_highNibble, ?neverProduced,
    fun _ => rfl⟩
  case neverProduced =>
    rintro _ hy k rfl
    exact hy (highNibble_append _ _)

/-! The round trip of a value. -/

theorem and_nibbleMask_eq_self_iff (k : Code) : k &&& 0xF0FFFF#24 = k ↔ k.extractLsb' 16 4 = 0#4 := by
  constructor
  · intro h
    rw [← h, BitVec.extractLsb'_and]
    exact BitVec.and_zero
  · intro h
    rw [and_nibbleMask, ← h, ← eq_append_nibbles]

theorem fixval_injective : Function.Injective fixval := by
  intro k k' h
  rw [fixval, fixval, div_left_inj' (by norm_num)] at h
  exact BitVec.toInt_inj.mp (by exact_mod_cast h)

/-- No code at all denotes the truncated value of a coefficient out of range, overflowing or not. -/
theorem inRange_of_fixval_eq_truncated {c : Binary64} (h : isFinite c = true) {k : Code}
    (hk : fixval k = truncated c) : (quantFlags c).rng = false := by
  have hlow : -2 ^ 23 ≤ k.toInt := BitVec.le_toInt k
  have hhigh : k.toInt < 2 ^ 23 := BitVec.toInt_lt
  rw [← Bool.not_eq_true]
  rcases lt_or_ge 0 (val c) with hv | hv
  · rw [fixval, truncated_of_pos h hv, div_left_inj' (by norm_num)] at hk
    have hint : k.toInt = quantMagnitude c := by exact_mod_cast hk
    rw [rng_iff_of_pos h hv]
    omega
  · rw [fixval, truncated_of_nonpos h hv, ← neg_div, div_left_inj' (by norm_num)] at hk
    have hint : k.toInt = -(quantMagnitude c : Int) := by exact_mod_cast hk
    rw [rng_iff_of_nonpos h hv]
    omega

/-- Settles O39: in range the code denotes the truncated value, and no other code does, so that the nibble layout must
give the code itself back. -/
theorem roundTripsHoldExactlyInRange : Obligations.RoundTripsHoldExactlyInRange := by
  intro c v h hv
  obtain rfl : v = truncated c := hv
  rw [unpackDirect_layoutDirect, unpackNibble_layoutNibble]
  refine ⟨(truncated_spec h).1, ⟨inRange_of_fixval_eq_truncated h, fixval_quantCode_of_inRange h⟩,
    fun hfix => ?back, fun ⟨hr, hnibble⟩ => ?again⟩
  case back =>
    have hr := inRange_of_fixval_eq_truncated h hfix
    rw [← fixval_quantCode_of_inRange h hr] at hfix
    exact ⟨hr, (and_nibbleMask_eq_self_iff _).mp (fixval_injective hfix)⟩
  case again =>
    rw [(and_nibbleMask_eq_self_iff _).mpr hnibble]
    exact fixval_quantCode_of_inRange h hr

end Sys2Proof.Laws
end

section
/-! The texts of the fifteen bytes and of several bands (43_serialize.md R160 to R164, 20_memory.md R58). -/

namespace Sys2Proof.Laws

open Sys2Proof.Machine

/-! Lengths. -/

/-- Each token but the last has its space, and one more would make the last like the others. -/
theorem joinSpace_length_bounds {lo hi : Nat} : ∀ {ts : List (List Char)}, ts ≠ [] →
    (∀ t ∈ ts, lo ≤ t.length ∧ t.length ≤ hi) →
    ts.length * (lo + 1) ≤ (joinSpace ts).length + 1 ∧ (joinSpace ts).length + 1 ≤ ts.length * (hi + 1)
  | [], h, _ => absurd rfl h
  | [t], _, h => by
    obtain ⟨hlo, hhi⟩ := h t (by simp)
    simp only [joinSpace, List.length_singleton]
    omega
  | t :: u :: ts, _, h => by
    obtain ⟨hlo, hhi⟩ := h t (by simp)
    obtain ⟨ihlo, ihhi⟩ := joinSpace_length_bounds (ts := u :: ts) (List.cons_ne_nil _ _) fun x hx =>
      h x (List.mem_cons_of_mem _ hx)
    rw [joinSpace, List.length_append, List.length_cons (a := t), List.length_cons (a := ' '), Nat.succ_mul,
      Nat.succ_mul]
    omega

/-- Tokens of one length. -/
theorem joinSpace_length {len : Nat} {ts : List (List Char)} (hne : ts ≠ []) (h : ∀ t ∈ ts, t.length = len) :
    (joinSpace ts).length + 1 = ts.length * (len + 1) :=
  have ⟨hlo, hhi⟩ := joinSpace_length_bounds hne fun t ht => ⟨(h t ht).ge, (h t ht).le⟩
  le_antisymm hhi hlo

theorem toHex_length (y : PerSlot Packed) : (toHex y).length = 44 := by
  have h := joinSpace_length (len := 2) (ts := (wireBytes y).map hex2) (List.cons_ne_nil _ _)
    (List.forall_mem_map.mpr fun _ _ => rfl)
  rw [List.length_map, wireBytes_length] at h
  exact Nat.succ_injective h

theorem toDecimal_length_bounds (y : PerSlot Packed) : 29 ≤ (toDecimal y).length ∧ (toDecimal y).length ≤ 59 := by
  have h := joinSpace_length_bounds (ts := (wireBytes y).map decByte) (List.cons_ne_nil _ _)
    (List.forall_mem_map.mpr fun b _ => decByte_length b)
  rw [List.length_map, wireBytes_length] at h
  exact ⟨Nat.le_of_succ_le_succ h.1, Nat.le_of_succ_le_succ h.2⟩

theorem bandsText_toHex_length (y : PerSlot Packed) (rest : List (PerSlot Packed)) :
    (bandsText toHex (y :: rest)).length = 44 + 45 * rest.length := by
  have h := joinSpace_length (ts := (y :: rest).map toHex) (List.cons_ne_nil _ _)
    (List.forall_mem_map.mpr fun y' _ => toHex_length y')
  rw [List.length_map, List.length_cons] at h
  rw [bandsText]
  omega

/-! The characters of the hex text. -/

theorem hexDigit_mem : ∀ d : BitVec 4, hexDigit d.toNat ∈ "0123456789ABCDEF".toList := by decide

/-- Every third character is a separator, the others are digits: three characters on, the text is that of one byte
fewer. -/
theorem joinSpace_hex2_getElem? : ∀ (bs : List Byte) (n : Nat), n + 1 < 3 * bs.length →
    ∃ ch, (joinSpace (bs.map hex2))[n]? = some ch ∧
      (if n % 3 = 2 then ch = ' ' else ch ∈ "0123456789ABCDEF".toList)
  | [b], 0, _ | b :: _ :: _, 0, _ => ⟨_, rfl, hexDigit_mem (b.extractLsb' 4 4)⟩
  | [b], 1, _ | b :: _ :: _, 1, _ => ⟨_, rfl, hexDigit_mem (b.extractLsb' 0 4)⟩
  | [_], n + 2, hn => absurd hn (by simp)
  | _ :: _ :: _, 2, _ => ⟨_, rfl, rfl⟩
  | _ :: c :: bs, n + 3, hn => by
    rw [Nat.add_mod_right]
    exact joinSpace_hex2_getElem? (c :: bs) n (by rw [List.length_cons] at hn; omega)

/-! The bytes read back from a text. -/

theorem hex2_injective : Function.Injective hex2 := fun a b h =>
  BitVec.eq_of_toNat_eq (by rw [← hexValue_hex2, h, hexValue_hex2])

theorem decByte_injective : Function.Injective decByte := fun a b h =>
  BitVec.eq_of_toNat_eq (by rw [← decimalValue_decByte, h, decimalValue_decByte])

/-- A text of fifteen spaceless tokens, each of which determines its byte, determines the bytes. -/
theorem eq_of_joinSpace_map_eq {render : Byte → List Char} (hs : ∀ b, Spaceless (render b))
    (hinj : Function.Injective render) {y y' : PerSlot Packed}
    (h : joinSpace ((wireBytes y).map render) = joinSpace ((wireBytes y').map render)) : y = y' :=
  wireBytes_injective (hinj.list_map (joinSpace_injective (List.forall_mem_map.mpr fun b _ => hs b)
    (List.forall_mem_map.mpr fun b _ => hs b) (by simp) h))

theorem toHex_injective : Function.Injective toHex := fun _ _ => eq_of_joinSpace_map_eq spaceless_hex2 hex2_injective

theorem toDecimal_injective : Function.Injective toDecimal := fun _ _ =>
  eq_of_joinSpace_map_eq spaceless_decByte decByte_injective

/-! The bytes as the bus reads them. -/

/-- BYTE0 to BYTE14 (20_memory.md R58). -/
def byteRegs : List Reg := allSlots.flatMap fun i => [.byte i .first, .byte i .second, .byte i .third]

theorem byteRegs_map_index :
    byteRegs.map Reg.index = (List.range 15).map fun n => BitVec.ofNat 8 (0x20 + n) := by decide

theorem busRead_byte_toNat (i : Slot) (k : ByteNo) (s : State) :
    (busRead (Reg.byte i k).index s).2.toNat = ((s.bytes.get i).get k).toNat := by
  rw [busRead_index]
  exact BitVec.toNat_setWidth_of_le (by decide)

/-- The bytes in wire order are what the bus reads at 0x20 to 0x2E. -/
theorem map_busRead_bytes {α : Type} (f : Nat → α) (s : State) :
    ((List.range 15).map fun n => f (busRead (BitVec.ofNat 8 (0x20 + n)) s).2.toNat) =
      (wireBytes s.bytes).map fun b => f b.toNat :=
  calc (List.range 15).map fun n => f (busRead (BitVec.ofNat 8 (0x20 + n)) s).2.toNat
    _ = (byteRegs.map Reg.index).map fun idx => f (busRead idx s).2.toNat := by
      rw [byteRegs_map_index, List.map_map]
      rfl
    _ = allSlots.flatMap fun i => [.first, .second, .third].map fun k => f ((s.bytes.get i).get k).toNat := by
      simp only [byteRegs, List.map_flatMap, List.map_cons, List.map_nil, busRead_byte_toNat]
    _ = (wireBytes s.bytes).map fun b => f b.toNat := rfl

/-- A text whose tokens are numerals of the bytes is one of what the bus reads. -/
theorem joinSpace_map_wireBytes {render : Byte → List Char} {numeral : Nat → List Char}
    (h : ∀ b, render b = numeral b.toNat) (s : State) : joinSpace ((wireBytes s.bytes).map render) =
      List.intercalate [' '] ((List.range 15).map fun n =>
        numeral (busRead (BitVec.ofNat 8 (0x20 + n)) s).2.toNat) := by
  rw [joinSpace_eq_intercalate, map_busRead_bytes, funext h]

/-- Settles O54: three characters to a byte, and every byte can be read back. -/
theorem hexTextHasFortyFourCharactersAndLosesNothing :
    Obligations.HexTextHasFortyFourCharactersAndLosesNothing := by
  refine ⟨fun y y' => ⟨toHex_length y, fun h => toHex_injective h, fun n hn => ?_⟩,
    joinSpace_map_wireBytes (numeral := fun v =>
      ["0123456789ABCDEF".toList.getD (v / 16) ' ', "0123456789ABCDEF".toList.getD (v % 16) ' ']) hex2_eq_digits⟩
  exact joinSpace_hex2_getElem? _ n (by rw [wireBytes_length]; omega)

/-- Settles O55: one to three digits to a byte; each text determines the bytes, and so the other text. -/
theorem decimalTextIsBoundedAndLosesNothing : Obligations.DecimalTextIsBoundedAndLosesNothing := by
  refine ⟨fun y y' => ?_, joinSpace_map_wireBytes decByte_eq_toDigits⟩
  obtain ⟨hlo, hhi⟩ := toDecimal_length_bounds y
  exact ⟨hlo, hhi, fun h => toDecimal_injective h, toDecimal_injective.eq_iff.trans toHex_injective.eq_iff.symm⟩

/-- Settles O56: the texts are joined as the tokens of one text are. -/
theorem bandTextsAreJoinedBySingleSpaces : Obligations.BandTextsAreJoinedBySingleSpaces :=
  ⟨fun render bands _ => joinSpace_eq_intercalate (bands.map render), bandsText_toHex_length⟩

end Sys2Proof.Laws
end

section
/-! The error entry (60_exceptions.md R172), and that no state of the invariant stops (R170, 42_pipeline.md R150). -/

namespace Sys2Proof.Laws

open Sys2Proof.Machine Sys2Proof.Safety

/-! A step of the invariant. -/

section

variable {s : State}

theorem pend_eq_some_of_busy (h : Inv s) (hb : s.busy = true) : ∃ p, s.pend = some p := by
  obtain ⟨hsome, -⟩ := h.pend
  exact Option.isSome_iff_exists.mp (hsome.trans hb)

/-- The engine stops only if BUSY = 1 and no command is pending, which the invariant shuts out. -/
theorem engineTurn_total (h : Inv s) : ∃ t, engineTurn s = .next t := by
  cases hb : s.busy with
  | false => exact ⟨s, engineTurn_of_idle hb⟩
  | true =>
    obtain ⟨p, hp⟩ := pend_eq_some_of_busy h hb
    rw [engineTurn_of_pending hb hp]
    exact runPending_total hp

/-- In every state one of the four kinds of turn is next. -/
theorem next_turn_cases (s : State) :
    HostMoves s ∨ EngineMoves s ∨ s.turns.head? = some .wait ∨ ResetMoves s := by
  cases hs : s.turns with
  | nil =>
    cases hb : s.busy with
    | false => exact .inl (.inr ⟨hs, hb⟩)
    | true => exact .inr (.inl (.inr ⟨hs, hb⟩))
  | cons x rest =>
    have hx : s.turns.head? = some x := by rw [hs, List.head?_cons]
    cases x with
    | host => exact .inl (.inl hx)
    | engine => exact .inr (.inl (.inl hx))
    | wait => exact .inr (.inr (.inl rfl))
    | reset => exact .inr (.inr (.inr hx))

end

/-- Settles O18: only a turn of the engine can stop, and under the invariant it does not. -/
theorem aStepOfTheInvariantNeverStops : Obligations.AStepOfTheInvariantNeverStops := by
  intro s h
  rcases next_turn_cases s with hhost | hengine | hwait | hreset
  · exact ⟨_, step_of_hostMoves hhost⟩
  · rw [step_of_engineMoves hengine]
    exact engineTurn_total (inv_withTurns _ h)
  · exact ⟨_, step_of_wait hwait⟩
  · exact ⟨_, step_of_resetMoves hreset⟩

/-! The error entry. -/

/-- What a command writes before it raises is flags alone. -/
theorem exec_error_sameData {i : Instr} {s t : State} (h : exec i s = .next t) (herr : statusErr t.status = true) :
    SameData s t := by
  rcases exec_cases h with ⟨u, rfl, -, -⟩ | ⟨u, e, x, rfl, -, hcoefs, hcodes, hbytes, -, -⟩
  · simp at herr
  · exact ⟨hcoefs, hcodes, hbytes⟩

/-- Settles O29: the error entry is an update of STATUS and PEND, and a raising command has written flags alone. -/
theorem raisingAnErrorWritesTheReportOnly : Obligations.RaisingAnErrorWritesTheReportOnly := by
  refine ⟨fun e x s => ?entry, fun i s t h herr => ?command⟩
  case entry => exact ⟨_, rfl, finishedErr_raiseCmdError e x s, rfl, ⟨rfl, rfl, rfl⟩, ⟨rfl, rfl, rfl⟩⟩
  case command =>
    obtain ⟨hsame, -⟩ := exec_frame h
    exact ⟨exec_error_sameData h herr, hsame⟩

end Sys2Proof.Laws
end

section
/-! The reset event, and the completion of a pending command under every order of turns that holds no reset
(70_reset_and_hazards.md R190, R191, R200, 42_pipeline.md R150, log 2). -/

namespace Sys2Proof.Laws

open Sys2Proof.Machine Sys2Proof.Safety

/-! Reset. -/

/-- The bus reads nothing of the host and the turns, which are all that a reset leaves. -/
theorem busRead_resetEvent (idx : RegIndex) (s : State) : busRead idx (resetEvent s) = busRead idx State.reset := rfl

theorem reset_report : statusBusy State.reset.status = false ∧ statusDone State.reset.status = false ∧
    statusErr State.reset.status = false := by
  decide

/-- Settles O2: the reset event is the reset state with the host and the turns as they were. -/
theorem resetEventClearsEveryRegisterAndAbandonsTheCommand :
    Obligations.ResetEventClearsEveryRegisterAndAbandonsTheCommand := by
  intro s hm
  obtain ⟨hbusy, hdone, herr⟩ := reset_report
  exact ⟨resetEvent (turnTaken s), step_of_resetMoves hm, rfl, rfl, rfl, rfl, rfl, rfl, rfl, hbusy, hdone, herr, rfl,
    fun idx => busRead_resetEvent idx _⟩

/-! A turn of the host. -/

theorem writeReg_turns (r : Reg) (d : BusData) (s : State) : (writeReg r d s).turns = s.turns := by
  rcases writeReg_cases r d s with
    hw | ⟨-, -, hw⟩ | ⟨-, -, -, hw⟩ | ⟨-, -, hw⟩ | ⟨p, -, -, hw⟩ | ⟨i, -, -, hw⟩ <;> simp [hw]

theorem hostTurn_turns (s : State) : (hostTurn s).turns = s.turns := by
  rcases hostTurn_cases s with ht | ⟨r, d, rest, -, -, ht⟩ <;> rw [ht, withHost_turns]
  exact writeReg_turns r d s

/-- What the host writes while a command is in progress does not end it. -/
theorem hostTurn_keeps_busy {s : State} (hb : s.busy = true) : (hostTurn s).busy = true := by
  rcases hostTurn_cases s with ht | ⟨r, d, rest, -, -, ht⟩ <;> rw [ht]
  · exact hb
  · exact writeReg_keeps_busy hb

/-! A run up to the completion. -/

section

variable {s : State}

theorem run_succ_of_step {u : State} (h : step s = .next u) (k : Nat) :
    Sys2Proof.core.run (k + 1) s = Sys2Proof.core.run k u := by
  have hcore : Sys2Proof.core.step s = .next u := h
  simp only [Host.Core.run, hcore]

/-- In at most `n` steps a state with BUSY = 0 and DONE = 1 is reached. -/
def CompletesWithin (n : Nat) (s : State) : Prop :=
  ∃ k t, k ≤ n ∧ Sys2Proof.core.run k s = .next t ∧ statusBusy t.status = false ∧ statusDone t.status = true

theorem completesWithin_of_completed {n : Nat} (hb : statusBusy s.status = false) (hd : statusDone s.status = true) :
    CompletesWithin n s :=
  ⟨0, s, Nat.zero_le n, rfl, hb, hd⟩

theorem completesWithin_succ_of_step {n : Nat} {u : State} (h : step s = .next u) (hu : CompletesWithin n u) :
    CompletesWithin (n + 1) s := by
  obtain ⟨k, t, hk, hrun, hbusy, hdone⟩ := hu
  exact ⟨k + 1, t, Nat.succ_le_succ hk, (run_succ_of_step h k).trans hrun, hbusy, hdone⟩

/-- The engine's turn is the completion. -/
theorem completesWithin_succ_of_engineMoves {n : Nat} (h : Inv s) (hb : s.busy = true) (hm : EngineMoves s) :
    CompletesWithin (n + 1) s := by
  obtain ⟨p, hp⟩ := pend_eq_some_of_busy h hb
  obtain ⟨t, hrun⟩ := runPending_total (s := turnTaken s) hp
  obtain ⟨u, e, c, x, rfl, -, -, -⟩ := runPending_cases (s := turnTaken s) hp hrun
  exact completesWithin_succ_of_step ((step_of_pending hm hb hp).trans hrun)
    (completesWithin_of_completed (by simp [completed]) (by simp [completed]))

end

/-- Every turn but the engine's and a reset leaves the command pending and is used up, and with no turn left the engine
moves. -/
theorem completesWithin_of_no_reset (turns : List Turn) : ∀ {s : State}, s.turns = turns → Inv s → s.busy = true →
    (∀ x ∈ turns, x ≠ .reset) → CompletesWithin (turns.length + 1) s := by
  induction turns with
  | nil => exact fun hs h hb _ => completesWithin_succ_of_engineMoves h hb (.inr ⟨hs, hb⟩)
  | cons x rest ih =>
    intro s hs h hb hnr
    obtain ⟨hx, hrest⟩ := List.forall_mem_cons.mp hnr
    have hhead : s.turns.head? = some x := by rw [hs, List.head?_cons]
    have htail : (turnTaken s).turns = rest := by rw [withTurns_turns, hs, List.tail_cons]
    have htaken : Inv (turnTaken s) := inv_withTurns _ h
    cases x with
    | host =>
      exact completesWithin_succ_of_step (step_of_hostMoves (.inl hhead))
        (ih ((hostTurn_turns _).trans htail) (inv_hostTurn htaken) (hostTurn_keeps_busy hb) hrest)
    | engine => exact completesWithin_succ_of_engineMoves h hb (.inl hhead)
    | wait => exact completesWithin_succ_of_step (step_of_wait hhead) (ih htail htaken hb hrest)
    | reset => exact absurd rfl hx

/-- Settles O17: by induction on the turns to come. -/
theorem anAcceptedCommandCompletesUnlessReset : Obligations.AnAcceptedCommandCompletesUnlessReset :=
  fun s h hb hnr => completesWithin_of_no_reset s.turns rfl h hb hnr

end Sys2Proof.Laws
end
